-- ==== Sys2Proof/Word.lean ====
section
/-! DEFINITION. The cell, this machine's word, and the range a cell of a given width has (00_scope.md R4, R8).

A cell is "a two's-complement signed integer of W bits" and every rule computes on "the mathematical integers the cells
denote" (R8), narrowing with `wrap` where it says so. W is a build parameter (R4), so a cell is held as the `Int` it
denotes, and that it fits W bits is an invariant (Safety.lean; DESIGN CHOICE, log entry 2). -/

namespace Sys2Proof

/-- One byte of host input, "8 bits, unsigned 0..255" (10_state.md R24). -/
abbrev Byte := BitVec 8

/-- MIN = -2^(W-1), the least cell of `W` bits (R4). -/
def minCell (W : Nat) : Int := -((2 ^ (W - 1) : Nat) : Int)

/-- MAX = 2^(W-1)-1, the greatest cell of `W` bits (R4). -/
def maxCell (W : Nat) : Int := ((2 ^ (W - 1) : Nat) : Int) - 1

/-- `v` is a cell of `W` bits: it lies in "-2^(W-1) to 2^(W-1)-1" (R4). -/
abbrev Fits (W : Nat) (v : Int) : Prop := minCell W ≤ v ∧ v ≤ maxCell W

end Sys2Proof
end

