-- ==== Sys2Proof/Machine/Cell.lean ====
section
/-! DEFINITION. The narrowings of 00_scope.md R8: `wrap`, the unsigned reading `u` and `zext_8`. -/

namespace Sys2Proof

/-- `wrap(x)`: "the unique integer in [-2^(W-1), 2^(W-1)-1] that differs from x by a multiple of 2^W" (R8). -/
def wrap (W : Nat) (x : Int) : Int := Int.bmod x (2 ^ W)

/-- `u(v)`: "the unsigned reading of a cell: u(v) = v if v >= 0, else v + 2^W" (R8). -/
def unsignedOf (W : Nat) (v : Int) : Int := if 0 ≤ v then v else v + ((2 ^ W : Nat) : Int)

/-- `zext_8` of an input byte: its value 0..255 as a cell (R8, 44_port_io.md R90). -/
def zext8 (b : Byte) : Int := (b.toNat : Int)

end Sys2Proof
end

