-- ==== Sys2Proof/Config.lean ====
section
/-! DEFINITION. What an implementation fixes: the four parameters of 00_scope.md R4 to R7, and their defaults. There is no
free value in this model: no rule of spec/ leaves the result of an instruction open. -/

namespace Sys2Proof

/-- One build of the hardware: "constants of the built hardware, not signals" (45_interfaces.md R97; 00_scope.md R4-R7).
A state carries its build, and no step changes it. DESIGN CHOICE (log entry 1). -/
structure Build where
  /-- CELL_BITS (W), the width of a cell in bits (R4). -/
  cellBits : Nat
  /-- IMAGE_CELLS (C), the number of cells of Image Memory (R5). -/
  imageCells : Nat
  /-- DSTACK_DEPTH, the capacity of the data stack in cells (R6). -/
  dstackDepth : Nat
  /-- ASTACK_DEPTH, the capacity of the address stack in cells (R6). -/
  astackDepth : Nat
  deriving DecidableEq, Repr

/-- "Each has a default the model uses when no other value is given": W = 32, C = 50000, both depths 1024 (R4, R5, R6). -/
def Config.defaultBuild : Build :=
  { cellBits := 32, imageCells := 50000, dstackDepth := 1024, astackDepth := 1024 }

end Sys2Proof
end

