-- ==== Sys2Proof/Syntax.lean ====
section
/-! DEFINITION. The 31 instructions of the ngaro opcode set, one constructor per row of spec/opcode_table.json
(30_encoding.md R49). No constructor has a field: an instruction is its opcode cell alone, and the operand cell of a
format-I instruction is read by the instruction's own rule (30_encoding.md R51: "the value selects the rule, and for the
seven format-I opcodes the rule reads the operand cell itself"). -/

namespace Sys2Proof

/-- The instructions, in the order of their opcodes 0 to 30 (30_encoding.md R49). -/
inductive Instr where
  /-- 0 NOP (R58) -/
  | nop
  /-- 1 LIT, format I (R59) -/
  | lit
  /-- 2 DUP (R60) -/
  | dup
  /-- 3 DROP (R61) -/
  | drop
  /-- 4 SWAP (R62) -/
  | swap
  /-- 5 PUSH (R63) -/
  | push
  /-- 6 POP (R64) -/
  | pop
  /-- 7 CALL, format I (R66) -/
  | call
  /-- 8 JUMP, format I (R67) -/
  | jump
  /-- 9 RETURN (R68) -/
  | ret
  /-- 10 GT_JUMP, format I (R69) -/
  | gtJump
  /-- 11 LT_JUMP, format I (R70) -/
  | ltJump
  /-- 12 NE_JUMP, format I (R71) -/
  | neJump
  /-- 13 EQ_JUMP, format I (R72) -/
  | eqJump
  /-- 14 FETCH (R74) -/
  | fetch
  /-- 15 STORE (R75) -/
  | store
  /-- 16 ADD (R77) -/
  | add
  /-- 17 SUB (R78) -/
  | sub
  /-- 18 MUL (R79) -/
  | mul
  /-- 19 DIVMOD (R80) -/
  | divmod
  /-- 20 AND (R81) -/
  | and
  /-- 21 OR (R82) -/
  | or
  /-- 22 XOR (R83) -/
  | xor
  /-- 23 SHL (R84) -/
  | shl
  /-- 24 SHR (R85) -/
  | shr
  /-- 25 ZERO_EXIT (R73) -/
  | zeroExit
  /-- 26 INC (R86) -/
  | inc
  /-- 27 DEC (R87) -/
  | dec
  /-- 28 IN (R90) -/
  | input
  /-- 29 OUT (R92) -/
  | output
  /-- 30 WAIT (R94) -/
  | wait
  deriving DecidableEq, Repr

end Sys2Proof
end

