-- ==== Sys2Proof/Machine/Format.lean ====
section
/-! DEFINITION. The two instruction formats and which instruction has which (30_encoding.md R46, R55). -/

namespace Sys2Proof

/-- Format Z, "zero operands, one cell", and format I, "one immediate operand, two cells" (30_encoding.md R46). -/
inductive Format where
  | z
  | i
  deriving DecidableEq, Repr

/-- "The seven format-I opcodes are LIT (1), CALL (7), JUMP (8), GT_JUMP (10), LT_JUMP (11), NE_JUMP (12) and EQ_JUMP
(13). The other twenty-four opcodes are format Z." (30_encoding.md R46) -/
def Instr.format : Instr → Format
  | .lit => .i
  | .call => .i
  | .jump => .i
  | .gtJump => .i
  | .ltJump => .i
  | .neJump => .i
  | .eqJump => .i
  | .nop => .z
  | .dup => .z
  | .drop => .z
  | .swap => .z
  | .push => .z
  | .pop => .z
  | .ret => .z
  | .fetch => .z
  | .store => .z
  | .add => .z
  | .sub => .z
  | .mul => .z
  | .divmod => .z
  | .and => .z
  | .or => .z
  | .xor => .z
  | .shl => .z
  | .shr => .z
  | .zeroExit => .z
  | .inc => .z
  | .dec => .z
  | .input => .z
  | .output => .z
  | .wait => .z

/-- "The length of an instruction, in cells, is decided by its opcode alone: 2 for the seven format-I opcodes of rule
R46, 1 for the rest." (30_encoding.md R55) -/
def Instr.cells (i : Instr) : Nat :=
  match i.format with
  | .z => 1
  | .i => 2

end Sys2Proof
end

