-- ==== Sys2Proof/WellFormed.lean ====
section
/-! DEFINITION. What is well formed: a build (00_scope.md R4-R6) and a written instruction, that is an opcode with the
operand cell its format asks for (30_encoding.md R46, R56). An `Instr` alone has no field, so each of its terms is well
formed. -/

namespace Sys2Proof

/-- The legal parameter values: "every integer W >= 32" (R4), "1 <= C <= 2^(W-1) - 2" (R5), each depth "every integer
>= 1" (R6). -/
def Build.legal (b : Build) : Bool :=
  decide (32 ≤ b.cellBits) && decide (1 ≤ b.imageCells) && decide (b.imageCells ≤ 2 ^ (b.cellBits - 1) - 2)
    && decide (1 ≤ b.dstackDepth) && decide (1 ≤ b.astackDepth)

/-- One instruction as it is written in an image: "the opcode number followed, for format I, by value" (R56). -/
structure Line where
  instr : Instr
  operand : Option Int
  deriving DecidableEq, Repr

/-- A line has an operand exactly when its format is I, and the operand is "a whole signed cell" of `W` bits (R46). -/
def Line.wellFormed (W : Nat) (l : Line) : Bool :=
  match l.instr.format, l.operand with
  | .z, none => true
  | .z, some _ => false
  | .i, none => false
  | .i, some v => decide (Fits W v)

end Sys2Proof
end

