-- ==== Sys2Proof/Decode.lean ====
section
/-! DEFINITION. Decode and encode (30_encoding.md R46 to R55). The decoder looks at the whole fetched cell and at nothing
else (R48, R51); a cell outside 0..30 is rejected by name (R53). -/

namespace Sys2Proof

/-- Why a cell sequence is not an instruction. -/
inductive Reject where
  /-- "Every cell value other than 0 to 30 is an illegal opcode" (R53): the cell. -/
  | invalidOpcode (op : Int)
  /-- The sequence of cells ends before the opcode, or before the operand cell of a format-I opcode (R46). -/
  | endOfCells
  deriving DecidableEq, Repr

/-- The opcode map read from number to instruction (R49, R53): "if op < 0 or op > 30 then raise InvalidOpcode" (R50). -/
def decode (op : Int) : Except Reject Instr :=
  if op < 0 ∨ 30 < op then .error (.invalidOpcode op)
  else
    match op.toNat with
    | 0 => .ok .nop
    | 1 => .ok .lit
    | 2 => .ok .dup
    | 3 => .ok .drop
    | 4 => .ok .swap
    | 5 => .ok .push
    | 6 => .ok .pop
    | 7 => .ok .call
    | 8 => .ok .jump
    | 9 => .ok .ret
    | 10 => .ok .gtJump
    | 11 => .ok .ltJump
    | 12 => .ok .neJump
    | 13 => .ok .eqJump
    | 14 => .ok .fetch
    | 15 => .ok .store
    | 16 => .ok .add
    | 17 => .ok .sub
    | 18 => .ok .mul
    | 19 => .ok .divmod
    | 20 => .ok .and
    | 21 => .ok .or
    | 22 => .ok .xor
    | 23 => .ok .shl
    | 24 => .ok .shr
    | 25 => .ok .zeroExit
    | 26 => .ok .inc
    | 27 => .ok .dec
    | 28 => .ok .input
    | 29 => .ok .output
    | 30 => .ok .wait
    | _ => .error (.invalidOpcode op)

/-- Decode one written instruction from the cells at its address on, with the cells after it (R46, R55). -/
def decodeLine : List Int → Except Reject (Line × List Int)
  | [] => .error .endOfCells
  | op :: rest =>
    match decode op with
    | .error r => .error r
    | .ok i =>
      match i.format, rest with
      | .z, rest => .ok (⟨i, none⟩, rest)
      | .i, v :: rest => .ok (⟨i, some v⟩, rest)
      | .i, [] => .error .endOfCells

/-- The cell at place `k` of an instruction whose bits are the number `w`, in cells of `W` bits, the first cell the
least significant: the signed reading of that bit slice (R8). -/
def cellOfBits (W k w : Nat) : Int := wrap W ((w / 2 ^ (W * k) % 2 ^ W : Nat) : Int)

/-- The instruction the decoder reads from a row's bits as spec/opcode_table.json numbers them: the first cell is bits
31..0 (the table is written for the default W = 32), `nbits` bits are given and those above are 0. The operand cell
takes no part in decoding (R51). -/
def decodeTableWord (nbits w : Nat) : Option Instr :=
  match decodeLine [cellOfBits 32 0 (w % 2 ^ nbits), cellOfBits 32 1 (w % 2 ^ nbits)] with
  | .ok (l, _) => some l.instr
  | .error _ => none

/-- The opcode map read from instruction to number (R49). -/
def Instr.opcode : Instr → Int
  | .nop => 0
  | .lit => 1
  | .dup => 2
  | .drop => 3
  | .swap => 4
  | .push => 5
  | .pop => 6
  | .call => 7
  | .jump => 8
  | .ret => 9
  | .gtJump => 10
  | .ltJump => 11
  | .neJump => 12
  | .eqJump => 13
  | .fetch => 14
  | .store => 15
  | .add => 16
  | .sub => 17
  | .mul => 18
  | .divmod => 19
  | .and => 20
  | .or => 21
  | .xor => 22
  | .shl => 23
  | .shr => 24
  | .zeroExit => 25
  | .inc => 26
  | .dec => 27
  | .input => 28
  | .output => 29
  | .wait => 30

/-- The cells of a written instruction: the opcode, then the operand if it has one (R46, R56). -/
def encode (l : Line) : List Int := l.instr.opcode :: l.operand.toList

/-- An image: "The line assembles to the opcode number followed, for format I, by value", line after line (R56). -/
def assemble (ls : List Line) : List Int := ls.flatMap encode

end Sys2Proof
end

