-- ==== Sys2Proof/Machine/State.lean ====
section
/-! DEFINITION. The machine's state as plain data (10_state.md R13 to R30), the reasons a model step can stop, the host's
moves (45_interfaces.md R95, R106), and the state after reset (70_reset_and_hazards.md R127). -/

namespace Sys2Proof.Machine

/-- Image Memory `IMG[0 .. C-1]` (R14): the cells that are not zero, as (address, cell) pairs with strictly rising
addresses; an unlisted address reads as 0, which is what reset leaves in it (R127). DESIGN CHOICE (log entry 3). -/
abbrev Memory := List (Nat × Int)

/-- The kinds of fatal fault and `None` (60_exceptions.md R109, R110). -/
inductive FaultKind where
  /-- 0: "no fault has occurred" -/
  | none
  /-- 1: "boot payload exceeds requested capacity" -/
  | imageTooLarge
  /-- 2: "any memory read/write with an address outside [0, capacity)" -/
  | outOfBounds
  /-- 3: "pushing past stack capacity" -/
  | stackOverflow
  /-- 4: "popping/peeking an empty stack" -/
  | stackUnderflow
  /-- 5: "fetched cell does not correspond to a defined opcode" -/
  | invalidOpcode
  /-- 6: "divisor a == 0" -/
  | divisionByZero
  deriving DecidableEq, Repr

/-- `PHASE`: LOAD or RUN (R28). -/
inductive Phase where
  | load
  | run
  deriving DecidableEq, Repr

/-- "Everything the host can do to the core, at the transaction level" (45_interfaces.md R106). -/
inductive HostMove where
  /-- Reset (R127). -/
  | reset
  /-- Load cell `v` (R98, R99). -/
  | loadCell (v : Int)
  /-- Start: leave LOAD (R98, R129). -/
  | start
  /-- Deliver byte `b` (R100). -/
  | deliver (b : Byte)
  /-- Request halt (R102). -/
  | requestHalt
  /-- Take output: "observes the next cell of OUT_SEQ; no effect on the core". -/
  | takeOutput
  /-- Observe status: reads the status signals. -/
  | observe
  deriving DecidableEq, Repr

/-- The input pins sampled at one rising edge of `clk` (45_interfaces.md R95). -/
structure Pins where
  rst : Bool
  ldValid : Bool
  ldData : Int
  ldStart : Bool
  inValid : Bool
  inData : Byte
  haltReq : Bool
  deriving DecidableEq, Repr

/-- Whose turn it is: the core's (one attempt at the main step), the host's (one move of R106), or the host's at signal
level (the input pins of one clock edge, R95). -/
inductive Turn where
  | core
  | host (m : HostMove)
  | edge (p : Pins)
  deriving DecidableEq, Repr

/-- The complete state of the core (R13), the bookkeeping sequences of R29, and the model's own fields `build`,
`inPending`, `inTaken` and `turns` (log entries 1, 6, 15, 7). -/
structure State where
  /-- The build's parameters, constant (00_scope.md R4-R7). The model's own field. -/
  build : Build
  /-- `IMG` (R14). -/
  img : Memory
  /-- `ip` (R17). -/
  ip : Int
  /-- The data stack, top first; `DSP` is its length (R18, R20; slots beyond it are not held, R19, log entry 4). -/
  dstack : List Int
  /-- The address stack, top first; `ASP` is its length (R18, R21; log entry 4). -/
  astack : List Int
  /-- `HALT_FLAG` (R22). -/
  haltFlag : Bool
  /-- `HALTED` (R23). -/
  halted : Bool
  /-- `IN_VALID` (R24). -/
  inValid : Bool
  /-- `IN_BYTE` (R24), meaningful only while `IN_VALID = 1`. -/
  inByte : Byte
  /-- `FAULT_KIND` (R26). -/
  faultKind : FaultKind
  /-- `FAULT_IP` (R27). -/
  faultIp : Int
  /-- `PHASE` (R28). -/
  phase : Phase
  /-- `LOAD_PTR` (R28). -/
  loadPtr : Nat
  /-- `OUT_SEQ`, the cells emitted, in order (R29). -/
  outSeq : List Int
  /-- `IN_SEQ`, the bytes the host delivered, in order (R29). -/
  inSeq : List Byte
  /-- How many bytes of `IN_SEQ` an IN has consumed. The model's own bookkeeping (log entry 15). -/
  inTaken : Nat
  /-- `WAIT_COUNT` (R29). -/
  waitCount : Nat
  /-- An IN is pending in its wait (44_port_io.md R90, 45_interfaces.md R101). DEDUCED (log entry 6). -/
  inPending : Bool
  /-- The turns still to come, next one first; after the last, every turn is the core's. The model's own (log entry 7). -/
  turns : List Turn
  deriving DecidableEq, Repr

/-- The reasons the MODEL stops. The machine's own fatal faults are not among them: they are next states with the fault
record written (60_exceptions.md R111; log entry 11). -/
inductive Fault where
  /-- Raised by `step` alone, when the state's build has a parameter outside the legal values of 00_scope.md R4-R6: no
  such hardware exists. Safe (log entry 12). -/
  | illegalBuild
  deriving DecidableEq, Repr

/-- The reasons the model has no meaning to give. -/
inductive Refusal where
  /-- Raised by `exec` for an instruction that has no meaning yet: none. Safe. -/
  | notModelled (mnemonic : String)
  deriving DecidableEq, Repr

/-- The state right after reset (70_reset_and_hazards.md R127), in the default build (00_scope.md R4-R6). `inByte` is
"unspecified" there and its 0 is a DESIGN CHOICE (log entry 5); no host turn is scheduled (log entry 7). -/
def State.reset : State :=
  { build := Config.defaultBuild
    img := []
    ip := 0
    dstack := []
    astack := []
    haltFlag := false
    halted := false
    inValid := false
    inByte := 0
    faultKind := .none
    faultIp := 0
    phase := .load
    loadPtr := 0
    outSeq := []
    inSeq := []
    inTaken := 0
    waitCount := 0
    inPending := false
    turns := [] }

end Sys2Proof.Machine
end

