-- ==== Sys2Proof/Machine/Arith.lean ====
section
/-! DEFINITION. The results of the arithmetic and logic instructions as functions of the two cells, `b` on the left and `a`
(the former top) on the right (43_arith_logic.md R76(b)). -/

namespace Sys2Proof.Machine

/-- ADD: `wrap(b + a)` (R77). -/
def addCell (W : Nat) (b a : Int) : Int := wrap W (b + a)

/-- SUB: `wrap(b - a)` (R78). -/
def subCell (W : Nat) (b a : Int) : Int := wrap W (b - a)

/-- MUL: `wrap(b * a)` (R79). -/
def mulCell (W : Nat) (b a : Int) : Int := wrap W (b * a)

/-- DIVMOD's quotient: `wrap(trunc(b / a))` (R80, R88). -/
def quotCell (W : Nat) (b a : Int) : Int := wrap W (Int.tdiv b a)

/-- DIVMOD's remainder: `b - a * trunc(b / a)`, exact (R80, R88). -/
def remCell (b a : Int) : Int := b - a * Int.tdiv b a

/-- AND: "bit by bit on the W-bit two's-complement representations" (R81, R76(e)). -/
def andCell (W : Nat) (b a : Int) : Int := (BitVec.ofInt W b &&& BitVec.ofInt W a).toInt

/-- OR (R82, R76(e)). -/
def orCell (W : Nat) (b a : Int) : Int := (BitVec.ofInt W b ||| BitVec.ofInt W a).toInt

/-- XOR (R83, R76(e)). -/
def xorCell (W : Nat) (b a : Int) : Int := (BitVec.ofInt W b ^^^ BitVec.ofInt W a).toInt

/-- SHL: `wrap(b * 2^a)` when `0 <= a < W`, else 0 (R84, decision D9). -/
def shlCell (W : Nat) (b a : Int) : Int :=
  if 0 ≤ a ∧ a < (W : Int) then wrap W (b * ((2 ^ a.toNat : Nat) : Int)) else 0

/-- SHR, logical: `wrap(floor(u(b) / 2^a))` when `0 <= a < W`, else 0 (R85, decision D9). `u(b)` is not negative for a
cell of `W` bits, so the floor division is `/` on the integers. -/
def shrCell (W : Nat) (b a : Int) : Int :=
  if 0 ≤ a ∧ a < (W : Int) then wrap W (unsignedOf W b / ((2 ^ a.toNat : Nat) : Int)) else 0

/-- INC: `wrap(a + 1)` (R86). -/
def incCell (W : Nat) (a : Int) : Int := wrap W (a + 1)

/-- DEC: `wrap(a - 1)` (R87). -/
def decCell (W : Nat) (a : Int) : Int := wrap W (a - 1)

end Sys2Proof.Machine
end

