-- ==== Sys2Proof/Machine/Flags.lean ====
section
/-! DEFINITION. The conditions the machine tests. It "has no status flags, no condition codes and no predicate registers"
(10_state.md R16): the conditional jumps compare two popped cells directly, and ZERO_EXIT tests one. Cells are compared as
the signed integers they denote (00_scope.md R8; 41_control.md R65(f), decision D10). -/

namespace Sys2Proof.Machine

/-- GT_JUMP's predicate: "b > a", signed (41_control.md R69). -/
def condGt (b a : Int) : Bool := decide (b > a)

/-- LT_JUMP's predicate: "b < a", signed (R70). -/
def condLt (b a : Int) : Bool := decide (b < a)

/-- NE_JUMP's predicate: "b != a", "the test is on all W bits" (R71). -/
def condNe (b a : Int) : Bool := decide (b ≠ a)

/-- EQ_JUMP's predicate: "b == a" (R72). -/
def condEq (b a : Int) : Bool := decide (b = a)

/-- ZERO_EXIT's test: "a == 0" (R73). -/
def condZero (a : Int) : Bool := decide (a = 0)

end Sys2Proof.Machine
end

