-- ==== Sys2Proof/Machine/Ops.lean ====
section
/-! DEFINITION. The named operations over the state: Image Memory (20_memory.md R33, R34), the two stacks (10_state.md R20,
R21), the Port Controller (44_port_io.md R89 to R93), the ends of a run (30_encoding.md R50, 10_state.md R23) and the one
way a fault is taken (60_exceptions.md R111). An operation that can raise a fault answers `Except FaultKind`. -/

namespace Sys2Proof.Machine

/-! ### Image Memory as data -/

/-- What an unlisted address reads as: "zero-fills the remainder", every cell 0 at reset (R127, R14). -/
def unlistedCell : Int := 0

/-- The cell at an address. -/
def Memory.read : Memory → Nat → Int
  | [], _ => unlistedCell
  | (a, v) :: m, addr => if a = addr then v else Memory.read m addr

/-- Replace the cell at an address, keeping the canonical form: writing `unlistedCell` unlists the address. -/
def Memory.write : Memory → Nat → Int → Memory
  | [], addr, v => if v = unlistedCell then [] else [(addr, v)]
  | (a, w) :: m, addr, v =>
    if addr < a then (if v = unlistedCell then (a, w) :: m else (addr, v) :: (a, w) :: m)
    else if addr = a then (if v = unlistedCell then m else (addr, v) :: m)
    else (a, w) :: Memory.write m addr v

/-- The canonical form: strictly rising addresses, and no entry equal to what an unlisted address reads as. -/
abbrev Memory.wf (m : Memory) : Prop :=
  m.Pairwise (fun p q => p.1 < q.1) ∧ ∀ p ∈ m, p.2 ≠ unlistedCell

/-- The image whose cell at `start + i` is the `i`-th of `cells` and whose other cells are 0 (R14, R130). -/
def Memory.ofCells : Nat → List Int → Memory
  | _, [] => []
  | start, v :: vs =>
    if v = unlistedCell then Memory.ofCells (start + 1) vs else (start, v) :: Memory.ofCells (start + 1) vs

/-! ### Field updates -/

/-- `ip <- v`; "no range check is made when `ip` is written" (10_state.md R17, 30_encoding.md R52). -/
def State.setIp (s : State) (v : Int) : State := { s with ip := v }

/-- `ip <- ip + n` (R52). -/
def State.advance (s : State) (n : Int) : State := { s with ip := s.ip + n }

/-- Replace the data stack. -/
def State.setDstack (s : State) (d : List Int) : State := { s with dstack := d }

/-- Replace the address stack. -/
def State.setAstack (s : State) (a : List Int) : State := { s with astack := a }

/-- Replace Image Memory. -/
def State.setImg (s : State) (m : Memory) : State := { s with img := m }

/-- Replace the schedule of turns (log entry 7). -/
def State.setTurns (s : State) (ts : List Turn) : State := { s with turns := ts }

/-- Set or clear the mark of a pending IN (log entry 6). -/
def State.setPending (s : State) (b : Bool) : State := { s with inPending := b }

/-! ### Faults and halts -/

/-- Fault entry, `raise K` (60_exceptions.md R111): "FAULT_KIND <- code of K, FAULT_IP <- p, HALTED <- 1 ... Nothing else
changes". It is applied to the state before the step, so that "every write the step has made so far" is discarded
(00_scope.md R11). There is no return from it: "only Reset leaves the halted state" (R115). -/
def State.raise (s : State) (k : FaultKind) : State :=
  { s with halted := true, faultKind := k, faultIp := s.ip }

/-- A normal halt: `HALTED <- 1` and no fault (30_encoding.md R50 item 2, 44_port_io.md R90). -/
def State.halt (s : State) : State := { s with halted := true }

/-- End an instruction begun in `s`: its effect, or the fault its first failing test raised, taken from `s` itself
(00_scope.md R11, 60_exceptions.md R111). -/
def commit (s : State) (r : Except FaultKind State) : Host.Outcome State Fault Refusal :=
  match r with
  | .ok t => .next t
  | .error k => .next (s.raise k)

/-! ### Checked memory access -/

/-- `MemRead(addr, 1)` (20_memory.md R33). -/
def memRead (s : State) (addr : Int) : Except FaultKind Int :=
  if addr < 0 ∨ (s.build.imageCells : Int) ≤ addr then .error .outOfBounds
  else .ok (s.img.read addr.toNat)

/-- `MemWrite(addr, 1, v)` (20_memory.md R34). -/
def memWrite (s : State) (addr v : Int) : Except FaultKind State :=
  if addr < 0 ∨ (s.build.imageCells : Int) ≤ addr then .error .outOfBounds
  else .ok (s.setImg (s.img.write addr.toNat v))

/-! ### The stacks -/

/-- `DPush(v)` (10_state.md R20). -/
def dPush (s : State) (v : Int) : Except FaultKind State :=
  if s.dstack.length = s.build.dstackDepth then .error .stackOverflow
  else .ok (s.setDstack (v :: s.dstack))

/-- `DPop()` (10_state.md R20): the popped cell and the state without it. -/
def dPop (s : State) : Except FaultKind (Int × State) :=
  match s.dstack with
  | [] => .error .stackUnderflow
  | a :: rest => .ok (a, s.setDstack rest)

/-- `DTop()` (10_state.md R20). -/
def dTop (s : State) : Except FaultKind Int :=
  match s.dstack with
  | [] => .error .stackUnderflow
  | a :: _ => .ok a

/-- `APush(v)` (10_state.md R21). -/
def aPush (s : State) (v : Int) : Except FaultKind State :=
  if s.astack.length = s.build.astackDepth then .error .stackOverflow
  else .ok (s.setAstack (v :: s.astack))

/-- `APop()` (10_state.md R21). -/
def aPop (s : State) : Except FaultKind (Int × State) :=
  match s.astack with
  | [] => .error .stackUnderflow
  | a :: rest => .ok (a, s.setAstack rest)

/-! ### The Port Controller -/

/-- What `RequestInput()` finds (44_port_io.md R89, R90): a byte, nothing with a halt requested, or nothing yet. -/
inductive InputPoll where
  | byte (b : Byte)
  | haltRequested
  | waiting
  deriving DecidableEq, Repr

/-- `RequestInput()` as one look at the port state, in the order of R90's cases: a pending byte wins over the halt
request. -/
def requestInput (s : State) : InputPoll :=
  if s.inValid then .byte s.inByte
  else if s.haltFlag then .haltRequested
  else .waiting

/-- "IN_VALID <- 0 -- the byte is consumed" (R90), counted in the bookkeeping of log entry 15. -/
def State.takeByte (s : State) : State := { s with inValid := false, inTaken := s.inTaken + 1 }

/-- `EmitOutput(v)`: "it appends v to OUT_SEQ ... always completes" (R91). -/
def State.emit (s : State) (v : Int) : State := { s with outSeq := s.outSeq ++ [v] }

/-- `SignalWait()`: "increments WAIT_COUNT" and "returns at once" (R93). -/
def State.signalWait (s : State) : State := { s with waitCount := s.waitCount + 1 }

/-! ### Placing an instruction for the fetch -/

/-- Put cells into the Image from an address on, those outside the Image left out. -/
def State.placeCells (s : State) : Nat → List Int → State
  | _, [] => s
  | a, v :: vs =>
    State.placeCells (if a < s.build.imageCells then s.setImg (s.img.write a v) else s) (a + 1) vs

end Sys2Proof.Machine
end

