-- ==== Sys2Proof/Machine/Operands.lean ====
section
/-! DEFINITION. The operand forms: the operand cell at `ip + 1` (30_encoding.md R47), the cells popped from the data stack
(00_scope.md R9), and the three instruction shapes the families share. Each pseudocode statement is one line, in the
order of the rule, so that the first failing test decides the fault (00_scope.md R11, 60_exceptions.md R113). -/

namespace Sys2Proof.Machine

/-- The operand cell of a format-I instruction: `MemRead(ip + 1, 1)`, used as it stands (R47). -/
def operandCell (s : State) : Except FaultKind Int := memRead s (s.ip + 1)

/-- `a <- DPop()` then `b <- DPop()`: the two operands, and the state without them (R9). -/
def popTwo (s : State) : Except FaultKind (Int × Int × State) := do
  let (a, s) ← dPop s
  let (b, s) ← dPop s
  .ok (b, a, s)

/-- A two-operand instruction: pop `a`, pop `b`, push `f b a`, `ip <- ip + 1` (43_arith_logic.md R76). -/
def binaryOp (f : Int → Int → Int) (s : State) : Except FaultKind State := do
  let (b, a, s) ← popTwo s
  let s ← dPush s (f b a)
  .ok (s.advance 1)

/-- A one-operand instruction: pop `a`, push `f a`, `ip <- ip + 1` (R86, R87). -/
def unaryOp (f : Int → Int) (s : State) : Except FaultKind State := do
  let (a, s) ← dPop s
  let s ← dPush s (f a)
  .ok (s.advance 1)

/-- A conditional jump: pop `a`, pop `b`; when the predicate holds read the operand cell and set `ip` to it, else
`ip <- ip + 2` without reading it (41_control.md R65(e), R69-R72). -/
def condJump (p : Int → Int → Bool) (s : State) : Except FaultKind State := do
  let (b, a, s) ← popTwo s
  if p b a then
    let t ← operandCell s
    .ok (s.setIp t)
  else
    .ok (s.advance 2)

/-- A return: `r <- APop()`, `ip <- r`, nothing added (41_control.md R68; C1 of 90_conflicts.md). -/
def returnOp (s : State) : Except FaultKind State := do
  let (r, s) ← aPop s
  .ok (s.setIp r)

end Sys2Proof.Machine
end

