-- ==== Sys2Proof/Machine/ArithFamily.lean ====
section
/-! DEFINITION. The arithmetic and logic instructions, opcodes 16 to 24, 26 and 27 (43_arith_logic.md R76 to R88). -/

namespace Sys2Proof.Machine

/-- ADD (R77). -/
def execAdd (s : State) : Host.Outcome State Fault Refusal := commit s (binaryOp (addCell s.build.cellBits) s)

/-- SUB (R78). -/
def execSub (s : State) : Host.Outcome State Fault Refusal := commit s (binaryOp (subCell s.build.cellBits) s)

/-- MUL (R79). -/
def execMul (s : State) : Host.Outcome State Fault Refusal := commit s (binaryOp (mulCell s.build.cellBits) s)

/-- DIVMOD: pop `a`, `b`; a zero divisor raises DivisionByZero; push the remainder, then the quotient (R80, R88). -/
def execDivmod (s : State) : Host.Outcome State Fault Refusal := commit s do
  let (b, a, s) ← popTwo s
  if a = 0 then .error .divisionByZero
  else
    let s ← dPush s (remCell b a)
    let s ← dPush s (quotCell s.build.cellBits b a)
    .ok (s.advance 1)

/-- AND (R81). -/
def execAnd (s : State) : Host.Outcome State Fault Refusal := commit s (binaryOp (andCell s.build.cellBits) s)

/-- OR (R82). -/
def execOr (s : State) : Host.Outcome State Fault Refusal := commit s (binaryOp (orCell s.build.cellBits) s)

/-- XOR (R83). -/
def execXor (s : State) : Host.Outcome State Fault Refusal := commit s (binaryOp (xorCell s.build.cellBits) s)

/-- SHL (R84). -/
def execShl (s : State) : Host.Outcome State Fault Refusal := commit s (binaryOp (shlCell s.build.cellBits) s)

/-- SHR (R85). -/
def execShr (s : State) : Host.Outcome State Fault Refusal := commit s (binaryOp (shrCell s.build.cellBits) s)

/-- INC (R86). -/
def execInc (s : State) : Host.Outcome State Fault Refusal := commit s (unaryOp (incCell s.build.cellBits) s)

/-- DEC (R87). -/
def execDec (s : State) : Host.Outcome State Fault Refusal := commit s (unaryOp (decCell s.build.cellBits) s)

end Sys2Proof.Machine
end

