-- ==== Sys2Proof/Machine/ControlFamily.lean ====
section
/-! DEFINITION. The control-transfer instructions, opcodes 7 to 13 and 25 (41_control.md R65 to R73). -/

namespace Sys2Proof.Machine

/-- CALL: push `ip + 1`, the address of its own operand cell, then `ip` is the operand; the push comes before the read
(R66; C1 of 90_conflicts.md). -/
def execCall (s : State) : Host.Outcome State Fault Refusal := commit s do
  let s ← aPush s (s.ip + 1)
  let t ← operandCell s
  .ok (s.setIp t)

/-- JUMP: `ip` is the operand, an absolute address (R67). -/
def execJump (s : State) : Host.Outcome State Fault Refusal := commit s do
  let t ← operandCell s
  .ok (s.setIp t)

/-- RETURN: `ip` is the cell popped from the address stack (R68). -/
def execRet (s : State) : Host.Outcome State Fault Refusal := commit s (returnOp s)

/-- GT_JUMP: jump when `b > a` (R69). -/
def execGtJump (s : State) : Host.Outcome State Fault Refusal := commit s (condJump condGt s)

/-- LT_JUMP: jump when `b < a` (R70). -/
def execLtJump (s : State) : Host.Outcome State Fault Refusal := commit s (condJump condLt s)

/-- NE_JUMP: jump when `b != a` (R71). -/
def execNeJump (s : State) : Host.Outcome State Fault Refusal := commit s (condJump condNe s)

/-- EQ_JUMP: jump when `b == a` (R72). -/
def execEqJump (s : State) : Host.Outcome State Fault Refusal := commit s (condJump condEq s)

/-- ZERO_EXIT: pop `a` in both cases; when it is 0 behave as RETURN, else `ip <- ip + 1` (R73, decision D31). -/
def execZeroExit (s : State) : Host.Outcome State Fault Refusal := commit s do
  let (a, s) ← dPop s
  if condZero a then returnOp s else .ok (s.advance 1)

end Sys2Proof.Machine
end

