-- ==== Sys2Proof/Machine/MemoryFamily.lean ====
section
/-! DEFINITION. The memory-access instructions, opcodes 14 and 15 (42_memory_access.md R74, R75). -/

namespace Sys2Proof.Machine

/-- FETCH: pop the address, push the cell there (R74). -/
def execFetch (s : State) : Host.Outcome State Fault Refusal := commit s do
  let (a, s) ← dPop s
  let v ← memRead s a
  let s ← dPush s v
  .ok (s.advance 1)

/-- STORE: pop the address `a`, pop the value `b`, write `b` at `a` (R75). -/
def execStore (s : State) : Host.Outcome State Fault Refusal := commit s do
  let (b, a, s) ← popTwo s
  let s ← memWrite s a b
  .ok (s.advance 1)

end Sys2Proof.Machine
end

