-- ==== Sys2Proof/Machine/PortFamily.lean ====
section
/-! DEFINITION. The port I/O instructions, opcodes 28 to 30 (44_port_io.md R89 to R94). -/

namespace Sys2Proof.Machine

/-- IN (R90), case by case: a pending byte is pushed zero-extended and consumed; with none and a halt requested the core
halts, `ip` unchanged; with neither "no state change; the instruction stays pending", which the model marks in
`inPending` (log entry 6). The interpreter hands it a state with that mark clear. -/
def execInput (s : State) : Host.Outcome State Fault Refusal :=
  match requestInput s with
  | .byte b => commit s do
      let s ← dPush s (zext8 b)
      .ok (s.takeByte.advance 1)
  | .haltRequested => .next s.halt
  | .waiting => .next (s.setPending true)

/-- OUT: pop `a`, emit it whole (R92). -/
def execOutput (s : State) : Host.Outcome State Fault Refusal := commit s do
  let (a, s) ← dPop s
  .ok ((s.emit a).advance 1)

/-- WAIT: notify the host, `ip <- ip + 1`; it never blocks (R94; C2 of 90_conflicts.md). -/
def execWait (s : State) : Host.Outcome State Fault Refusal := commit s (.ok (s.signalWait.advance 1))

end Sys2Proof.Machine
end

