-- ==== Sys2Proof/Machine/StackFamily.lean ====
section
/-! DEFINITION. The stack and literal instructions, opcodes 0 to 6 (40_stack.md R58 to R64). -/

namespace Sys2Proof.Machine

/-- NOP: `ip <- ip + 1` (R58). -/
def execNop (s : State) : Host.Outcome State Fault Refusal := commit s (.ok (s.advance 1))

/-- LIT: push the operand cell, `ip <- ip + 2`; the read comes before the push (R59). -/
def execLit (s : State) : Host.Outcome State Fault Refusal := commit s do
  let v ← operandCell s
  let s ← dPush s v
  .ok (s.advance 2)

/-- DUP: peek the top and push it (R60). -/
def execDup (s : State) : Host.Outcome State Fault Refusal := commit s do
  let a ← dTop s
  let s ← dPush s a
  .ok (s.advance 1)

/-- DROP: pop and discard (R61). -/
def execDrop (s : State) : Host.Outcome State Fault Refusal := commit s do
  let (_, s) ← dPop s
  .ok (s.advance 1)

/-- SWAP: pop `a`, `b`; push `a`, then `b` (R62). -/
def execSwap (s : State) : Host.Outcome State Fault Refusal := commit s do
  let (b, a, s) ← popTwo s
  let s ← dPush s a
  let s ← dPush s b
  .ok (s.advance 1)

/-- PUSH: move the top of the data stack to the address stack (R63). -/
def execPush (s : State) : Host.Outcome State Fault Refusal := commit s do
  let (a, s) ← dPop s
  let s ← aPush s a
  .ok (s.advance 1)

/-- POP: move the top of the address stack to the data stack (R64). -/
def execPop (s : State) : Host.Outcome State Fault Refusal := commit s do
  let (a, s) ← aPop s
  let s ← dPush s a
  .ok (s.advance 1)

end Sys2Proof.Machine
end

