-- ==== Sys2Proof/Machine/Interp.lean ====
section
/-! DEFINITION. The Interpreter: fetch, decode, dispatch (30_encoding.md R50). -/

namespace Sys2Proof.Machine

/-- Items 3 to 5 of the main step: fetch `op` at `ip`, decode it, execute its rule (R50, R51, R53). -/
def fetchExecute (s : State) : Host.Outcome State Fault Refusal :=
  match memRead s s.ip with
  | .error k => .next (s.raise k)
  | .ok op =>
    match decode op with
    | .error _ => .next (s.raise .invalidOpcode)
    | .ok i => exec i s

/-- One turn of the core. In LOAD "it executes no instruction" (70_reset_and_hazards.md R128); in RUN it is the main step
(R50): a halted core performs no step and "all state holds its value" (10_state.md R23); an IN that is pending is
re-evaluated, without the boundary check (44_port_io.md R90(a)); otherwise the halt flag is checked at the instruction
boundary before the fetch. A core that performs no step answers its state unchanged (log entry 9). -/
def coreTurn (s : State) : Host.Outcome State Fault Refusal :=
  match s.phase with
  | .load => .next s
  | .run =>
    if s.halted then .next s
    else if s.inPending then exec .input (s.setPending false)
    else if s.haltFlag then .next s.halt
    else fetchExecute s

end Sys2Proof.Machine
end

