-- ==== Sys2Proof/Machine/HostMoves.lean ====
section
/-! DEFINITION. The host's moves at the transaction level (45_interfaces.md R98 to R102, R106), reset (70_reset_and_hazards.md
R127), the construction function Boot(P) (R130, R131), and how the run ended (60_exceptions.md R118). A move whose
precondition does not hold leaves the core as it is: the loader "is ignored" in RUN and when halted, and a byte offered to
a full slot is not transferred (R98, R100; log entry 8). -/

namespace Sys2Proof.Machine

/-- The state right after reset in a given build (R127: the table names no parameter). -/
def State.resetFor (b : Build) : State := { State.reset with build := b }

/-- The Reset move: "the core takes this state, whatever its state before" (R127). The build and the host's schedule are
not the core's state and stay. -/
def State.hostReset (s : State) : State := (State.resetFor s.build).setTurns s.turns

/-- The failed-construction state: "HALTED <- 1, FAULT_KIND <- ImageTooLarge, FAULT_IP <- 0" (R131). -/
def State.failLoad (s : State) : State := { s with halted := true, faultKind := .imageTooLarge, faultIp := 0 }

/-- The loader acts "only while PHASE = LOAD and HALTED = 0" (R98). -/
def State.loading (s : State) : Bool := decide (s.phase = .load) && !s.halted

/-- Load cell: "IMG[LOAD_PTR] <- ld_data, LOAD_PTR <- LOAD_PTR + 1" (R98), or the failed load when LOAD_PTR = C (R99).
`ld_data` is W wires, so the cell stored is the W-bit one (log entry 13). -/
def State.hostLoadCell (s : State) (v : Int) : State :=
  if s.loading then
    if s.loadPtr < s.build.imageCells then
      { s with img := s.img.write s.loadPtr (wrap s.build.cellBits v), loadPtr := s.loadPtr + 1 }
    else s.failLoad
  else s

/-- Start: "PHASE <- RUN" (R98, R129). -/
def State.hostStart (s : State) : State := if s.loading then { s with phase := .run } else s

/-- Deliver a byte into the empty slot: "IN_BYTE <- in_data, IN_VALID <- 1" (R100); the byte joins IN_SEQ (R29). -/
def State.hostDeliver (s : State) (b : Byte) : State :=
  if s.inValid then s else { s with inValid := true, inByte := b, inSeq := s.inSeq ++ [b] }

/-- Request halt: "HALT_FLAG <- HALT_FLAG or halt_req", in every phase and state (R102). -/
def State.hostRequestHalt (s : State) : State := { s with haltFlag := true }

/-- The effect of a host move on the core (R106). -/
def hostMove (m : HostMove) (s : State) : State :=
  match m with
  | .reset => s.hostReset
  | .loadCell v => s.hostLoadCell v
  | .start => s.hostStart
  | .deliver b => s.hostDeliver b
  | .requestHalt => s.hostRequestHalt
  | .takeOutput => s
  | .observe => s

/-- What Take output observes: "the next cell of OUT_SEQ", the host having taken `taken` cells before (R106). -/
def nextOutput (taken : Nat) (s : State) : Option Int := s.outSeq[taken]?

/-- Moves one after another. -/
def hostMoves (ms : List HostMove) (s : State) : State := ms.foldl (fun t m => hostMove m t) s

/-- `Boot(P)` (R130): the state a freshly reset core of build `b` has when the payload `P` is loaded and the first step
begins, the host having done nothing else; "if L > C then the failed state of rule R131". -/
def boot (b : Build) (P : List Int) : State :=
  if b.imageCells < P.length then
    { State.resetFor b with
      img := Memory.ofCells 0 (P.take b.imageCells), loadPtr := b.imageCells,
      halted := true, faultKind := .imageTooLarge, faultIp := 0 }
  else
    { State.resetFor b with img := Memory.ofCells 0 P, loadPtr := P.length, phase := .run }

/-- How a run stands (45_interfaces.md R104, 60_exceptions.md R118). -/
inductive RunEnd where
  /-- `HALTED = 0`: the run is not over. -/
  | running
  /-- `HALTED = 1` and no fault: "the run ended by a halt request". -/
  | normalHalt
  /-- `HALTED = 1` and a fault recorded. -/
  | faulted (k : FaultKind) (ip : Int)
  deriving DecidableEq, Repr

/-- The end of the run as the status signals show it (R104). -/
def State.runEnd (s : State) : RunEnd :=
  if s.halted then
    match s.faultKind with
    | .none => .normalHalt
    | k => .faulted k s.faultIp
  else .running

end Sys2Proof.Machine
end

