-- ==== Sys2Proof/Machine/Signals.lean ====
section
/-! DEFINITION. The signal level (45_interfaces.md R95 to R105): what the input pins sampled at one rising clock edge do,
and what the output pins show. How many clocks anything takes is not specified (70_reset_and_hazards.md R139). -/

namespace Sys2Proof.Machine

/-- The loader pins at one edge: `ld_start` leaves LOAD, and "a cell offered in the same clock as ld_start is ignored";
else `ld_valid` offers `ld_data` (R98, R99). -/
def loaderEdge (p : Pins) (s : State) : State :=
  if p.ldStart then s.hostStart
  else if p.ldValid then s.hostLoadCell p.ldData
  else s

/-- The input pins at one edge: "in_valid = 1 and in_ready = 1" transfers the byte (R100). -/
def inputEdge (p : Pins) (s : State) : State := if p.inValid then s.hostDeliver p.inData else s

/-- The halt pin at one edge: "HALT_FLAG <- HALT_FLAG or halt_req" (R102). -/
def haltEdge (p : Pins) (s : State) : State := if p.haltReq then s.hostRequestHalt else s

/-- All input pins at one rising edge; "rst has priority over every other input" (R96). -/
def clockEdge (p : Pins) (s : State) : State :=
  if p.rst then s.hostReset else haltEdge p (inputEdge p (loaderEdge p s))

/-- `FAULT_KIND`'s code (60_exceptions.md R110, decision D18); 7 is unused. -/
def FaultKind.code : FaultKind → BitVec 3
  | .none => 0
  | .imageTooLarge => 1
  | .outOfBounds => 2
  | .stackOverflow => 3
  | .stackUnderflow => 4
  | .invalidOpcode => 5
  | .divisionByZero => 6

/-- `in_ready`: "equals not IN_VALID" (R95). -/
def State.inReady (s : State) : Bool := !s.inValid

/-- `in_wait`: "high exactly while an IN instruction is pending in its waiting case (IN_VALID = 0 and HALT_FLAG = 0, core
not halted)" (R101). -/
def State.inWait (s : State) : Bool := s.inPending && !s.inValid && !s.haltFlag && !s.halted

/-- The level outputs (R95, R101, R104). -/
structure StatusPins where
  inReady : Bool
  inWait : Bool
  halted : Bool
  faultKind : BitVec 3
  faultIp : Int
  deriving DecidableEq, Repr

/-- The level outputs in a state. -/
def State.statusPins (s : State) : StatusPins :=
  { inReady := s.inReady, inWait := s.inWait, halted := s.halted, faultKind := s.faultKind.code, faultIp := s.faultIp }

/-- `out_valid` with `out_data` over one turn from `s` to `t`: the cell the turn emitted, if it emitted one (R105). -/
def outStrobe (s t : State) : Option Int :=
  if s.outSeq.length < t.outSeq.length then t.outSeq[s.outSeq.length]? else none

/-- `wait_strobe` over one turn from `s` to `t` (R103). -/
def waitStrobe (s t : State) : Bool := decide (s.waitCount < t.waitCount)

end Sys2Proof.Machine
end

