-- ==== Sys2Proof/Machine/Step.lean ====
section
/-! DEFINITION. One step: the next turn of the schedule, the core's when none is left (45_interfaces.md R106: "a model must
allow every interleaving of host moves with core steps"; log entry 7). -/

namespace Sys2Proof.Machine

/-- One turn. A state whose build is not legal is no state of any hardware and stops (log entry 12). -/
def step (s : State) : Host.Outcome State Fault Refusal :=
  if s.build.legal then
    match s.turns with
    | [] => coreTurn s
    | .core :: ts => coreTurn (s.setTurns ts)
    | .host m :: ts => .next (hostMove m (s.setTurns ts))
    | .edge p :: ts => .next (clockEdge p (s.setTurns ts))
  else .fault .illegalBuild

/-- `s` with the instruction whose bits are `w` placed at `ip` (and its operand cell at `ip + 1`), in RUN, not halted, no
IN pending, no halt requested and no host turn before it, so that the very next step fetches and runs it (log entry 14).
The bits are cut into cells of the build's width. -/
def State.withFetchWord (s : State) (nbits w : Nat) : State :=
  { s.placeCells s.ip.toNat
      [cellOfBits s.build.cellBits 0 (w % 2 ^ nbits), cellOfBits s.build.cellBits 1 (w % 2 ^ nbits)] with
    phase := .run, halted := false, haltFlag := false, inPending := false, turns := [] }

end Sys2Proof.Machine
end

