-- ==== Sys2Proof/Safety.lean ====
section
/-! DEFINITION. The terms claims use: the invariants of the machine, and the premises on the host that spec/ names. -/

namespace Sys2Proof.Machine

/-- "The valid addresses are the integers 0 <= addr < C" (20_memory.md R32). -/
abbrev State.InImage (s : State) (addr : Int) : Prop := 0 ≤ addr ∧ addr < (s.build.imageCells : Int)

/-- Pop `n` cells one after another with the given pop: the cells in the order they came off, and the state after. -/
def popMany (pop : State → Except FaultKind (Int × State)) : Nat → State → Except FaultKind (List Int × State)
  | 0, s => .ok ([], s)
  | n + 1, s => do
    let (v, s) ← pop s
    let (vs, s) ← popMany pop n s
    .ok (v :: vs, s)

/-- Push cells one after another with the given push, the first of the list first. -/
def pushMany (push : State → Int → Except FaultKind State) : List Int → State → Except FaultKind State
  | [], s => .ok s
  | v :: vs, s => do
    let s ← push s v
    pushMany push vs s

/-- Image Memory is in its canonical form and lists only addresses of `IMG[0 .. C-1]` (20_memory.md R32). -/
abbrev State.MemoryOk (s : State) : Prop := s.img.wf ∧ ∀ p ∈ s.img, p.1 < s.build.imageCells

/-- Every cell the machine holds is a cell of `W` bits (00_scope.md R4: "Every memory cell, every stack slot, ip, and every
value on the output port is one cell"; 10_state.md R27 for FAULT_IP). -/
abbrev State.CellsFit (s : State) : Prop :=
  Fits s.build.cellBits s.ip ∧ Fits s.build.cellBits s.faultIp ∧ (∀ p ∈ s.img, Fits s.build.cellBits p.2)
    ∧ (∀ v ∈ s.dstack, Fits s.build.cellBits v) ∧ (∀ v ∈ s.astack, Fits s.build.cellBits v)
    ∧ ∀ v ∈ s.outSeq, Fits s.build.cellBits v

/-- "Invariant: size never exceeds capacity" (10_state.md R18), for both stacks. -/
abbrev State.StacksBounded (s : State) : Prop :=
  s.dstack.length ≤ s.build.dstackDepth ∧ s.astack.length ≤ s.build.astackDepth

/-- A pending IN is an IN: in RUN, not halted, with opcode 28 fetched at `ip` (44_port_io.md R90). -/
abbrev State.PendingOk (s : State) : Prop :=
  s.inPending = true → s.phase = .run ∧ s.halted = false ∧ memRead s s.ip = .ok Instr.input.opcode

/-- The loader's state (10_state.md R28, 45_interfaces.md R98): LOAD_PTR is at most C, and in LOAD no instruction has
executed and "every cell at LOAD_PTR and above is zero". -/
def State.LoaderOk (s : State) : Prop :=
  s.loadPtr ≤ s.build.imageCells ∧
    (s.phase = .load → s.ip = 0 ∧ s.dstack = [] ∧ s.astack = [] ∧ s.outSeq = [] ∧ s.waitCount = 0
      ∧ (s.halted = true ↔ s.faultKind = .imageTooLarge) ∧ ∀ a, s.loadPtr ≤ a → s.img.read a = 0)

/-- The fault record (10_state.md R26, R27, 60_exceptions.md R110, R111, R119): a recorded fault has halted the core, with
the `ip` of the fault, which the halted core still has; ImageTooLarge is recorded in LOAD alone and the other kinds in RUN
alone; with no fault FAULT_IP has its reset value. -/
abbrev State.FaultRecordOk (s : State) : Prop :=
  (s.faultKind ≠ .none → s.halted = true ∧ s.faultIp = s.ip)
    ∧ (s.faultKind = .none → s.faultIp = 0)
    ∧ (s.faultKind = .imageTooLarge → s.phase = .load)
    ∧ (s.phase = .load → s.faultKind = .none ∨ s.faultKind = .imageTooLarge)

/-- The input bookkeeping (44_port_io.md R89: "bytes are returned in the order the host delivered them, each exactly
once"): every byte delivered has been consumed or is the one in the slot. -/
abbrev State.InputOk (s : State) : Prop :=
  if s.inValid then s.inTaken + 1 = s.inSeq.length ∧ s.inSeq[s.inTaken]? = some s.inByte
  else s.inTaken = s.inSeq.length

/-- The core is about to begin an instruction: RUN, not halted, no IN pending, no halt requested (30_encoding.md R50). -/
abbrev State.AtInstruction (s : State) : Prop :=
  s.build.legal = true ∧ s.phase = .run ∧ s.halted = false ∧ s.inPending = false ∧ s.haltFlag = false

/-- The next turn is the core's: scheduled so, or the schedule is empty (log entry 7). -/
abbrev State.CoreToMove (s : State) : Prop := s.turns.head?.getD .core = .core

end Sys2Proof.Machine
end

