-- ==== Sys2Proof/Certificates/Slice0/Obligations.lean ====
section
/-! DEFINITION. The statements for the provers: what the numbered rules of spec/ say the machine and its instructions do.
A result is written as the whole next state, so it is the frame too: every field not named is unchanged. -/

open Sys2Proof Sys2Proof.Machine

/-- NOP only advances ip by 1. 40_stack.md R58. -/
def Obligations.NopAdvancesIp : Prop :=
  decode 0 = .ok .nop ∧ Instr.cells .nop = 1 ∧ ∀ s : State, exec .nop s = .next { s with ip := s.ip + 1 }

/-- LIT pushes the operand cell and advances ip by 2; OutOfBounds is tested before StackOverflow. 40_stack.md R59. -/
def Obligations.LitPushesTheOperandCell : Prop :=
  decode 1 = .ok .lit ∧ Instr.cells .lit = 2 ∧ ∀ s : State,
    (s.InImage (s.ip + 1) → s.dstack.length ≠ s.build.dstackDepth → exec .lit s =
      .next { s with dstack := s.img.read (s.ip + 1).toNat :: s.dstack, ip := s.ip + 2 }) ∧
    (¬ s.InImage (s.ip + 1) → exec .lit s =
      .next { s with halted := true, faultKind := .outOfBounds, faultIp := s.ip }) ∧
    (s.InImage (s.ip + 1) → s.dstack.length = s.build.dstackDepth → exec .lit s =
      .next { s with halted := true, faultKind := .stackOverflow, faultIp := s.ip })

/-- DUP pushes a copy of the top of the data stack. 40_stack.md R60. -/
def Obligations.DupPushesTheTop : Prop :=
  decode 2 = .ok .dup ∧ Instr.cells .dup = 1 ∧ ∀ s : State,
    (∀ a rest, s.dstack = a :: rest → s.dstack.length ≠ s.build.dstackDepth → exec .dup s =
      .next { s with dstack := a :: a :: rest, ip := s.ip + 1 }) ∧
    (s.dstack = [] → exec .dup s =
      .next { s with halted := true, faultKind := .stackUnderflow, faultIp := s.ip }) ∧
    (∀ a rest, s.dstack = a :: rest → s.dstack.length = s.build.dstackDepth → exec .dup s =
      .next { s with halted := true, faultKind := .stackOverflow, faultIp := s.ip })

/-- DROP pops the data stack and discards the cell. 40_stack.md R61. -/
def Obligations.DropDiscardsTheTop : Prop :=
  decode 3 = .ok .drop ∧ Instr.cells .drop = 1 ∧ ∀ s : State,
    (∀ a rest, s.dstack = a :: rest → exec .drop s = .next { s with dstack := rest, ip := s.ip + 1 }) ∧
    (s.dstack = [] → exec .drop s =
      .next { s with halted := true, faultKind := .stackUnderflow, faultIp := s.ip })

/-- SWAP exchanges the top two cells of the data stack. 40_stack.md R62. That the size is within the capacity is the invariant of StepKeepsStacksBounded. -/
def Obligations.SwapExchangesTheTopTwo : Prop :=
  decode 4 = .ok .swap ∧ Instr.cells .swap = 1 ∧ ∀ s : State,
    (∀ a b rest, s.dstack = a :: b :: rest → s.dstack.length ≤ s.build.dstackDepth → exec .swap s =
      .next { s with dstack := b :: a :: rest, ip := s.ip + 1 }) ∧
    (s.dstack.length < 2 → exec .swap s =
      .next { s with halted := true, faultKind := .stackUnderflow, faultIp := s.ip })

/-- PUSH moves the top of the data stack to the address stack. 40_stack.md R63. -/
def Obligations.PushMovesToTheAddressStack : Prop :=
  decode 5 = .ok .push ∧ Instr.cells .push = 1 ∧ ∀ s : State,
    (∀ a rest, s.dstack = a :: rest → s.astack.length ≠ s.build.astackDepth → exec .push s =
      .next { s with dstack := rest, astack := a :: s.astack, ip := s.ip + 1 }) ∧
    (s.dstack = [] → exec .push s =
      .next { s with halted := true, faultKind := .stackUnderflow, faultIp := s.ip }) ∧
    (∀ a rest, s.dstack = a :: rest → s.astack.length = s.build.astackDepth → exec .push s =
      .next { s with halted := true, faultKind := .stackOverflow, faultIp := s.ip })

/-- POP moves the top of the address stack to the data stack. 40_stack.md R64. -/
def Obligations.PopMovesToTheDataStack : Prop :=
  decode 6 = .ok .pop ∧ Instr.cells .pop = 1 ∧ ∀ s : State,
    (∀ a rest, s.astack = a :: rest → s.dstack.length ≠ s.build.dstackDepth → exec .pop s =
      .next { s with astack := rest, dstack := a :: s.dstack, ip := s.ip + 1 }) ∧
    (s.astack = [] → exec .pop s =
      .next { s with halted := true, faultKind := .stackUnderflow, faultIp := s.ip }) ∧
    (∀ a rest, s.astack = a :: rest → s.dstack.length = s.build.dstackDepth → exec .pop s =
      .next { s with halted := true, faultKind := .stackOverflow, faultIp := s.ip })

/-- CALL pushes ip+1 and jumps to the operand; StackOverflow is tested before OutOfBounds. 41_control.md R66 (C1 of 90_conflicts.md: the cell pushed is ip + 1, as the spec settles it). -/
def Obligations.CallSavesItsOperandAddress : Prop :=
  decode 7 = .ok .call ∧ Instr.cells .call = 2 ∧ ∀ s : State,
    (s.astack.length ≠ s.build.astackDepth → s.InImage (s.ip + 1) → exec .call s =
      .next { s with astack := (s.ip + 1) :: s.astack, ip := s.img.read (s.ip + 1).toNat }) ∧
    (s.astack.length = s.build.astackDepth → exec .call s =
      .next { s with halted := true, faultKind := .stackOverflow, faultIp := s.ip }) ∧
    (s.astack.length ≠ s.build.astackDepth → ¬ s.InImage (s.ip + 1) → exec .call s =
      .next { s with halted := true, faultKind := .outOfBounds, faultIp := s.ip })

/-- JUMP sets ip to the operand cell. 41_control.md R67. -/
def Obligations.JumpSetsIpToTheOperand : Prop :=
  decode 8 = .ok .jump ∧ Instr.cells .jump = 2 ∧ ∀ s : State,
    (s.InImage (s.ip + 1) → exec .jump s = .next { s with ip := s.img.read (s.ip + 1).toNat }) ∧
    (¬ s.InImage (s.ip + 1) → exec .jump s =
      .next { s with halted := true, faultKind := .outOfBounds, faultIp := s.ip })

/-- RETURN sets ip to exactly the cell popped from the address stack. 41_control.md R68. -/
def Obligations.ReturnSetsIpToThePoppedCell : Prop :=
  decode 9 = .ok .ret ∧ Instr.cells .ret = 1 ∧ ∀ s : State,
    (∀ r rest, s.astack = r :: rest → exec .ret s = .next { s with astack := rest, ip := r }) ∧
    (s.astack = [] → exec .ret s =
      .next { s with halted := true, faultKind := .stackUnderflow, faultIp := s.ip })

/-- GT_JUMP jumps to the operand exactly when b > a. 41_control.md R69; the signed reading and the operand read on the taken path alone are R65(e), R65(f) (the spec's decisions D13, D10). -/
def Obligations.GtJumpComparesTheTopTwo : Prop :=
  decode 10 = .ok .gtJump ∧ Instr.cells .gtJump = 2 ∧ ∀ s : State,
    (∀ a b rest, s.dstack = a :: b :: rest → b > a → s.InImage (s.ip + 1) → exec .gtJump s =
      .next { s with dstack := rest, ip := s.img.read (s.ip + 1).toNat }) ∧
    (∀ a b rest, s.dstack = a :: b :: rest → b > a → ¬ s.InImage (s.ip + 1) → exec .gtJump s =
      .next { s with halted := true, faultKind := .outOfBounds, faultIp := s.ip }) ∧
    (∀ a b rest, s.dstack = a :: b :: rest → b ≤ a → exec .gtJump s =
      .next { s with dstack := rest, ip := s.ip + 2 }) ∧
    (s.dstack.length < 2 → exec .gtJump s =
      .next { s with halted := true, faultKind := .stackUnderflow, faultIp := s.ip })

/-- LT_JUMP jumps to the operand exactly when b < a. 41_control.md R70; the signed reading and the operand read on the taken path alone are R65(e), R65(f) (the spec's decisions D13, D10). -/
def Obligations.LtJumpComparesTheTopTwo : Prop :=
  decode 11 = .ok .ltJump ∧ Instr.cells .ltJump = 2 ∧ ∀ s : State,
    (∀ a b rest, s.dstack = a :: b :: rest → b < a → s.InImage (s.ip + 1) → exec .ltJump s =
      .next { s with dstack := rest, ip := s.img.read (s.ip + 1).toNat }) ∧
    (∀ a b rest, s.dstack = a :: b :: rest → b < a → ¬ s.InImage (s.ip + 1) → exec .ltJump s =
      .next { s with halted := true, faultKind := .outOfBounds, faultIp := s.ip }) ∧
    (∀ a b rest, s.dstack = a :: b :: rest → a ≤ b → exec .ltJump s =
      .next { s with dstack := rest, ip := s.ip + 2 }) ∧
    (s.dstack.length < 2 → exec .ltJump s =
      .next { s with halted := true, faultKind := .stackUnderflow, faultIp := s.ip })

/-- NE_JUMP jumps to the operand exactly when b != a. 41_control.md R71; the signed reading and the operand read on the taken path alone are R65(e), R65(f) (the spec's decisions D13, D10). -/
def Obligations.NeJumpComparesTheTopTwo : Prop :=
  decode 12 = .ok .neJump ∧ Instr.cells .neJump = 2 ∧ ∀ s : State,
    (∀ a b rest, s.dstack = a :: b :: rest → b ≠ a → s.InImage (s.ip + 1) → exec .neJump s =
      .next { s with dstack := rest, ip := s.img.read (s.ip + 1).toNat }) ∧
    (∀ a b rest, s.dstack = a :: b :: rest → b ≠ a → ¬ s.InImage (s.ip + 1) → exec .neJump s =
      .next { s with halted := true, faultKind := .outOfBounds, faultIp := s.ip }) ∧
    (∀ a b rest, s.dstack = a :: b :: rest → b = a → exec .neJump s =
      .next { s with dstack := rest, ip := s.ip + 2 }) ∧
    (s.dstack.length < 2 → exec .neJump s =
      .next { s with halted := true, faultKind := .stackUnderflow, faultIp := s.ip })

/-- EQ_JUMP jumps to the operand exactly when b == a. 41_control.md R72; the signed reading and the operand read on the taken path alone are R65(e), R65(f) (the spec's decisions D13, D10). -/
def Obligations.EqJumpComparesTheTopTwo : Prop :=
  decode 13 = .ok .eqJump ∧ Instr.cells .eqJump = 2 ∧ ∀ s : State,
    (∀ a b rest, s.dstack = a :: b :: rest → b = a → s.InImage (s.ip + 1) → exec .eqJump s =
      .next { s with dstack := rest, ip := s.img.read (s.ip + 1).toNat }) ∧
    (∀ a b rest, s.dstack = a :: b :: rest → b = a → ¬ s.InImage (s.ip + 1) → exec .eqJump s =
      .next { s with halted := true, faultKind := .outOfBounds, faultIp := s.ip }) ∧
    (∀ a b rest, s.dstack = a :: b :: rest → b ≠ a → exec .eqJump s =
      .next { s with dstack := rest, ip := s.ip + 2 }) ∧
    (s.dstack.length < 2 → exec .eqJump s =
      .next { s with halted := true, faultKind := .stackUnderflow, faultIp := s.ip })

/-- ZERO_EXIT pops a cell and returns exactly when it is 0. 41_control.md R73. That a non-zero operand is popped too is the spec's own decision D31 (92_eei_decisions.md). -/
def Obligations.ZeroExitReturnsOnZero : Prop :=
  decode 25 = .ok .zeroExit ∧ Instr.cells .zeroExit = 1 ∧ ∀ s : State,
    (∀ rest r arest, s.dstack = 0 :: rest → s.astack = r :: arest → exec .zeroExit s =
      .next { s with dstack := rest, astack := arest, ip := r }) ∧
    (∀ rest, s.dstack = 0 :: rest → s.astack = [] → exec .zeroExit s =
      .next { s with halted := true, faultKind := .stackUnderflow, faultIp := s.ip }) ∧
    (∀ a rest, s.dstack = a :: rest → a ≠ 0 → exec .zeroExit s =
      .next { s with dstack := rest, ip := s.ip + 1 }) ∧
    (s.dstack = [] → exec .zeroExit s =
      .next { s with halted := true, faultKind := .stackUnderflow, faultIp := s.ip })

/-- FETCH replaces the address on the data stack by the cell there. 42_memory_access.md R74. That the size is within the capacity is the invariant of StepKeepsStacksBounded. -/
def Obligations.FetchReadsTheAddressedCell : Prop :=
  decode 14 = .ok .fetch ∧ Instr.cells .fetch = 1 ∧ ∀ s : State,
    (∀ a rest, s.dstack = a :: rest → s.dstack.length ≤ s.build.dstackDepth → s.InImage a → exec .fetch s =
      .next { s with dstack := s.img.read a.toNat :: rest, ip := s.ip + 1 }) ∧
    (∀ a rest, s.dstack = a :: rest → ¬ s.InImage a → exec .fetch s =
      .next { s with halted := true, faultKind := .outOfBounds, faultIp := s.ip }) ∧
    (s.dstack = [] → exec .fetch s =
      .next { s with halted := true, faultKind := .stackUnderflow, faultIp := s.ip })

/-- STORE writes the second cell at the address on top, and no other cell of the Image. 42_memory_access.md R75. The canonical form is the invariant of StepKeepsMemoryAndCells. -/
def Obligations.StoreWritesTheAddressedCell : Prop :=
  decode 15 = .ok .store ∧ Instr.cells .store = 1 ∧ ∀ s : State,
    (∀ a b rest, s.dstack = a :: b :: rest → s.InImage a → s.img.wf → ∃ m : Memory,
      exec .store s = .next { s with dstack := rest, img := m, ip := s.ip + 1 } ∧
        m.read a.toNat = b ∧ ∀ x, x ≠ a.toNat → m.read x = s.img.read x) ∧
    (∀ a b rest, s.dstack = a :: b :: rest → ¬ s.InImage a → exec .store s =
      .next { s with halted := true, faultKind := .outOfBounds, faultIp := s.ip }) ∧
    (s.dstack.length < 2 → exec .store s =
      .next { s with halted := true, faultKind := .stackUnderflow, faultIp := s.ip })

/-- ADD replaces the top two cells by wrap(b + a). 43_arith_logic.md R77; the wrap is R76(c) (the spec's decision D2), written out here from R8. Size within capacity: StepKeepsStacksBounded; W of a legal build: R4. -/
def Obligations.AddPushesTheWrappedSum : Prop :=
  decode 16 = .ok .add ∧ Instr.cells .add = 1 ∧ ∀ s : State,
    (∀ a b rest, s.dstack = a :: b :: rest → s.dstack.length ≤ s.build.dstackDepth → s.build.legal = true → ∃ v k : Int,
      exec .add s = .next { s with dstack := v :: rest, ip := s.ip + 1 } ∧
        Fits s.build.cellBits v ∧ b + a = v + k * 2 ^ s.build.cellBits) ∧
    (s.dstack.length < 2 → exec .add s =
      .next { s with halted := true, faultKind := .stackUnderflow, faultIp := s.ip })

/-- SUB replaces the top two cells by wrap(b - a). 43_arith_logic.md R78; the wrap is R76(c) (the spec's decision D2), written out here from R8. Size within capacity: StepKeepsStacksBounded; W of a legal build: R4. -/
def Obligations.SubPushesTheWrappedDifference : Prop :=
  decode 17 = .ok .sub ∧ Instr.cells .sub = 1 ∧ ∀ s : State,
    (∀ a b rest, s.dstack = a :: b :: rest → s.dstack.length ≤ s.build.dstackDepth → s.build.legal = true → ∃ v k : Int,
      exec .sub s = .next { s with dstack := v :: rest, ip := s.ip + 1 } ∧
        Fits s.build.cellBits v ∧ b - a = v + k * 2 ^ s.build.cellBits) ∧
    (s.dstack.length < 2 → exec .sub s =
      .next { s with halted := true, faultKind := .stackUnderflow, faultIp := s.ip })

/-- MUL replaces the top two cells by wrap(b * a). 43_arith_logic.md R79; the wrap is R76(c) (the spec's decision D2), written out here from R8. Size within capacity: StepKeepsStacksBounded; W of a legal build: R4. -/
def Obligations.MulPushesTheWrappedProduct : Prop :=
  decode 18 = .ok .mul ∧ Instr.cells .mul = 1 ∧ ∀ s : State,
    (∀ a b rest, s.dstack = a :: b :: rest → s.dstack.length ≤ s.build.dstackDepth → s.build.legal = true → ∃ v k : Int,
      exec .mul s = .next { s with dstack := v :: rest, ip := s.ip + 1 } ∧
        Fits s.build.cellBits v ∧ b * a = v + k * 2 ^ s.build.cellBits) ∧
    (s.dstack.length < 2 → exec .mul s =
      .next { s with halted := true, faultKind := .stackUnderflow, faultIp := s.ip })

/-- DIVMOD pushes the remainder and, on top, the quotient truncated toward zero; a zero divisor faults. 43_arith_logic.md R80 and R88; the zero-divisor fault, the sign of the remainder and MIN / -1 are the spec's own decisions D7 and D8. Size within capacity: StepKeepsStacksBounded; cells of W bits: StepKeepsMemoryAndCells. -/
def Obligations.DivmodFollowsTheDivisionLaw : Prop :=
  decode 19 = .ok .divmod ∧ Instr.cells .divmod = 1 ∧ ∀ s : State,
    (∀ a b rest, s.dstack = a :: b :: rest → s.dstack.length ≤ s.build.dstackDepth → s.build.legal = true → Fits s.build.cellBits a → Fits s.build.cellBits b → a ≠ 0 → ∃ q r : Int,
      exec .divmod s = .next { s with dstack := q :: r :: rest, ip := s.ip + 1 } ∧
        (b = minCell s.build.cellBits → a = -1 → q = minCell s.build.cellBits ∧ r = 0) ∧
        (¬ (b = minCell s.build.cellBits ∧ a = -1) → b = a * q + r ∧ r.natAbs < a.natAbs ∧ (r = 0 ∨ r.sign = b.sign))) ∧
    (∀ b rest, s.dstack = 0 :: b :: rest → exec .divmod s =
      .next { s with halted := true, faultKind := .divisionByZero, faultIp := s.ip }) ∧
    (s.dstack.length < 2 → exec .divmod s =
      .next { s with halted := true, faultKind := .stackUnderflow, faultIp := s.ip })

/-- AND, OR and XOR combine the top two cells bit by bit. 43_arith_logic.md R81, R82, R83, R76(e). Size within capacity: StepKeepsStacksBounded. -/
def Obligations.BitwiseOpsActBitByBit : Prop :=
  (decode 20 = .ok .and ∧ Instr.cells .and = 1 ∧ decode 21 = .ok .or ∧ Instr.cells .or = 1 ∧ decode 22 = .ok .xor ∧ Instr.cells .xor = 1) ∧ ∀ s : State,
    (∀ a b rest, s.dstack = a :: b :: rest → s.dstack.length ≤ s.build.dstackDepth →
      (∃ v : Int, exec .and s = .next { s with dstack := v :: rest, ip := s.ip + 1 } ∧ Fits s.build.cellBits v ∧
        ∀ i, i < s.build.cellBits → v.testBit i = (b.testBit i && a.testBit i)) ∧
      (∃ v : Int, exec .or s = .next { s with dstack := v :: rest, ip := s.ip + 1 } ∧ Fits s.build.cellBits v ∧
        ∀ i, i < s.build.cellBits → v.testBit i = (b.testBit i || a.testBit i)) ∧
      (∃ v : Int, exec .xor s = .next { s with dstack := v :: rest, ip := s.ip + 1 } ∧ Fits s.build.cellBits v ∧
        ∀ i, i < s.build.cellBits → v.testBit i = (b.testBit i ^^ a.testBit i))) ∧
    (s.dstack.length < 2 → exec .and s =
      .next { s with halted := true, faultKind := .stackUnderflow, faultIp := s.ip }) ∧
    (s.dstack.length < 2 → exec .or s =
      .next { s with halted := true, faultKind := .stackUnderflow, faultIp := s.ip }) ∧
    (s.dstack.length < 2 → exec .xor s =
      .next { s with halted := true, faultKind := .stackUnderflow, faultIp := s.ip })

/-- SHL pushes wrap(b * 2^a) for 0 <= a < W and 0 for every other amount. 43_arith_logic.md R84; the 0 for amounts outside 0..W-1 is the spec's own decision D9. Size within capacity: StepKeepsStacksBounded. -/
def Obligations.ShiftLeftDropsBitsAtTheTop : Prop :=
  decode 23 = .ok .shl ∧ Instr.cells .shl = 1 ∧ ∀ s : State,
    (∀ a b rest, s.dstack = a :: b :: rest → s.dstack.length ≤ s.build.dstackDepth → s.build.legal = true → 0 ≤ a → a < s.build.cellBits → ∃ v k : Int,
      exec .shl s = .next { s with dstack := v :: rest, ip := s.ip + 1 } ∧
        Fits s.build.cellBits v ∧ b * 2 ^ a.toNat = v + k * 2 ^ s.build.cellBits) ∧
    (∀ a b rest, s.dstack = a :: b :: rest → s.dstack.length ≤ s.build.dstackDepth → a < 0 ∨ (s.build.cellBits : Int) ≤ a → exec .shl s =
      .next { s with dstack := 0 :: rest, ip := s.ip + 1 }) ∧
    (s.dstack.length < 2 → exec .shl s =
      .next { s with halted := true, faultKind := .stackUnderflow, faultIp := s.ip })

/-- SHR shifts zeros in at the top for 0 <= a < W and pushes 0 for every other amount. 43_arith_logic.md R85 ("zeros enter at the top"); the 0 for amounts outside 0..W-1 is the spec's own decision D9. Size within capacity: StepKeepsStacksBounded; cells of W bits: StepKeepsMemoryAndCells. -/
def Obligations.ShiftRightIsLogical : Prop :=
  decode 24 = .ok .shr ∧ Instr.cells .shr = 1 ∧ ∀ s : State,
    (∀ a b rest, s.dstack = a :: b :: rest → s.dstack.length ≤ s.build.dstackDepth → s.build.legal = true → Fits s.build.cellBits b → 0 ≤ a → a < s.build.cellBits → ∃ v : Int,
      exec .shr s = .next { s with dstack := v :: rest, ip := s.ip + 1 } ∧ Fits s.build.cellBits v ∧
        ∀ i, i < s.build.cellBits → v.testBit i = (decide (i + a.toNat < s.build.cellBits) && b.testBit (i + a.toNat))) ∧
    (∀ a b rest, s.dstack = a :: b :: rest → s.dstack.length ≤ s.build.dstackDepth → a < 0 ∨ (s.build.cellBits : Int) ≤ a → exec .shr s =
      .next { s with dstack := 0 :: rest, ip := s.ip + 1 }) ∧
    (s.dstack.length < 2 → exec .shr s =
      .next { s with halted := true, faultKind := .stackUnderflow, faultIp := s.ip })

/-- INC and DEC replace the top cell by wrap(a + 1) and wrap(a - 1). 43_arith_logic.md R86, R87; the wrap is R76(c) (the spec's decision D2). Size within capacity: StepKeepsStacksBounded; cells of W bits: StepKeepsMemoryAndCells. -/
def Obligations.IncAndDecWrapAtTheEnds : Prop :=
  (decode 26 = .ok .inc ∧ Instr.cells .inc = 1 ∧ decode 27 = .ok .dec ∧ Instr.cells .dec = 1) ∧ ∀ s : State,
    (∀ a rest, s.dstack = a :: rest → s.dstack.length ≤ s.build.dstackDepth → s.build.legal = true → Fits s.build.cellBits a →
      exec .inc s = .next { s with
        dstack := (if a = maxCell s.build.cellBits then minCell s.build.cellBits else a + 1) :: rest, ip := s.ip + 1 } ∧
      exec .dec s = .next { s with
        dstack := (if a = minCell s.build.cellBits then maxCell s.build.cellBits else a - 1) :: rest, ip := s.ip + 1 }) ∧
    (s.dstack = [] → exec .inc s =
      .next { s with halted := true, faultKind := .stackUnderflow, faultIp := s.ip }) ∧
    (s.dstack = [] → exec .dec s =
      .next { s with halted := true, faultKind := .stackUnderflow, faultIp := s.ip })

/-- IN pushes a pending byte, or halts on a halt request, or waits. 44_port_io.md R90; the order of the cases and their details are the spec's own decision D15, the mark inPending is the model's (log entry 6), the count inTaken too (log entry 15). -/
def Obligations.InTakesWaitsOrHalts : Prop :=
  decode 28 = .ok .input ∧ Instr.cells .input = 1 ∧ ∀ s : State,
    (s.inValid = true → s.dstack.length ≠ s.build.dstackDepth → exec .input s =
      .next { s with dstack := (s.inByte.toNat : Int) :: s.dstack, inValid := false, inTaken := s.inTaken + 1, ip := s.ip + 1 }) ∧
    (s.inValid = true → s.dstack.length = s.build.dstackDepth → exec .input s =
      .next { s with halted := true, faultKind := .stackOverflow, faultIp := s.ip }) ∧
    (s.inValid = false → s.haltFlag = true → exec .input s = .next { s with halted := true }) ∧
    (s.inValid = false → s.haltFlag = false → exec .input s = .next { s with inPending := true })

/-- OUT pops the top cell and appends it to OUT_SEQ. 44_port_io.md R92, with OUT_SEQ as R29 and R91 give it. -/
def Obligations.OutEmitsTheWholeCell : Prop :=
  decode 29 = .ok .output ∧ Instr.cells .output = 1 ∧ ∀ s : State,
    (∀ a rest, s.dstack = a :: rest → exec .output s =
      .next { s with dstack := rest, outSeq := s.outSeq ++ [a], ip := s.ip + 1 }) ∧
    (s.dstack = [] → exec .output s =
      .next { s with halted := true, faultKind := .stackUnderflow, faultIp := s.ip })

/-- WAIT counts one notification and advances ip by 1. 44_port_io.md R94 (C2 of 90_conflicts.md: WAIT never blocks). -/
def Obligations.WaitNotifiesAndGoesOn : Prop :=
  decode 30 = .ok .wait ∧ Instr.cells .wait = 1 ∧ ∀ s : State, exec .wait s = .next { s with waitCount := s.waitCount + 1, ip := s.ip + 1 }

/-- The 31 opcode numbers decode to the 31 instructions of the table, of length 1 or 2. 30_encoding.md R49: the table's codes, mnemonics and lengths. -/
def Obligations.OpcodeMapIsTheTable : Prop :=
  ((List.range 31).map (decodeTableWord 32) =
    [some .nop, some .lit, some .dup, some .drop, some .swap, some .push, some .pop, some .call,
      some .jump, some .ret, some .gtJump, some .ltJump, some .neJump, some .eqJump, some .fetch, some .store,
      some .add, some .sub, some .mul, some .divmod, some .and, some .or, some .xor, some .shl,
      some .shr, some .zeroExit, some .inc, some .dec, some .input, some .output, some .wait]) ∧
  ((List.range 31).map fun n => (decodeTableWord 32 n).map Instr.cells) =
    [some 1, some 2, some 1, some 1, some 1, some 1, some 1, some 2, some 2, some 1, some 2, some 2,
      some 2, some 2, some 1, some 1, some 1, some 1, some 1, some 1, some 1, some 1, some 1, some 1,
      some 1, some 1, some 1, some 1, some 1, some 1, some 1]

/-- Decoding the cells of a well-formed line, followed by anything, gives the line and the rest. 30_encoding.md R46, R49, R55, R56: no bit of an instruction's cells is dropped, for all 31 instructions and every operand. -/
def Obligations.EncodedLinesDecodeBack : Prop :=
  ∀ (W : Nat) (l : Line) (rest : List Int), l.wellFormed W = true → decodeLine (encode l ++ rest) = .ok (l, rest)

/-- A cell sequence that decodes is the encoding of what it decodes to, and of no other line. 30_encoding.md R46, R48, R55. -/
def Obligations.DecodedLinesEncodeBack : Prop :=
  ∀ (cs rest : List Int) (l : Line), decodeLine cs = .ok (l, rest) →
    cs = encode l ++ rest ∧ (l.operand.isSome = true ↔ l.instr.format = .i) ∧ (encode l).length = l.instr.cells

/-- On a core turn at an instruction, step fetches at ip, decodes the cell and executes that instruction. 30_encoding.md R50 items 3 to 5. That step serves a schedule of turns and drops the one it serves is the model's (log entry 7). -/
def Obligations.StepRunsTheDecodedInstruction : Prop :=
  ∀ (s : State) (i : Instr), s.AtInstruction → s.CoreToMove → s.InImage s.ip → decode (s.img.read s.ip.toNat) = .ok i →
    step s = exec i { s with turns := s.turns.tail }

/-- A halted core performs no step, and a halt request stops the core before the fetch. 30_encoding.md R50 items 1 and 2, 60_exceptions.md R114; the check at every boundary is the spec's own decision D14, the answer of an unchanged state for a step not performed the model's (log entry 9). -/
def Obligations.HaltCheckPrecedesTheFetch : Prop :=
  ∀ s : State, s.build.legal = true → s.CoreToMove → s.phase = .run →
    (s.halted = true → step s = .next { s with turns := s.turns.tail }) ∧
    (s.halted = false → s.inPending = false → s.haltFlag = true →
      step s = .next { s with halted := true, turns := s.turns.tail })

/-- An out-of-range ip faults OutOfBounds and a cell outside 0..30 faults InvalidOpcode, with FAULT_IP = ip. 30_encoding.md R50 items 3 and 4, R53, 10_state.md R17. The fault on every illegal cell is the spec's own decision D6, the fault at the next fetch D12. -/
def Obligations.BadFetchesFault : Prop :=
  ∀ s : State, s.AtInstruction → s.CoreToMove →
    (¬ s.InImage s.ip → step s =
      .next { s with halted := true, faultKind := .outOfBounds, faultIp := s.ip, turns := s.turns.tail }) ∧
    (s.InImage s.ip → (s.img.read s.ip.toNat < 0 ∨ 30 < s.img.read s.ip.toNat) → step s =
      .next { s with halted := true, faultKind := .invalidOpcode, faultIp := s.ip, turns := s.turns.tail }) ∧
    (0 ≤ s.img.read s.ip.toNat → s.img.read s.ip.toNat ≤ 30 →
      ∃ i : Instr, decode (s.img.read s.ip.toNat) = .ok i ∧ i.opcode = s.img.read s.ip.toNat)

/-- A host turn does the scheduled move, a clock edge its pins, and a core turn in LOAD executes nothing. 45_interfaces.md R106, 70_reset_and_hazards.md R128. The schedule itself is the model's (log entry 7), and so is a step that changes nothing (log entry 9). -/
def Obligations.HostTurnsMoveOnlyTheHost : Prop :=
  ∀ s : State, s.build.legal = true →
    (∀ m ts, s.turns = .host m :: ts → step s = .next (hostMove m { s with turns := ts })) ∧
    (∀ p ts, s.turns = .edge p :: ts → step s = .next (clockEdge p { s with turns := ts })) ∧
    (s.CoreToMove → s.phase = .load → step s = .next { s with turns := s.turns.tail })

/-- In a legal build every instruction and every step answers a next state, and no step changes the build. Every fatal fault of the machine is a next state with the record written (log entry 11); the stop on an illegal build is the model's (log entry 12). -/
def Obligations.EveryStepAnswersANextState : Prop :=
  (∀ (i : Instr) (s : State), ∃ t, exec i s = .next t) ∧
    ∀ s : State, (s.build.legal = true → ∃ t, step s = .next t ∧ t.build = s.build) ∧
      (s.build.legal = false → step s = .fault .illegalBuild)

/-- MemRead and MemWrite fail with OutOfBounds outside 0..C-1; a written cell reads back and no other changes. 20_memory.md R33, R34. The canonical form is the invariant of StepKeepsMemoryAndCells. -/
def Obligations.MemReadAndMemWriteAreChecked : Prop :=
  ∀ (s : State) (addr v : Int),
    (¬ s.InImage addr → memRead s addr = .error .outOfBounds ∧ memWrite s addr v = .error .outOfBounds) ∧
    (s.InImage addr → memRead s addr = .ok (s.img.read addr.toNat)) ∧
    (s.InImage addr → s.img.wf → ∃ t, memWrite s addr v = .ok t ∧ t = { s with img := t.img } ∧
      memRead t addr = .ok v ∧ ∀ other, other ≠ addr → memRead t other = memRead s other)

/-- DPush, DPop, DTop, APush and APop as their contract gives them. 10_state.md R20, R21. -/
def Obligations.StackPrimitivesKeepTheirContract : Prop :=
  ∀ (s : State) (v : Int),
    (dPush s v = if s.dstack.length = s.build.dstackDepth then .error .stackOverflow
      else .ok { s with dstack := v :: s.dstack }) ∧
    (aPush s v = if s.astack.length = s.build.astackDepth then .error .stackOverflow
      else .ok { s with astack := v :: s.astack }) ∧
    (s.dstack = [] → dPop s = .error .stackUnderflow ∧ dTop s = .error .stackUnderflow) ∧
    (∀ rest, s.dstack = v :: rest → dPop s = .ok (v, { s with dstack := rest }) ∧ dTop s = .ok v) ∧
    (s.astack = [] → aPop s = .error .stackUnderflow) ∧
    (∀ rest, s.astack = v :: rest → aPop s = .ok (v, { s with astack := rest }))

/-- Popping as many cells as were pushed gives them back in reverse order, on both stacks. 10_state.md R18, the LIFO law. -/
def Obligations.StacksAreLifo : Prop :=
  ∀ (s : State) (vs : List Int),
    (s.dstack.length + vs.length ≤ s.build.dstackDepth → ∃ t, pushMany dPush vs s = .ok t ∧
      popMany dPop vs.length t = .ok (vs.reverse, s)) ∧
    (s.astack.length + vs.length ≤ s.build.astackDepth → ∃ t, pushMany aPush vs s = .ok t ∧
      popMany aPop vs.length t = .ok (vs.reverse, s))

/-- Whatever instruction stops the core, nothing but HALTED and the fault record has changed. 60_exceptions.md R110, R111, R112; rolling back the whole instruction is the spec's own decision D11. -/
def Obligations.FaultsArePrecise : Prop :=
  ∀ (i : Instr) (s t : State), exec i s = .next t → s.halted = false →
    (t.halted = true →
      (i = .input ∧ s.inValid = false ∧ s.haltFlag = true ∧ t = { s with halted := true }) ∨
      ∃ k, k ≠ .none ∧ k ≠ .imageTooLarge ∧ t = { s with halted := true, faultKind := k, faultIp := s.ip }) ∧
    (t.halted = false → t.faultKind = s.faultKind ∧ t.faultIp = s.faultIp)

/-- Every instruction but STORE leaves every cell of the Image; STORE changes at most the addressed one. 20_memory.md R34 ("The only instruction that writes the Image is STORE"), R35; the frame of every instruction on memory. -/
def Obligations.OnlyStoreWritesTheImage : Prop :=
  ∀ (i : Instr) (s t : State), exec i s = .next t →
    (i ≠ .store → ∀ x, t.img.read x = s.img.read x) ∧
    (i = .store → ∀ a rest, s.dstack = a :: rest → ∀ x, x ≠ a.toNat → t.img.read x = s.img.read x)

/-- Which instructions can change which stack. 10_state.md R18 ("no opcode implicitly shares state between them"), R20, R21; the frame of every instruction on the stacks. -/
def Obligations.InstructionsKeepTheOtherStack : Prop :=
  ∀ (i : Instr) (s t : State), exec i s = .next t →
    (i ∉ [Instr.push, .pop, .call, .ret, .zeroExit] → t.astack = s.astack) ∧
    (i ∈ [Instr.nop, .call, .jump, .ret, .wait] → t.dstack = s.dstack)

/-- No instruction sets the halt flag or touches the loader; only IN, OUT and WAIT act on the port. 10_state.md R22 ("no instruction sets it"), R23, R24, R28, R29; the frame of every instruction on the control and port state. -/
def Obligations.InstructionsKeepPortAndLoaderState : Prop :=
  ∀ (i : Instr) (s t : State), exec i s = .next t →
    (t.haltFlag = s.haltFlag ∧ t.phase = s.phase ∧ t.loadPtr = s.loadPtr ∧ t.inByte = s.inByte ∧ t.inSeq = s.inSeq ∧
      t.build = s.build ∧ t.turns = s.turns) ∧
    (s.halted = true → t.halted = true) ∧
    (t.outSeq = s.outSeq ∨ i = .output ∧ ∃ a rest, s.dstack = a :: rest ∧ t.outSeq = s.outSeq ++ [a]) ∧
    (t.waitCount = s.waitCount ∨ i = .wait ∧ t.waitCount = s.waitCount + 1) ∧
    (t.inValid = s.inValid ∧ t.inTaken = s.inTaken ∨
      i = .input ∧ s.inValid = true ∧ t.inValid = false ∧ t.inTaken = s.inTaken + 1)

/-- What an instruction does cannot depend on what the host will do later. 45_interfaces.md R106, R107; 95_test_vectors.md section 4, host independence of a prefix. The schedule is the model's (log entry 7). -/
def Obligations.InstructionsIgnoreTheSchedule : Prop :=
  ∀ (i : Instr) (s t : State) (ts : List Turn), exec i s = .next t →
    exec i { s with turns := ts } = .next { t with turns := ts }

/-- A run ends at the boundary check, in a waiting IN, by a fault of a step, or by a failed load. 60_exceptions.md R118 (a) to (d). -/
def Obligations.RunsEndInFourWays : Prop :=
  ∀ s t : State, step s = .next t → s.halted = false → t.halted = true →
    (s.CoreToMove ∧ s.phase = .run ∧ s.haltFlag = true ∧
      ((s.inPending = false ∧ t = { s with halted := true, turns := s.turns.tail }) ∨
       (s.inPending = true ∧ s.inValid = false ∧
        t = { s with halted := true, inPending := false, turns := s.turns.tail }))) ∨
    (s.CoreToMove ∧ s.phase = .run ∧ t.faultIp = s.ip ∧
      t.faultKind ∈ [FaultKind.outOfBounds, .stackOverflow, .stackUnderflow, .invalidOpcode, .divisionByZero]) ∨
    (¬ s.CoreToMove ∧ s.phase = .load ∧ s.build.imageCells ≤ s.loadPtr ∧
      t.faultKind = .imageTooLarge ∧ t.faultIp = 0)

/-- Only Reset leaves the halted state or changes the fault record. 10_state.md R23, 45_interfaces.md R98, R100, R102, 60_exceptions.md R115, R116. The step of a halted core is the model's (log entry 9). -/
def Obligations.HaltedUntilReset : Prop :=
  ∀ s t : State, s.halted = true → step s = .next t → s.turns.head? ≠ some (.host .reset) →
    (∀ p, s.turns.head? = some (.edge p) → p.rst = false) →
    t = { s with haltFlag := t.haltFlag, inValid := t.inValid, inByte := t.inByte, inSeq := t.inSeq, turns := s.turns.tail } ∧
    (s.CoreToMove → t = { s with turns := s.turns.tail })

/-- Reset takes every state to the table's values, and State.reset has them in the default build. 70_reset_and_hazards.md R127, 45_interfaces.md R96, 00_scope.md R4 to R6. That IN_SEQ, the count of bytes taken and the mark of a pending IN are cleared is the model's (log entries 6, 15). -/
def Obligations.ResetLeavesTheResetState : Prop :=
  (∀ s : State, hostMove .reset s =
      { build := s.build, img := [], ip := 0, dstack := [], astack := [], haltFlag := false, halted := false,
        inValid := false, inByte := (hostMove .reset s).inByte, faultKind := .none, faultIp := 0, phase := .load, loadPtr := 0, outSeq := [],
        inSeq := [], inTaken := 0, waitCount := 0, inPending := false, turns := s.turns }) ∧
    (∀ (s : State) (p : Pins), p.rst = true → clockEdge p s = hostMove .reset s) ∧
    (hostMove .reset State.reset = State.reset ∧ State.reset.turns = [] ∧
      State.reset.build = ⟨32, 50000, 1024, 1024⟩)

/-- Loading a payload cell by cell after reset and starting gives exactly Boot(P). 70_reset_and_hazards.md R128 to R131, 45_interfaces.md R98, R99, 10_state.md R30. The schedule is the model's (log entry 7). -/
def Obligations.LoadingIsBoot : Prop :=
  ∀ (b : Build) (P : List Int), b.legal = true → (∀ v ∈ P, Fits b.cellBits v) →
    Host.Core.run Sys2Proof.core (P.length + 1)
        ((State.resetFor b).setTurns (P.map (fun v => Turn.host (.loadCell v)) ++ [.host .start])) =
      .next (boot b P) ∧
    (P.length ≤ b.imageCells → (∀ i, (boot b P).img.read i = P.getD i 0) ∧ (boot b P).phase = .run ∧
      (boot b P).halted = false ∧ (boot b P).ip = 0) ∧
    (b.imageCells < P.length → (boot b P).halted = true ∧ (boot b P).faultKind = .imageTooLarge ∧
      (boot b P).faultIp = 0 ∧ (boot b P).phase = .load)

/-- One clock edge without reset is the host moves its pins stand for, one after another. 45_interfaces.md R96, R98, R100, R102. The order of the three groups within one edge is the model's and without effect on one another (log entry 16). -/
def Obligations.ClockEdgesAreHostMoves : Prop :=
  ∀ (p : Pins) (s : State), p.rst = false →
    clockEdge p s = hostMoves
      ((if p.ldStart then [.start] else if p.ldValid then [.loadCell p.ldData] else []) ++
        (if p.inValid then [.deliver p.inData] else []) ++ (if p.haltReq then [.requestHalt] else [])) s

/-- In RUN no host move but Reset reaches anything but the halt flag and the input slot. 45_interfaces.md R106 ("What the host can never do"), R107, R100, R102. -/
def Obligations.HostCannotReachTheCore : Prop :=
  ∀ (m : HostMove) (s : State), m ≠ .reset →
    (s.phase = .run → hostMove m s =
      { s with haltFlag := (hostMove m s).haltFlag, inValid := (hostMove m s).inValid, inByte := (hostMove m s).inByte,
               inSeq := (hostMove m s).inSeq }) ∧
    (s.haltFlag = true → (hostMove m s).haltFlag = true) ∧
    (s.inValid = true → (hostMove m s).inValid = true ∧ (hostMove m s).inByte = s.inByte ∧
      (hostMove m s).inSeq = s.inSeq)

/-- A CALL to a RETURN comes back to the CALL's own operand cell. 70_reset_and_hazards.md R134, 41_control.md R66, R68; C1 of 90_conflicts.md. -/
def Obligations.PlainReturnLandsOnTheOperand : Prop :=
  ∀ s : State, s.AtInstruction → s.turns = [] → s.InImage s.ip → s.InImage (s.ip + 1) →
    s.img.read s.ip.toNat = Instr.call.opcode → s.InImage (s.img.read (s.ip + 1).toNat) →
    s.img.read (s.img.read (s.ip + 1).toNat).toNat = Instr.ret.opcode → s.astack.length ≠ s.build.astackDepth →
    Host.Core.run Sys2Proof.core 2 s = .next { s with ip := s.ip + 1 }

/-- A halt request that answers a WAIT stops the core at the WAIT's address plus 1. 45_interfaces.md R103 (the host premise is in the schedule, log entry 7), 44_port_io.md R94(c). -/
def Obligations.HaltAnswersWait : Prop :=
  ∀ (s : State) (ts : List Turn), s.AtInstruction → s.turns = .core :: .host .requestHalt :: .core :: ts → s.InImage s.ip →
    s.img.read s.ip.toNat = Instr.wait.opcode →
    Host.Core.run Sys2Proof.core 3 s = .next
      { s with ip := s.ip + 1, waitCount := s.waitCount + 1, haltFlag := true, halted := true, turns := ts }

/-- A waiting IN takes a byte even if a halt is requested, and halts on a halt request alone. 44_port_io.md R90 (a), (b), R108, and the single-step facts of 95_test_vectors.md section 2; the cases are the spec's own decision D15, the mark of a pending IN the model's (log entry 6), the schedule too (log entry 7). -/
def Obligations.PendingInPrefersTheByte : Prop :=
  ∀ (s : State) (b : Byte) (ts : List Turn), s.AtInstruction → s.InImage s.ip →
    s.img.read s.ip.toNat = Instr.input.opcode → s.inValid = false →
    (s.turns = .core :: .host .requestHalt :: .core :: ts →
      Host.Core.run Sys2Proof.core 3 s = .next { s with haltFlag := true, halted := true, turns := ts }) ∧
    (s.turns = .core :: .host (.deliver b) :: .host .requestHalt :: .core :: .core :: ts →
      s.dstack.length ≠ s.build.dstackDepth →
      Host.Core.run Sys2Proof.core 5 s = .next
        { s with dstack := (b.toNat : Int) :: s.dstack, ip := s.ip + 1, inByte := b, inSeq := s.inSeq ++ [b],
                 inTaken := s.inTaken + 1, haltFlag := true, halted := true, turns := ts }) ∧
    (s.turns = .host (.deliver b) :: .host .requestHalt :: .core :: ts →
      Host.Core.run Sys2Proof.core 3 s = .next
        { s with inValid := true, inByte := b, inSeq := s.inSeq ++ [b], haltFlag := true, halted := true, turns := ts })

/-- A STORE into the next cell changes the instruction the next step executes. 20_memory.md R44, 70_reset_and_hazards.md R136 (R44 is the spec's own derivation, D26). The canonical form is the invariant of StepKeepsMemoryAndCells. -/
def Obligations.StoredCellIsFetchedNext : Prop :=
  ∀ (s : State) (i : Instr) (rest : List Int), s.AtInstruction → s.turns = [] → s.img.wf → s.InImage s.ip →
    s.InImage (s.ip + 1) → s.img.read s.ip.toNat = Instr.store.opcode → s.dstack = (s.ip + 1) :: i.opcode :: rest →
    ∃ m : Memory, m.read (s.ip + 1).toNat = i.opcode ∧
      Host.Core.run Sys2Proof.core 2 s = exec i { s with dstack := rest, img := m, ip := s.ip + 1 }

/-- Every step keeps the Image canonical and inside 0..C-1, and every cell a cell of W bits. 00_scope.md R4 ("Every memory cell, every stack slot, ip, and every value on the output port is one cell"), R5, 20_memory.md R32. The canonical form is the model's (log entry 3), and so is holding a cell as the integer it denotes (log entry 2). LOAD_PTR at most C and the pending IN are the invariants of StepKeepsLoaderAndFaultRecord and StepKeepsPendingIn. -/
def Obligations.StepKeepsMemoryAndCells : Prop :=
  ∀ s t : State, s.MemoryOk → s.CellsFit → s.LoaderOk → s.PendingOk → step s = .next t → t.MemoryOk ∧ t.CellsFit

/-- Every step keeps the size of each stack within its capacity. 10_state.md R18 ("size never exceeds capacity"). -/
def Obligations.StepKeepsStacksBounded : Prop :=
  ∀ s t : State, s.StacksBounded → step s = .next t → t.StacksBounded

/-- Every step keeps a pending IN an IN of a running core. 44_port_io.md R90, 45_interfaces.md R101, R107. The mark of a pending IN is the model's (log entry 6). -/
def Obligations.StepKeepsPendingIn : Prop :=
  ∀ s t : State, s.PendingOk → step s = .next t → t.PendingOk

/-- Every step keeps the loader's state and the fault record consistent. 10_state.md R26, R27, R28, 45_interfaces.md R98, R99, 60_exceptions.md R111, R116, R119. -/
def Obligations.StepKeepsLoaderAndFaultRecord : Prop :=
  ∀ s t : State, s.LoaderOk → s.FaultRecordOk → step s = .next t → t.LoaderOk ∧ t.FaultRecordOk

/-- Every step keeps each delivered byte either consumed, in order, or in the slot. 44_port_io.md R89, 45_interfaces.md R100. The count of bytes consumed is the model's bookkeeping (log entry 15). -/
def Obligations.StepKeepsInputOrder : Prop :=
  ∀ s t : State, s.InputOk → step s = .next t → t.InputOk

/-- The reset state of every legal build meets the invariants. 70_reset_and_hazards.md R127, 00_scope.md R4 to R6. -/
def Obligations.ResetMeetsTheInvariants : Prop :=
  Config.defaultBuild.legal = true ∧ ∀ b : Build, b.legal = true →
    (State.resetFor b).MemoryOk ∧ (State.resetFor b).CellsFit ∧
    (State.resetFor b).StacksBounded ∧ (State.resetFor b).PendingOk ∧
    (State.resetFor b).LoaderOk ∧ (State.resetFor b).FaultRecordOk ∧
    (State.resetFor b).InputOk
end

