-- ==== Sys2Proof/Laws/Cell.lean ====
section
/-! SUPPORT. The narrowings of 00_scope.md R8: `wrap` gives the one cell congruent to its argument, and every result of
the arithmetic and logic instructions is a cell of `W` bits. -/

namespace Sys2Proof

theorem two_pow_eq {W : Nat} (hW : 1 ≤ W) : 2 ^ W = 2 * 2 ^ (W - 1) := by
  obtain ⟨n, rfl⟩ : ∃ n, W = n + 1 := ⟨W - 1, by omega⟩
  simp [pow_succ, mul_comm]

/-- `wrap` gives a cell of `W` bits (R8). -/
theorem wrap_fits {W : Nat} (hW : 1 ≤ W) (x : Int) : Fits W (wrap W x) := by
  have hp := two_pow_eq hW
  have hpos : 0 < 2 ^ W := Nat.two_pow_pos W
  have h1 := Int.le_bmod (x := x) (m := 2 ^ W) hpos
  have h2 := Int.bmod_lt (x := x) (m := 2 ^ W) hpos
  unfold Fits minCell maxCell wrap
  rw [hp] at h1 h2 ⊢
  generalize 2 ^ (W - 1) = p at *
  constructor <;> omega

/-- `wrap` changes its argument by a multiple of `2^W` (R8). -/
theorem wrap_congr (W : Nat) (x : Int) : wrap W x % ((2 ^ W : Nat) : Int) = x % ((2 ^ W : Nat) : Int) :=
  Int.bmod_emod

/-- A cell of `W` bits is its own `wrap` (R8). -/
theorem wrap_of_fits {W : Nat} (hW : 1 ≤ W) {x : Int} (h : Fits W x) : wrap W x = x := by
  have hp := two_pow_eq hW
  obtain ⟨h1, h2⟩ := h
  unfold minCell at h1
  unfold maxCell at h2
  unfold wrap
  rw [hp]
  generalize 2 ^ (W - 1) = p at *
  refine Int.bmod_eq_of_le ?_ ?_ <;> omega

theorem fits_zero (W : Nat) : Fits W 0 := by
  have : 0 < 2 ^ (W - 1) := Nat.two_pow_pos _
  unfold Fits minCell maxCell
  generalize 2 ^ (W - 1) = p at *
  constructor <;> omega

/-- A bit vector's signed value is a cell. -/
theorem toInt_fits {W : Nat} (v : BitVec W) : Fits W v.toInt := by
  have h1 : -((2 ^ (W - 1) : Nat) : Int) ≤ v.toInt := by exact_mod_cast BitVec.le_toInt v
  have h2 : v.toInt < ((2 ^ (W - 1) : Nat) : Int) := by exact_mod_cast BitVec.toInt_lt (x := v)
  exact ⟨h1, Int.le_sub_one_of_lt h2⟩

/-- A zero-extended byte is a cell of any legal width (44_port_io.md R90). -/
theorem zext8_fits {W : Nat} (hW : 32 ≤ W) (b : Byte) : Fits W (zext8 b) := by
  have hb : b.toNat < 2 ^ 8 := b.isLt
  have hp : 2 ^ 8 ≤ 2 ^ (W - 1) := Nat.pow_le_pow_right (by norm_num) (by omega)
  unfold Fits minCell maxCell zext8
  generalize 2 ^ (W - 1) = p at *
  constructor <;> omega

namespace Machine

theorem addCell_fits {W : Nat} (hW : 1 ≤ W) (b a : Int) : Fits W (addCell W b a) := wrap_fits hW _
theorem subCell_fits {W : Nat} (hW : 1 ≤ W) (b a : Int) : Fits W (subCell W b a) := wrap_fits hW _
theorem mulCell_fits {W : Nat} (hW : 1 ≤ W) (b a : Int) : Fits W (mulCell W b a) := wrap_fits hW _
theorem quotCell_fits {W : Nat} (hW : 1 ≤ W) (b a : Int) : Fits W (quotCell W b a) := wrap_fits hW _
theorem andCell_fits {W : Nat} (b a : Int) : Fits W (andCell W b a) := toInt_fits _
theorem orCell_fits {W : Nat} (b a : Int) : Fits W (orCell W b a) := toInt_fits _
theorem xorCell_fits {W : Nat} (b a : Int) : Fits W (xorCell W b a) := toInt_fits _
theorem incCell_fits {W : Nat} (hW : 1 ≤ W) (a : Int) : Fits W (incCell W a) := wrap_fits hW _
theorem decCell_fits {W : Nat} (hW : 1 ≤ W) (a : Int) : Fits W (decCell W a) := wrap_fits hW _

theorem shlCell_fits {W : Nat} (hW : 1 ≤ W) (b a : Int) : Fits W (shlCell W b a) := by
  unfold shlCell
  split
  · exact wrap_fits hW _
  · exact fits_zero W

theorem shrCell_fits {W : Nat} (hW : 1 ≤ W) (b a : Int) : Fits W (shrCell W b a) := by
  unfold shrCell
  split
  · exact wrap_fits hW _
  · exact fits_zero W

/-- DIVMOD's remainder is that of the truncating division (43_arith_logic.md R88). -/
theorem remCell_eq_tmod (b a : Int) : remCell b a = Int.tmod b a := by
  have := Int.mul_tdiv_add_tmod b a
  unfold remCell
  linarith

/-- "|r| < |a|, so r always fits a cell" (43_arith_logic.md R80). -/
theorem remCell_fits {W : Nat} {b a : Int} (hb : Fits W b) : Fits W (remCell b a) := by
  rw [remCell_eq_tmod]
  obtain ⟨h1, h2⟩ := hb
  have habs : (Int.tmod b a).natAbs ≤ b.natAbs := by
    rw [Int.natAbs_tmod]
    exact Nat.mod_le _ _
  have h0 := fits_zero W
  obtain ⟨h3, h4⟩ := h0
  rcases le_total 0 b with h | h
  · have := Int.tmod_nonneg a h
    exact ⟨by omega, by omega⟩
  · have : Int.tmod b a ≤ 0 := by
      have e := Int.tmod_nonneg a (show 0 ≤ -b by omega)
      rw [Int.neg_tmod] at e
      omega
    exact ⟨by omega, by omega⟩

end Machine

end Sys2Proof
end

