-- ==== Sys2Proof/Laws/Bits.lean ====
section
/-! SUPPORT. Bits of a cell: bit i of an integer is bit i of its two's-complement representation (00_scope.md R8,
43_arith_logic.md R76(e)). -/

namespace Sys2Proof

/-- Bit `i` of an integer, arithmetically. -/
theorem int_testBit_eq (x : Int) (i : Nat) : x.testBit i = decide (x / ((2 ^ i : Nat) : Int) % 2 = 1) := by
  cases x with
  | ofNat n =>
    show Nat.testBit n i = _
    rw [Nat.testBit_eq_decide_div_mod_eq]
    congr 1
    simp only [Int.ofNat_eq_natCast]
    rw [← Int.natCast_ediv]
    apply propext
    omega
  | negSucc n =>
    show (!Nat.testBit n i) = _
    rw [Nat.testBit_eq_decide_div_mod_eq, Int.negSucc_ediv n (by positivity)]
    have e : (n : Int).ediv ((2 ^ i : Nat) : Int) = ((n / 2 ^ i : Nat) : Int) := rfl
    rw [e]
    generalize n / 2 ^ i = q
    rw [← decide_not]
    congr 1
    apply propext
    omega

/-- Bit `i` below the width of an integer's bit vector is bit `i` of the integer. -/
theorem getLsbD_ofInt {W i : Nat} (h : i < W) (x : Int) : (BitVec.ofInt W x).getLsbD i = x.testBit i := by
  rw [BitVec.getLsbD, BitVec.toNat_ofInt, int_testBit_eq, Nat.testBit_eq_decide_div_mod_eq]
  congr 1
  apply propext
  have hpos : (0 : Int) < ((2 ^ W : Nat) : Int) := by positivity
  have hnn := Int.emod_nonneg x (ne_of_gt hpos)
  obtain ⟨d, rfl⟩ : ∃ d, W = i + 1 + d := ⟨W - (i + 1), by omega⟩
  have key : x % ((2 ^ (i + 1 + d) : Nat) : Int) / ((2 ^ i : Nat) : Int) % 2 = x / ((2 ^ i : Nat) : Int) % 2 := by
    have e1 : ((2 ^ (i + 1 + d) : Nat) : Int) = ((2 ^ i : Nat) : Int) * (2 * ((2 ^ d : Nat) : Int)) := by
      push_cast; ring
    have e2 : x % ((2 ^ (i + 1 + d) : Nat) : Int)
        = x - ((2 ^ i : Nat) : Int) * (2 * (((2 ^ d : Nat) : Int) * (x / ((2 ^ (i + 1 + d) : Nat) : Int)))) := by
      rw [Int.emod_def, e1]; ring
    rw [e2, Int.sub_mul_ediv_left _ _ (by positivity)]
    omega
  rw [← key]
  obtain ⟨n, hn⟩ := Int.eq_ofNat_of_zero_le hnn
  rw [hn, Int.toNat_natCast, ← Int.natCast_ediv]
  omega

/-- Bit `i` below the width of a bit vector's signed value is bit `i` of the vector. -/
theorem testBit_toInt {W i : Nat} (h : i < W) (v : BitVec W) : v.toInt.testBit i = v.getLsbD i := by
  rw [← getLsbD_ofInt h, BitVec.ofInt_toInt]

/-- `u(b)` of a cell is its bit vector's unsigned value (R8). -/
theorem unsignedOf_eq {W : Nat} (hW : 1 ≤ W) {b : Int} (hb : Fits W b) :
    unsignedOf W b = ((BitVec.ofInt W b).toNat : Int) := by
  have hp := two_pow_eq hW
  obtain ⟨h1, h2⟩ := hb
  unfold minCell at h1
  unfold maxCell at h2
  rw [BitVec.toNat_ofInt, Int.toNat_of_nonneg (Int.emod_nonneg _ (by positivity))]
  unfold unsignedOf
  rw [hp]
  generalize 2 ^ (W - 1) = p at *
  split
  · rw [Int.emod_eq_of_lt (by omega) (by omega)]
  · rw [← Int.add_emod_right, Int.emod_eq_of_lt (by omega) (by omega)]

/-- A bit vector's signed value is the `wrap` of its unsigned value. -/
theorem wrap_toNat {W : Nat} (v : BitVec W) : wrap W (v.toNat : Int) = v.toInt := by
  rw [BitVec.toInt_eq_toNat_bmod]
  rfl

end Sys2Proof
end

