-- ==== Sys2Proof/Laws/State.lean ====
section
/-! SUPPORT. What each field is after each named update of the state, true by definition. -/

namespace Sys2Proof.Machine

variable (s : State)

@[simp] theorem State.setIp_build (v : Int) : (s.setIp v).build = s.build := rfl
@[simp] theorem State.setIp_img (v : Int) : (s.setIp v).img = s.img := rfl
@[simp] theorem State.setIp_ip (v : Int) : (s.setIp v).ip = v := rfl
@[simp] theorem State.setIp_dstack (v : Int) : (s.setIp v).dstack = s.dstack := rfl
@[simp] theorem State.setIp_astack (v : Int) : (s.setIp v).astack = s.astack := rfl
@[simp] theorem State.setIp_haltFlag (v : Int) : (s.setIp v).haltFlag = s.haltFlag := rfl
@[simp] theorem State.setIp_halted (v : Int) : (s.setIp v).halted = s.halted := rfl
@[simp] theorem State.setIp_inValid (v : Int) : (s.setIp v).inValid = s.inValid := rfl
@[simp] theorem State.setIp_inByte (v : Int) : (s.setIp v).inByte = s.inByte := rfl
@[simp] theorem State.setIp_faultKind (v : Int) : (s.setIp v).faultKind = s.faultKind := rfl
@[simp] theorem State.setIp_faultIp (v : Int) : (s.setIp v).faultIp = s.faultIp := rfl
@[simp] theorem State.setIp_phase (v : Int) : (s.setIp v).phase = s.phase := rfl
@[simp] theorem State.setIp_loadPtr (v : Int) : (s.setIp v).loadPtr = s.loadPtr := rfl
@[simp] theorem State.setIp_outSeq (v : Int) : (s.setIp v).outSeq = s.outSeq := rfl
@[simp] theorem State.setIp_inSeq (v : Int) : (s.setIp v).inSeq = s.inSeq := rfl
@[simp] theorem State.setIp_inTaken (v : Int) : (s.setIp v).inTaken = s.inTaken := rfl
@[simp] theorem State.setIp_waitCount (v : Int) : (s.setIp v).waitCount = s.waitCount := rfl
@[simp] theorem State.setIp_inPending (v : Int) : (s.setIp v).inPending = s.inPending := rfl
@[simp] theorem State.setIp_turns (v : Int) : (s.setIp v).turns = s.turns := rfl

@[simp] theorem State.advance_build (n : Int) : (s.advance n).build = s.build := rfl
@[simp] theorem State.advance_img (n : Int) : (s.advance n).img = s.img := rfl
@[simp] theorem State.advance_ip (n : Int) : (s.advance n).ip = s.ip + n := rfl
@[simp] theorem State.advance_dstack (n : Int) : (s.advance n).dstack = s.dstack := rfl
@[simp] theorem State.advance_astack (n : Int) : (s.advance n).astack = s.astack := rfl
@[simp] theorem State.advance_haltFlag (n : Int) : (s.advance n).haltFlag = s.haltFlag := rfl
@[simp] theorem State.advance_halted (n : Int) : (s.advance n).halted = s.halted := rfl
@[simp] theorem State.advance_inValid (n : Int) : (s.advance n).inValid = s.inValid := rfl
@[simp] theorem State.advance_inByte (n : Int) : (s.advance n).inByte = s.inByte := rfl
@[simp] theorem State.advance_faultKind (n : Int) : (s.advance n).faultKind = s.faultKind := rfl
@[simp] theorem State.advance_faultIp (n : Int) : (s.advance n).faultIp = s.faultIp := rfl
@[simp] theorem State.advance_phase (n : Int) : (s.advance n).phase = s.phase := rfl
@[simp] theorem State.advance_loadPtr (n : Int) : (s.advance n).loadPtr = s.loadPtr := rfl
@[simp] theorem State.advance_outSeq (n : Int) : (s.advance n).outSeq = s.outSeq := rfl
@[simp] theorem State.advance_inSeq (n : Int) : (s.advance n).inSeq = s.inSeq := rfl
@[simp] theorem State.advance_inTaken (n : Int) : (s.advance n).inTaken = s.inTaken := rfl
@[simp] theorem State.advance_waitCount (n : Int) : (s.advance n).waitCount = s.waitCount := rfl
@[simp] theorem State.advance_inPending (n : Int) : (s.advance n).inPending = s.inPending := rfl
@[simp] theorem State.advance_turns (n : Int) : (s.advance n).turns = s.turns := rfl

@[simp] theorem State.setDstack_build (d : List Int) : (s.setDstack d).build = s.build := rfl
@[simp] theorem State.setDstack_img (d : List Int) : (s.setDstack d).img = s.img := rfl
@[simp] theorem State.setDstack_ip (d : List Int) : (s.setDstack d).ip = s.ip := rfl
@[simp] theorem State.setDstack_dstack (d : List Int) : (s.setDstack d).dstack = d := rfl
@[simp] theorem State.setDstack_astack (d : List Int) : (s.setDstack d).astack = s.astack := rfl
@[simp] theorem State.setDstack_haltFlag (d : List Int) : (s.setDstack d).haltFlag = s.haltFlag := rfl
@[simp] theorem State.setDstack_halted (d : List Int) : (s.setDstack d).halted = s.halted := rfl
@[simp] theorem State.setDstack_inValid (d : List Int) : (s.setDstack d).inValid = s.inValid := rfl
@[simp] theorem State.setDstack_inByte (d : List Int) : (s.setDstack d).inByte = s.inByte := rfl
@[simp] theorem State.setDstack_faultKind (d : List Int) : (s.setDstack d).faultKind = s.faultKind := rfl
@[simp] theorem State.setDstack_faultIp (d : List Int) : (s.setDstack d).faultIp = s.faultIp := rfl
@[simp] theorem State.setDstack_phase (d : List Int) : (s.setDstack d).phase = s.phase := rfl
@[simp] theorem State.setDstack_loadPtr (d : List Int) : (s.setDstack d).loadPtr = s.loadPtr := rfl
@[simp] theorem State.setDstack_outSeq (d : List Int) : (s.setDstack d).outSeq = s.outSeq := rfl
@[simp] theorem State.setDstack_inSeq (d : List Int) : (s.setDstack d).inSeq = s.inSeq := rfl
@[simp] theorem State.setDstack_inTaken (d : List Int) : (s.setDstack d).inTaken = s.inTaken := rfl
@[simp] theorem State.setDstack_waitCount (d : List Int) : (s.setDstack d).waitCount = s.waitCount := rfl
@[simp] theorem State.setDstack_inPending (d : List Int) : (s.setDstack d).inPending = s.inPending := rfl
@[simp] theorem State.setDstack_turns (d : List Int) : (s.setDstack d).turns = s.turns := rfl

@[simp] theorem State.setAstack_build (a : List Int) : (s.setAstack a).build = s.build := rfl
@[simp] theorem State.setAstack_img (a : List Int) : (s.setAstack a).img = s.img := rfl
@[simp] theorem State.setAstack_ip (a : List Int) : (s.setAstack a).ip = s.ip := rfl
@[simp] theorem State.setAstack_dstack (a : List Int) : (s.setAstack a).dstack = s.dstack := rfl
@[simp] theorem State.setAstack_astack (a : List Int) : (s.setAstack a).astack = a := rfl
@[simp] theorem State.setAstack_haltFlag (a : List Int) : (s.setAstack a).haltFlag = s.haltFlag := rfl
@[simp] theorem State.setAstack_halted (a : List Int) : (s.setAstack a).halted = s.halted := rfl
@[simp] theorem State.setAstack_inValid (a : List Int) : (s.setAstack a).inValid = s.inValid := rfl
@[simp] theorem State.setAstack_inByte (a : List Int) : (s.setAstack a).inByte = s.inByte := rfl
@[simp] theorem State.setAstack_faultKind (a : List Int) : (s.setAstack a).faultKind = s.faultKind := rfl
@[simp] theorem State.setAstack_faultIp (a : List Int) : (s.setAstack a).faultIp = s.faultIp := rfl
@[simp] theorem State.setAstack_phase (a : List Int) : (s.setAstack a).phase = s.phase := rfl
@[simp] theorem State.setAstack_loadPtr (a : List Int) : (s.setAstack a).loadPtr = s.loadPtr := rfl
@[simp] theorem State.setAstack_outSeq (a : List Int) : (s.setAstack a).outSeq = s.outSeq := rfl
@[simp] theorem State.setAstack_inSeq (a : List Int) : (s.setAstack a).inSeq = s.inSeq := rfl
@[simp] theorem State.setAstack_inTaken (a : List Int) : (s.setAstack a).inTaken = s.inTaken := rfl
@[simp] theorem State.setAstack_waitCount (a : List Int) : (s.setAstack a).waitCount = s.waitCount := rfl
@[simp] theorem State.setAstack_inPending (a : List Int) : (s.setAstack a).inPending = s.inPending := rfl
@[simp] theorem State.setAstack_turns (a : List Int) : (s.setAstack a).turns = s.turns := rfl

@[simp] theorem State.setImg_build (m : Memory) : (s.setImg m).build = s.build := rfl
@[simp] theorem State.setImg_img (m : Memory) : (s.setImg m).img = m := rfl
@[simp] theorem State.setImg_ip (m : Memory) : (s.setImg m).ip = s.ip := rfl
@[simp] theorem State.setImg_dstack (m : Memory) : (s.setImg m).dstack = s.dstack := rfl
@[simp] theorem State.setImg_astack (m : Memory) : (s.setImg m).astack = s.astack := rfl
@[simp] theorem State.setImg_haltFlag (m : Memory) : (s.setImg m).haltFlag = s.haltFlag := rfl
@[simp] theorem State.setImg_halted (m : Memory) : (s.setImg m).halted = s.halted := rfl
@[simp] theorem State.setImg_inValid (m : Memory) : (s.setImg m).inValid = s.inValid := rfl
@[simp] theorem State.setImg_inByte (m : Memory) : (s.setImg m).inByte = s.inByte := rfl
@[simp] theorem State.setImg_faultKind (m : Memory) : (s.setImg m).faultKind = s.faultKind := rfl
@[simp] theorem State.setImg_faultIp (m : Memory) : (s.setImg m).faultIp = s.faultIp := rfl
@[simp] theorem State.setImg_phase (m : Memory) : (s.setImg m).phase = s.phase := rfl
@[simp] theorem State.setImg_loadPtr (m : Memory) : (s.setImg m).loadPtr = s.loadPtr := rfl
@[simp] theorem State.setImg_outSeq (m : Memory) : (s.setImg m).outSeq = s.outSeq := rfl
@[simp] theorem State.setImg_inSeq (m : Memory) : (s.setImg m).inSeq = s.inSeq := rfl
@[simp] theorem State.setImg_inTaken (m : Memory) : (s.setImg m).inTaken = s.inTaken := rfl
@[simp] theorem State.setImg_waitCount (m : Memory) : (s.setImg m).waitCount = s.waitCount := rfl
@[simp] theorem State.setImg_inPending (m : Memory) : (s.setImg m).inPending = s.inPending := rfl
@[simp] theorem State.setImg_turns (m : Memory) : (s.setImg m).turns = s.turns := rfl

@[simp] theorem State.setTurns_build (ts : List Turn) : (s.setTurns ts).build = s.build := rfl
@[simp] theorem State.setTurns_img (ts : List Turn) : (s.setTurns ts).img = s.img := rfl
@[simp] theorem State.setTurns_ip (ts : List Turn) : (s.setTurns ts).ip = s.ip := rfl
@[simp] theorem State.setTurns_dstack (ts : List Turn) : (s.setTurns ts).dstack = s.dstack := rfl
@[simp] theorem State.setTurns_astack (ts : List Turn) : (s.setTurns ts).astack = s.astack := rfl
@[simp] theorem State.setTurns_haltFlag (ts : List Turn) : (s.setTurns ts).haltFlag = s.haltFlag := rfl
@[simp] theorem State.setTurns_halted (ts : List Turn) : (s.setTurns ts).halted = s.halted := rfl
@[simp] theorem State.setTurns_inValid (ts : List Turn) : (s.setTurns ts).inValid = s.inValid := rfl
@[simp] theorem State.setTurns_inByte (ts : List Turn) : (s.setTurns ts).inByte = s.inByte := rfl
@[simp] theorem State.setTurns_faultKind (ts : List Turn) : (s.setTurns ts).faultKind = s.faultKind := rfl
@[simp] theorem State.setTurns_faultIp (ts : List Turn) : (s.setTurns ts).faultIp = s.faultIp := rfl
@[simp] theorem State.setTurns_phase (ts : List Turn) : (s.setTurns ts).phase = s.phase := rfl
@[simp] theorem State.setTurns_loadPtr (ts : List Turn) : (s.setTurns ts).loadPtr = s.loadPtr := rfl
@[simp] theorem State.setTurns_outSeq (ts : List Turn) : (s.setTurns ts).outSeq = s.outSeq := rfl
@[simp] theorem State.setTurns_inSeq (ts : List Turn) : (s.setTurns ts).inSeq = s.inSeq := rfl
@[simp] theorem State.setTurns_inTaken (ts : List Turn) : (s.setTurns ts).inTaken = s.inTaken := rfl
@[simp] theorem State.setTurns_waitCount (ts : List Turn) : (s.setTurns ts).waitCount = s.waitCount := rfl
@[simp] theorem State.setTurns_inPending (ts : List Turn) : (s.setTurns ts).inPending = s.inPending := rfl
@[simp] theorem State.setTurns_turns (ts : List Turn) : (s.setTurns ts).turns = ts := rfl

@[simp] theorem State.setPending_build (b : Bool) : (s.setPending b).build = s.build := rfl
@[simp] theorem State.setPending_img (b : Bool) : (s.setPending b).img = s.img := rfl
@[simp] theorem State.setPending_ip (b : Bool) : (s.setPending b).ip = s.ip := rfl
@[simp] theorem State.setPending_dstack (b : Bool) : (s.setPending b).dstack = s.dstack := rfl
@[simp] theorem State.setPending_astack (b : Bool) : (s.setPending b).astack = s.astack := rfl
@[simp] theorem State.setPending_haltFlag (b : Bool) : (s.setPending b).haltFlag = s.haltFlag := rfl
@[simp] theorem State.setPending_halted (b : Bool) : (s.setPending b).halted = s.halted := rfl
@[simp] theorem State.setPending_inValid (b : Bool) : (s.setPending b).inValid = s.inValid := rfl
@[simp] theorem State.setPending_inByte (b : Bool) : (s.setPending b).inByte = s.inByte := rfl
@[simp] theorem State.setPending_faultKind (b : Bool) : (s.setPending b).faultKind = s.faultKind := rfl
@[simp] theorem State.setPending_faultIp (b : Bool) : (s.setPending b).faultIp = s.faultIp := rfl
@[simp] theorem State.setPending_phase (b : Bool) : (s.setPending b).phase = s.phase := rfl
@[simp] theorem State.setPending_loadPtr (b : Bool) : (s.setPending b).loadPtr = s.loadPtr := rfl
@[simp] theorem State.setPending_outSeq (b : Bool) : (s.setPending b).outSeq = s.outSeq := rfl
@[simp] theorem State.setPending_inSeq (b : Bool) : (s.setPending b).inSeq = s.inSeq := rfl
@[simp] theorem State.setPending_inTaken (b : Bool) : (s.setPending b).inTaken = s.inTaken := rfl
@[simp] theorem State.setPending_waitCount (b : Bool) : (s.setPending b).waitCount = s.waitCount := rfl
@[simp] theorem State.setPending_inPending (b : Bool) : (s.setPending b).inPending = b := rfl
@[simp] theorem State.setPending_turns (b : Bool) : (s.setPending b).turns = s.turns := rfl

@[simp] theorem State.raise_build (k : FaultKind) : (s.raise k).build = s.build := rfl
@[simp] theorem State.raise_img (k : FaultKind) : (s.raise k).img = s.img := rfl
@[simp] theorem State.raise_ip (k : FaultKind) : (s.raise k).ip = s.ip := rfl
@[simp] theorem State.raise_dstack (k : FaultKind) : (s.raise k).dstack = s.dstack := rfl
@[simp] theorem State.raise_astack (k : FaultKind) : (s.raise k).astack = s.astack := rfl
@[simp] theorem State.raise_haltFlag (k : FaultKind) : (s.raise k).haltFlag = s.haltFlag := rfl
@[simp] theorem State.raise_halted (k : FaultKind) : (s.raise k).halted = true := rfl
@[simp] theorem State.raise_inValid (k : FaultKind) : (s.raise k).inValid = s.inValid := rfl
@[simp] theorem State.raise_inByte (k : FaultKind) : (s.raise k).inByte = s.inByte := rfl
@[simp] theorem State.raise_faultKind (k : FaultKind) : (s.raise k).faultKind = k := rfl
@[simp] theorem State.raise_faultIp (k : FaultKind) : (s.raise k).faultIp = s.ip := rfl
@[simp] theorem State.raise_phase (k : FaultKind) : (s.raise k).phase = s.phase := rfl
@[simp] theorem State.raise_loadPtr (k : FaultKind) : (s.raise k).loadPtr = s.loadPtr := rfl
@[simp] theorem State.raise_outSeq (k : FaultKind) : (s.raise k).outSeq = s.outSeq := rfl
@[simp] theorem State.raise_inSeq (k : FaultKind) : (s.raise k).inSeq = s.inSeq := rfl
@[simp] theorem State.raise_inTaken (k : FaultKind) : (s.raise k).inTaken = s.inTaken := rfl
@[simp] theorem State.raise_waitCount (k : FaultKind) : (s.raise k).waitCount = s.waitCount := rfl
@[simp] theorem State.raise_inPending (k : FaultKind) : (s.raise k).inPending = s.inPending := rfl
@[simp] theorem State.raise_turns (k : FaultKind) : (s.raise k).turns = s.turns := rfl

@[simp] theorem State.halt_build : s.halt.build = s.build := rfl
@[simp] theorem State.halt_img : s.halt.img = s.img := rfl
@[simp] theorem State.halt_ip : s.halt.ip = s.ip := rfl
@[simp] theorem State.halt_dstack : s.halt.dstack = s.dstack := rfl
@[simp] theorem State.halt_astack : s.halt.astack = s.astack := rfl
@[simp] theorem State.halt_haltFlag : s.halt.haltFlag = s.haltFlag := rfl
@[simp] theorem State.halt_halted : s.halt.halted = true := rfl
@[simp] theorem State.halt_inValid : s.halt.inValid = s.inValid := rfl
@[simp] theorem State.halt_inByte : s.halt.inByte = s.inByte := rfl
@[simp] theorem State.halt_faultKind : s.halt.faultKind = s.faultKind := rfl
@[simp] theorem State.halt_faultIp : s.halt.faultIp = s.faultIp := rfl
@[simp] theorem State.halt_phase : s.halt.phase = s.phase := rfl
@[simp] theorem State.halt_loadPtr : s.halt.loadPtr = s.loadPtr := rfl
@[simp] theorem State.halt_outSeq : s.halt.outSeq = s.outSeq := rfl
@[simp] theorem State.halt_inSeq : s.halt.inSeq = s.inSeq := rfl
@[simp] theorem State.halt_inTaken : s.halt.inTaken = s.inTaken := rfl
@[simp] theorem State.halt_waitCount : s.halt.waitCount = s.waitCount := rfl
@[simp] theorem State.halt_inPending : s.halt.inPending = s.inPending := rfl
@[simp] theorem State.halt_turns : s.halt.turns = s.turns := rfl

@[simp] theorem State.takeByte_build : s.takeByte.build = s.build := rfl
@[simp] theorem State.takeByte_img : s.takeByte.img = s.img := rfl
@[simp] theorem State.takeByte_ip : s.takeByte.ip = s.ip := rfl
@[simp] theorem State.takeByte_dstack : s.takeByte.dstack = s.dstack := rfl
@[simp] theorem State.takeByte_astack : s.takeByte.astack = s.astack := rfl
@[simp] theorem State.takeByte_haltFlag : s.takeByte.haltFlag = s.haltFlag := rfl
@[simp] theorem State.takeByte_halted : s.takeByte.halted = s.halted := rfl
@[simp] theorem State.takeByte_inValid : s.takeByte.inValid = false := rfl
@[simp] theorem State.takeByte_inByte : s.takeByte.inByte = s.inByte := rfl
@[simp] theorem State.takeByte_faultKind : s.takeByte.faultKind = s.faultKind := rfl
@[simp] theorem State.takeByte_faultIp : s.takeByte.faultIp = s.faultIp := rfl
@[simp] theorem State.takeByte_phase : s.takeByte.phase = s.phase := rfl
@[simp] theorem State.takeByte_loadPtr : s.takeByte.loadPtr = s.loadPtr := rfl
@[simp] theorem State.takeByte_outSeq : s.takeByte.outSeq = s.outSeq := rfl
@[simp] theorem State.takeByte_inSeq : s.takeByte.inSeq = s.inSeq := rfl
@[simp] theorem State.takeByte_inTaken : s.takeByte.inTaken = s.inTaken + 1 := rfl
@[simp] theorem State.takeByte_waitCount : s.takeByte.waitCount = s.waitCount := rfl
@[simp] theorem State.takeByte_inPending : s.takeByte.inPending = s.inPending := rfl
@[simp] theorem State.takeByte_turns : s.takeByte.turns = s.turns := rfl

@[simp] theorem State.emit_build (v : Int) : (s.emit v).build = s.build := rfl
@[simp] theorem State.emit_img (v : Int) : (s.emit v).img = s.img := rfl
@[simp] theorem State.emit_ip (v : Int) : (s.emit v).ip = s.ip := rfl
@[simp] theorem State.emit_dstack (v : Int) : (s.emit v).dstack = s.dstack := rfl
@[simp] theorem State.emit_astack (v : Int) : (s.emit v).astack = s.astack := rfl
@[simp] theorem State.emit_haltFlag (v : Int) : (s.emit v).haltFlag = s.haltFlag := rfl
@[simp] theorem State.emit_halted (v : Int) : (s.emit v).halted = s.halted := rfl
@[simp] theorem State.emit_inValid (v : Int) : (s.emit v).inValid = s.inValid := rfl
@[simp] theorem State.emit_inByte (v : Int) : (s.emit v).inByte = s.inByte := rfl
@[simp] theorem State.emit_faultKind (v : Int) : (s.emit v).faultKind = s.faultKind := rfl
@[simp] theorem State.emit_faultIp (v : Int) : (s.emit v).faultIp = s.faultIp := rfl
@[simp] theorem State.emit_phase (v : Int) : (s.emit v).phase = s.phase := rfl
@[simp] theorem State.emit_loadPtr (v : Int) : (s.emit v).loadPtr = s.loadPtr := rfl
@[simp] theorem State.emit_outSeq (v : Int) : (s.emit v).outSeq = s.outSeq ++ [v] := rfl
@[simp] theorem State.emit_inSeq (v : Int) : (s.emit v).inSeq = s.inSeq := rfl
@[simp] theorem State.emit_inTaken (v : Int) : (s.emit v).inTaken = s.inTaken := rfl
@[simp] theorem State.emit_waitCount (v : Int) : (s.emit v).waitCount = s.waitCount := rfl
@[simp] theorem State.emit_inPending (v : Int) : (s.emit v).inPending = s.inPending := rfl
@[simp] theorem State.emit_turns (v : Int) : (s.emit v).turns = s.turns := rfl

@[simp] theorem State.signalWait_build : s.signalWait.build = s.build := rfl
@[simp] theorem State.signalWait_img : s.signalWait.img = s.img := rfl
@[simp] theorem State.signalWait_ip : s.signalWait.ip = s.ip := rfl
@[simp] theorem State.signalWait_dstack : s.signalWait.dstack = s.dstack := rfl
@[simp] theorem State.signalWait_astack : s.signalWait.astack = s.astack := rfl
@[simp] theorem State.signalWait_haltFlag : s.signalWait.haltFlag = s.haltFlag := rfl
@[simp] theorem State.signalWait_halted : s.signalWait.halted = s.halted := rfl
@[simp] theorem State.signalWait_inValid : s.signalWait.inValid = s.inValid := rfl
@[simp] theorem State.signalWait_inByte : s.signalWait.inByte = s.inByte := rfl
@[simp] theorem State.signalWait_faultKind : s.signalWait.faultKind = s.faultKind := rfl
@[simp] theorem State.signalWait_faultIp : s.signalWait.faultIp = s.faultIp := rfl
@[simp] theorem State.signalWait_phase : s.signalWait.phase = s.phase := rfl
@[simp] theorem State.signalWait_loadPtr : s.signalWait.loadPtr = s.loadPtr := rfl
@[simp] theorem State.signalWait_outSeq : s.signalWait.outSeq = s.outSeq := rfl
@[simp] theorem State.signalWait_inSeq : s.signalWait.inSeq = s.inSeq := rfl
@[simp] theorem State.signalWait_inTaken : s.signalWait.inTaken = s.inTaken := rfl
@[simp] theorem State.signalWait_waitCount : s.signalWait.waitCount = s.waitCount + 1 := rfl
@[simp] theorem State.signalWait_inPending : s.signalWait.inPending = s.inPending := rfl
@[simp] theorem State.signalWait_turns : s.signalWait.turns = s.turns := rfl

end Sys2Proof.Machine
end

