-- ==== Sys2Proof/Laws/Ops.lean ====
section
/-! SUPPORT. What each shared operation answers, case by case, and what it can do when it answers: one lemma a case, and one
inversion lemma an operation. -/

namespace Sys2Proof.Machine

variable {s t : State}

@[simp] theorem ok_bind {ε α β : Type} (a : α) (f : α → Except ε β) : (Except.ok a >>= f) = f a := rfl

@[simp] theorem error_bind {ε α β : Type} (e : ε) (f : α → Except ε β) :
    ((Except.error e : Except ε α) >>= f) = Except.error e := rfl

theorem commit_ok (s t : State) : commit s (.ok t) = .next t := rfl

theorem commit_error (s : State) (k : FaultKind) : commit s (.error k) = .next (s.raise k) := rfl

/-- An instruction that ends in `commit` answers its effect, or its fault taken from the state it began in. -/
theorem commit_next {r : Except FaultKind State} (h : commit s r = .next t) :
    r = .ok t ∨ ∃ k, r = .error k ∧ t = s.raise k := by
  cases r with
  | ok u => exact .inl (by cases h; rfl)
  | error k => exact .inr ⟨k, rfl, by cases h; rfl⟩

/-- `commit` always answers a next state. -/
theorem commit_total (s : State) (r : Except FaultKind State) : ∃ t, commit s r = .next t := by
  cases r <;> exact ⟨_, rfl⟩

/-! ### Memory -/

theorem memRead_ok {addr : Int} (h0 : 0 ≤ addr) (hC : addr < (s.build.imageCells : Int)) :
    memRead s addr = .ok (s.img.read addr.toNat) := by
  unfold memRead
  rw [if_neg (by omega)]

theorem memRead_error {addr : Int} (h : addr < 0 ∨ (s.build.imageCells : Int) ≤ addr) :
    memRead s addr = .error .outOfBounds := by
  unfold memRead
  rw [if_pos h]

theorem memRead_inv {addr v : Int} (h : memRead s addr = .ok v) :
    0 ≤ addr ∧ addr < (s.build.imageCells : Int) ∧ v = s.img.read addr.toNat := by
  unfold memRead at h
  split at h
  · cases h
  · cases h; omega

theorem memRead_inv_error {addr : Int} {k : FaultKind} (h : memRead s addr = .error k) : k = .outOfBounds := by
  unfold memRead at h
  split at h <;> cases h; rfl

theorem memWrite_ok {addr v : Int} (h0 : 0 ≤ addr) (hC : addr < (s.build.imageCells : Int)) :
    memWrite s addr v = .ok (s.setImg (s.img.write addr.toNat v)) := by
  unfold memWrite
  rw [if_neg (by omega)]

theorem memWrite_error {addr v : Int} (h : addr < 0 ∨ (s.build.imageCells : Int) ≤ addr) :
    memWrite s addr v = .error .outOfBounds := by
  unfold memWrite
  rw [if_pos h]

theorem memWrite_inv {addr v : Int} (h : memWrite s addr v = .ok t) :
    0 ≤ addr ∧ addr < (s.build.imageCells : Int) ∧ t = s.setImg (s.img.write addr.toNat v) := by
  unfold memWrite at h
  split at h
  · cases h
  · cases h; exact ⟨by omega, by omega, rfl⟩

theorem memWrite_inv_error {addr v : Int} {k : FaultKind} (h : memWrite s addr v = .error k) : k = .outOfBounds := by
  unfold memWrite at h
  split at h <;> cases h; rfl

/-! ### Stacks -/

theorem dPush_ok {v : Int} (h : s.dstack.length ≠ s.build.dstackDepth) :
    dPush s v = .ok (s.setDstack (v :: s.dstack)) := by
  unfold dPush
  rw [if_neg h]

theorem dPush_full {v : Int} (h : s.dstack.length = s.build.dstackDepth) : dPush s v = .error .stackOverflow := by
  unfold dPush
  rw [if_pos h]

theorem dPush_inv {v : Int} (h : dPush s v = .ok t) :
    s.dstack.length ≠ s.build.dstackDepth ∧ t = s.setDstack (v :: s.dstack) := by
  unfold dPush at h
  split at h
  · cases h
  · next hn => cases h; exact ⟨hn, rfl⟩

theorem dPush_inv_error {v : Int} {k : FaultKind} (h : dPush s v = .error k) : k = .stackOverflow := by
  unfold dPush at h
  split at h <;> cases h; rfl

theorem dPop_nil (h : s.dstack = []) : dPop s = .error .stackUnderflow := by
  unfold dPop
  rw [h]

theorem dPop_cons {a : Int} {rest : List Int} (h : s.dstack = a :: rest) : dPop s = .ok (a, s.setDstack rest) := by
  unfold dPop
  rw [h]

theorem dPop_inv {a : Int} (h : dPop s = .ok (a, t)) : ∃ rest, s.dstack = a :: rest ∧ t = s.setDstack rest := by
  unfold dPop at h
  split at h
  · cases h
  · next b rest hs => cases h; exact ⟨rest, hs, rfl⟩

theorem dPop_inv_error {k : FaultKind} (h : dPop s = .error k) : k = .stackUnderflow := by
  unfold dPop at h
  split at h <;> cases h; rfl

theorem dTop_nil (h : s.dstack = []) : dTop s = .error .stackUnderflow := by
  unfold dTop
  rw [h]

theorem dTop_cons {a : Int} {rest : List Int} (h : s.dstack = a :: rest) : dTop s = .ok a := by
  unfold dTop
  rw [h]

theorem dTop_inv {a : Int} (h : dTop s = .ok a) : ∃ rest, s.dstack = a :: rest := by
  unfold dTop at h
  split at h
  · cases h
  · next b rest hs => cases h; exact ⟨rest, hs⟩

theorem dTop_inv_error {k : FaultKind} (h : dTop s = .error k) : k = .stackUnderflow := by
  unfold dTop at h
  split at h <;> cases h; rfl

theorem aPush_ok {v : Int} (h : s.astack.length ≠ s.build.astackDepth) :
    aPush s v = .ok (s.setAstack (v :: s.astack)) := by
  unfold aPush
  rw [if_neg h]

theorem aPush_full {v : Int} (h : s.astack.length = s.build.astackDepth) : aPush s v = .error .stackOverflow := by
  unfold aPush
  rw [if_pos h]

theorem aPush_inv {v : Int} (h : aPush s v = .ok t) :
    s.astack.length ≠ s.build.astackDepth ∧ t = s.setAstack (v :: s.astack) := by
  unfold aPush at h
  split at h
  · cases h
  · next hn => cases h; exact ⟨hn, rfl⟩

theorem aPush_inv_error {v : Int} {k : FaultKind} (h : aPush s v = .error k) : k = .stackOverflow := by
  unfold aPush at h
  split at h <;> cases h; rfl

theorem aPop_nil (h : s.astack = []) : aPop s = .error .stackUnderflow := by
  unfold aPop
  rw [h]

theorem aPop_cons {a : Int} {rest : List Int} (h : s.astack = a :: rest) : aPop s = .ok (a, s.setAstack rest) := by
  unfold aPop
  rw [h]

theorem aPop_inv {a : Int} (h : aPop s = .ok (a, t)) : ∃ rest, s.astack = a :: rest ∧ t = s.setAstack rest := by
  unfold aPop at h
  split at h
  · cases h
  · next b rest hs => cases h; exact ⟨rest, hs, rfl⟩

theorem aPop_inv_error {k : FaultKind} (h : aPop s = .error k) : k = .stackUnderflow := by
  unfold aPop at h
  split at h <;> cases h; rfl

/-! ### Operand forms and shared shapes -/

theorem popTwo_cons {a b : Int} {rest : List Int} (h : s.dstack = a :: b :: rest) :
    popTwo s = .ok (b, a, s.setDstack rest) := by
  unfold popTwo
  rw [dPop_cons h, ok_bind]
  simp only []
  rw [dPop_cons (rest := rest) (a := b) rfl]
  rfl

theorem popTwo_short (h : s.dstack.length < 2) : popTwo s = .error .stackUnderflow := by
  unfold popTwo
  match hs : s.dstack with
  | [] => rw [dPop_nil hs, error_bind]
  | [a] =>
    rw [dPop_cons hs, ok_bind]
    simp only []
    rw [dPop_nil rfl, error_bind]
  | a :: b :: rest => simp [hs] at h

theorem popTwo_inv {a b : Int} (h : popTwo s = .ok (b, a, t)) :
    ∃ rest, s.dstack = a :: b :: rest ∧ t = s.setDstack rest := by
  match hs : s.dstack with
  | [] => rw [popTwo_short (by simp [hs])] at h; cases h
  | [x] => rw [popTwo_short (by simp [hs])] at h; cases h
  | x :: y :: rest => rw [popTwo_cons hs] at h; cases h; exact ⟨rest, rfl, rfl⟩

theorem popTwo_inv_error {k : FaultKind} (h : popTwo s = .error k) : k = .stackUnderflow ∧ s.dstack.length < 2 := by
  match hs : s.dstack with
  | [] => rw [popTwo_short (by simp [hs])] at h; cases h; exact ⟨rfl, by simp⟩
  | [x] => rw [popTwo_short (by simp [hs])] at h; cases h; exact ⟨rfl, by simp⟩
  | x :: y :: rest => rw [popTwo_cons hs] at h; cases h

/-- A two-operand instruction on two cells, its stack within capacity (43_arith_logic.md R76). -/
theorem binaryOp_ok (f : Int → Int → Int) {a b : Int} {rest : List Int} (h : s.dstack = a :: b :: rest)
    (hd : s.dstack.length ≤ s.build.dstackDepth) :
    binaryOp f s = .ok ((s.setDstack (f b a :: rest)).advance 1) := by
  unfold binaryOp
  rw [popTwo_cons h, ok_bind]
  simp only []
  rw [dPush_ok (by rw [h] at hd; simp at hd ⊢; omega), ok_bind]
  rfl

theorem binaryOp_short (f : Int → Int → Int) (h : s.dstack.length < 2) : binaryOp f s = .error .stackUnderflow := by
  unfold binaryOp
  rw [popTwo_short h, error_bind]

theorem binaryOp_inv {f : Int → Int → Int} (h : binaryOp f s = .ok t) :
    ∃ a b rest, s.dstack = a :: b :: rest ∧ rest.length ≠ s.build.dstackDepth ∧
      t = (s.setDstack (f b a :: rest)).advance 1 := by
  unfold binaryOp at h
  match hp : popTwo s with
  | .error k => rw [hp, error_bind] at h; cases h
  | .ok (b, a, u) =>
    obtain ⟨rest, hs, rfl⟩ := popTwo_inv hp
    rw [hp, ok_bind] at h
    simp only [] at h
    match hq : dPush (s.setDstack rest) (f b a) with
    | .error k => rw [hq, error_bind] at h; cases h
    | .ok u =>
      obtain ⟨hn, rfl⟩ := dPush_inv hq
      rw [hq, ok_bind] at h
      cases h
      exact ⟨a, b, rest, hs, hn, rfl⟩

/-- A two-operand instruction raises StackUnderflow or, on a stack beyond its capacity alone, StackOverflow. -/
theorem binaryOp_inv_error {f : Int → Int → Int} {k : FaultKind} (h : binaryOp f s = .error k) :
    k = .stackUnderflow ∨ k = .stackOverflow := by
  unfold binaryOp at h
  match hp : popTwo s with
  | .error k' => rw [hp, error_bind] at h; cases h; exact .inl (popTwo_inv_error hp).1
  | .ok (b, a, u) =>
    rw [hp, ok_bind] at h
    simp only [] at h
    match hq : dPush u (f b a) with
    | .error k' => rw [hq, error_bind] at h; cases h; exact .inr (dPush_inv_error hq)
    | .ok w => rw [hq, ok_bind] at h; cases h

/-- A one-operand instruction on a cell, its stack within capacity (R86, R87). -/
theorem unaryOp_ok (f : Int → Int) {a : Int} {rest : List Int} (h : s.dstack = a :: rest)
    (hd : s.dstack.length ≤ s.build.dstackDepth) :
    unaryOp f s = .ok ((s.setDstack (f a :: rest)).advance 1) := by
  unfold unaryOp
  rw [dPop_cons h, ok_bind]
  simp only []
  rw [dPush_ok (by rw [h] at hd; simp at hd ⊢; omega), ok_bind]
  rfl

theorem unaryOp_nil (f : Int → Int) (h : s.dstack = []) : unaryOp f s = .error .stackUnderflow := by
  unfold unaryOp
  rw [dPop_nil h, error_bind]

theorem unaryOp_inv {f : Int → Int} (h : unaryOp f s = .ok t) :
    ∃ a rest, s.dstack = a :: rest ∧ rest.length ≠ s.build.dstackDepth ∧
      t = (s.setDstack (f a :: rest)).advance 1 := by
  unfold unaryOp at h
  match hp : dPop s with
  | .error k => rw [hp, error_bind] at h; cases h
  | .ok (a, u) =>
    obtain ⟨rest, hs, rfl⟩ := dPop_inv hp
    rw [hp, ok_bind] at h
    simp only [] at h
    match hq : dPush (s.setDstack rest) (f a) with
    | .error k => rw [hq, error_bind] at h; cases h
    | .ok u =>
      obtain ⟨hn, rfl⟩ := dPush_inv hq
      rw [hq, ok_bind] at h
      cases h
      exact ⟨a, rest, hs, hn, rfl⟩

theorem unaryOp_inv_error {f : Int → Int} {k : FaultKind} (h : unaryOp f s = .error k) :
    k = .stackUnderflow ∨ k = .stackOverflow := by
  unfold unaryOp at h
  match hp : dPop s with
  | .error k' => rw [hp, error_bind] at h; cases h; exact .inl (dPop_inv_error hp)
  | .ok (a, u) =>
    rw [hp, ok_bind] at h
    simp only [] at h
    match hq : dPush u (f a) with
    | .error k' => rw [hq, error_bind] at h; cases h; exact .inr (dPush_inv_error hq)
    | .ok w => rw [hq, ok_bind] at h; cases h

/-- A taken conditional jump (41_control.md R65, R69-R72). -/
theorem condJump_taken {p : Int → Int → Bool} {a b : Int} {rest : List Int} (h : s.dstack = a :: b :: rest)
    (hp : p b a = true) (h0 : 0 ≤ s.ip + 1) (hC : s.ip + 1 < (s.build.imageCells : Int)) :
    condJump p s = .ok ((s.setDstack rest).setIp (s.img.read (s.ip + 1).toNat)) := by
  unfold condJump
  rw [popTwo_cons h, ok_bind]
  simp only [hp, if_true]
  unfold operandCell
  rw [State.setDstack_ip, memRead_ok (s := s.setDstack rest) h0 hC, ok_bind]
  rfl

theorem condJump_taken_error {p : Int → Int → Bool} {a b : Int} {rest : List Int} (h : s.dstack = a :: b :: rest)
    (hp : p b a = true) (hC : s.ip + 1 < 0 ∨ (s.build.imageCells : Int) ≤ s.ip + 1) :
    condJump p s = .error .outOfBounds := by
  unfold condJump
  rw [popTwo_cons h, ok_bind]
  simp only [hp, if_true]
  unfold operandCell
  rw [State.setDstack_ip, memRead_error (s := s.setDstack rest) hC, error_bind]

/-- A conditional jump not taken reads no operand. -/
theorem condJump_skipped {p : Int → Int → Bool} {a b : Int} {rest : List Int} (h : s.dstack = a :: b :: rest)
    (hp : p b a = false) : condJump p s = .ok ((s.setDstack rest).advance 2) := by
  unfold condJump
  rw [popTwo_cons h, ok_bind]
  simp [hp]

theorem condJump_short (p : Int → Int → Bool) (h : s.dstack.length < 2) : condJump p s = .error .stackUnderflow := by
  unfold condJump
  rw [popTwo_short h, error_bind]

theorem condJump_inv {p : Int → Int → Bool} (h : condJump p s = .ok t) :
    ∃ a b rest, s.dstack = a :: b :: rest ∧
      ((p b a = true ∧ 0 ≤ s.ip + 1 ∧ s.ip + 1 < (s.build.imageCells : Int) ∧
          t = (s.setDstack rest).setIp (s.img.read (s.ip + 1).toNat)) ∨
        (p b a = false ∧ t = (s.setDstack rest).advance 2)) := by
  unfold condJump at h
  match hp : popTwo s with
  | .error k => rw [hp, error_bind] at h; cases h
  | .ok (b, a, u) =>
    obtain ⟨rest, hs, rfl⟩ := popTwo_inv hp
    rw [hp, ok_bind] at h
    simp only [] at h
    refine ⟨a, b, rest, hs, ?_⟩
    split at h
    · next hc =>
      unfold operandCell at h
      match hr : memRead (s.setDstack rest) ((s.setDstack rest).ip + 1) with
      | .error k => rw [hr, error_bind] at h; cases h
      | .ok v =>
        obtain ⟨h0, hC, rfl⟩ := memRead_inv hr
        rw [hr, ok_bind] at h
        cases h
        exact .inl ⟨hc, h0, hC, rfl⟩
    · next hc => cases h; exact .inr ⟨by simpa using hc, rfl⟩

theorem condJump_inv_error {p : Int → Int → Bool} {k : FaultKind} (h : condJump p s = .error k) :
    k = .stackUnderflow ∨ k = .outOfBounds := by
  unfold condJump at h
  match hp : popTwo s with
  | .error k' => rw [hp, error_bind] at h; cases h; exact .inl (popTwo_inv_error hp).1
  | .ok (b, a, u) =>
    rw [hp, ok_bind] at h
    simp only [] at h
    split at h
    · unfold operandCell at h
      match hr : memRead u (u.ip + 1) with
      | .error k' => rw [hr, error_bind] at h; cases h; exact .inr (memRead_inv_error hr)
      | .ok v => rw [hr, ok_bind] at h; cases h
    · cases h

theorem returnOp_cons {r : Int} {rest : List Int} (h : s.astack = r :: rest) :
    returnOp s = .ok ((s.setAstack rest).setIp r) := by
  unfold returnOp
  rw [aPop_cons h, ok_bind]

theorem returnOp_nil (h : s.astack = []) : returnOp s = .error .stackUnderflow := by
  unfold returnOp
  rw [aPop_nil h, error_bind]

theorem returnOp_inv (h : returnOp s = .ok t) :
    ∃ r rest, s.astack = r :: rest ∧ t = (s.setAstack rest).setIp r := by
  match hs : s.astack with
  | [] => rw [returnOp_nil hs] at h; cases h
  | r :: rest => rw [returnOp_cons hs] at h; cases h; exact ⟨r, rest, rfl, rfl⟩

theorem returnOp_inv_error {k : FaultKind} (h : returnOp s = .error k) : k = .stackUnderflow := by
  match hs : s.astack with
  | [] => rw [returnOp_nil hs] at h; cases h; rfl
  | r :: rest => rw [returnOp_cons hs] at h; cases h

end Sys2Proof.Machine
end

