-- ==== Sys2Proof/Laws/Exec.lean ====
section
/-! SUPPORT. What exec can do, said once: each instruction either completes with its own effect or takes a fault of a kind a
step can raise, from the state it began in. -/

namespace Sys2Proof.Machine

/-- The five fault kinds a step can raise (60_exceptions.md R110, R119). -/
def stepFaults : List FaultKind := [.outOfBounds, .stackOverflow, .stackUnderflow, .invalidOpcode, .divisionByZero]

/-- A two-operand instruction's effect. -/
def BinaryEffect (f : Int → Int → Int) (s t : State) : Prop :=
  ∃ a b rest, s.dstack = a :: b :: rest ∧ rest.length ≠ s.build.dstackDepth ∧
    t = (s.setDstack (f b a :: rest)).advance 1

/-- A one-operand instruction's effect. -/
def UnaryEffect (f : Int → Int) (s t : State) : Prop :=
  ∃ a rest, s.dstack = a :: rest ∧ rest.length ≠ s.build.dstackDepth ∧ t = (s.setDstack (f a :: rest)).advance 1

/-- A conditional jump's effect, taken or not. -/
def JumpEffect (p : Int → Int → Bool) (s t : State) : Prop :=
  ∃ a b rest, s.dstack = a :: b :: rest ∧
    ((p b a = true ∧ 0 ≤ s.ip + 1 ∧ s.ip + 1 < (s.build.imageCells : Int) ∧
        t = (s.setDstack rest).setIp (s.img.read (s.ip + 1).toNat)) ∨
      (p b a = false ∧ t = (s.setDstack rest).advance 2))

/-- `i` completes in `s` with the next state `t`. -/
def Completes (i : Instr) (s t : State) : Prop :=
  match i with
  | .nop => t = s.advance 1
  | .lit => 0 ≤ s.ip + 1 ∧ s.ip + 1 < (s.build.imageCells : Int) ∧ s.dstack.length ≠ s.build.dstackDepth ∧
      t = (s.setDstack (s.img.read (s.ip + 1).toNat :: s.dstack)).advance 2
  | .dup => ∃ a rest, s.dstack = a :: rest ∧ s.dstack.length ≠ s.build.dstackDepth ∧
      t = (s.setDstack (a :: a :: rest)).advance 1
  | .drop => ∃ a rest, s.dstack = a :: rest ∧ t = (s.setDstack rest).advance 1
  | .swap => ∃ a b rest, s.dstack = a :: b :: rest ∧ t = (s.setDstack (b :: a :: rest)).advance 1
  | .push => ∃ a rest, s.dstack = a :: rest ∧ s.astack.length ≠ s.build.astackDepth ∧
      t = ((s.setDstack rest).setAstack (a :: s.astack)).advance 1
  | .pop => ∃ a rest, s.astack = a :: rest ∧ s.dstack.length ≠ s.build.dstackDepth ∧
      t = ((s.setAstack rest).setDstack (a :: s.dstack)).advance 1
  | .call => s.astack.length ≠ s.build.astackDepth ∧ 0 ≤ s.ip + 1 ∧ s.ip + 1 < (s.build.imageCells : Int) ∧
      t = (s.setAstack ((s.ip + 1) :: s.astack)).setIp (s.img.read (s.ip + 1).toNat)
  | .jump => 0 ≤ s.ip + 1 ∧ s.ip + 1 < (s.build.imageCells : Int) ∧ t = s.setIp (s.img.read (s.ip + 1).toNat)
  | .ret => ∃ r rest, s.astack = r :: rest ∧ t = (s.setAstack rest).setIp r
  | .gtJump => JumpEffect condGt s t
  | .ltJump => JumpEffect condLt s t
  | .neJump => JumpEffect condNe s t
  | .eqJump => JumpEffect condEq s t
  | .fetch => ∃ a rest, s.dstack = a :: rest ∧ 0 ≤ a ∧ a < (s.build.imageCells : Int) ∧
      t = (s.setDstack (s.img.read a.toNat :: rest)).advance 1
  | .store => ∃ a b rest, s.dstack = a :: b :: rest ∧ 0 ≤ a ∧ a < (s.build.imageCells : Int) ∧
      t = ((s.setDstack rest).setImg (s.img.write a.toNat b)).advance 1
  | .add => BinaryEffect (addCell s.build.cellBits) s t
  | .sub => BinaryEffect (subCell s.build.cellBits) s t
  | .mul => BinaryEffect (mulCell s.build.cellBits) s t
  | .divmod => ∃ a b rest, s.dstack = a :: b :: rest ∧ a ≠ 0 ∧
      t = (s.setDstack (quotCell s.build.cellBits b a :: remCell b a :: rest)).advance 1
  | .and => BinaryEffect (andCell s.build.cellBits) s t
  | .or => BinaryEffect (orCell s.build.cellBits) s t
  | .xor => BinaryEffect (xorCell s.build.cellBits) s t
  | .shl => BinaryEffect (shlCell s.build.cellBits) s t
  | .shr => BinaryEffect (shrCell s.build.cellBits) s t
  | .zeroExit => ∃ a rest, s.dstack = a :: rest ∧
      ((a = 0 ∧ ∃ r arest, s.astack = r :: arest ∧ t = ((s.setDstack rest).setAstack arest).setIp r) ∨
        (a ≠ 0 ∧ t = (s.setDstack rest).advance 1))
  | .inc => UnaryEffect (incCell s.build.cellBits) s t
  | .dec => UnaryEffect (decCell s.build.cellBits) s t
  | .input =>
      (s.inValid = true ∧ s.dstack.length ≠ s.build.dstackDepth ∧
        t = ((s.setDstack (zext8 s.inByte :: s.dstack)).takeByte).advance 1) ∨
      (s.inValid = false ∧ s.haltFlag = true ∧ t = s.halt) ∨
      (s.inValid = false ∧ s.haltFlag = false ∧ t = s.setPending true)
  | .output => ∃ a rest, s.dstack = a :: rest ∧ t = ((s.setDstack rest).emit a).advance 1
  | .wait => t = s.signalWait.advance 1

variable {s t : State}

/-- An instruction that ends in `commit`: the two halves its inversion needs. -/
theorem commit_cases {r : Except FaultKind State} {P : Prop} (h : commit s r = .next t) (hok : r = .ok t → P)
    (herr : ∀ k, r = .error k → k ∈ stepFaults) : (∃ k ∈ stepFaults, t = s.raise k) ∨ P := by
  rcases commit_next h with h | ⟨k, hk, ht⟩
  · exact .inr (hok h)
  · exact .inl ⟨k, herr k hk, ht⟩

theorem underflow_mem {k : FaultKind} (h : k = .stackUnderflow) : k ∈ stepFaults := by simp [stepFaults, h]

theorem overflow_mem {k : FaultKind} (h : k = .stackOverflow) : k ∈ stepFaults := by simp [stepFaults, h]

theorem outOfBounds_mem {k : FaultKind} (h : k = .outOfBounds) : k ∈ stepFaults := by simp [stepFaults, h]

theorem binary_cases {f : Int → Int → Int} (h : commit s (binaryOp f s) = .next t) :
    (∃ k ∈ stepFaults, t = s.raise k) ∨ BinaryEffect f s t :=
  commit_cases h binaryOp_inv fun _ hk => (binaryOp_inv_error hk).elim underflow_mem overflow_mem

theorem unary_cases {f : Int → Int} (h : commit s (unaryOp f s) = .next t) :
    (∃ k ∈ stepFaults, t = s.raise k) ∨ UnaryEffect f s t :=
  commit_cases h unaryOp_inv fun _ hk => (unaryOp_inv_error hk).elim underflow_mem overflow_mem

theorem jump_cases {p : Int → Int → Bool} (h : commit s (condJump p s) = .next t) :
    (∃ k ∈ stepFaults, t = s.raise k) ∨ JumpEffect p s t :=
  commit_cases h condJump_inv fun _ hk => (condJump_inv_error hk).elim underflow_mem outOfBounds_mem

/-- What exec can do: fault, from the state the instruction began in, or complete. -/
theorem exec_cases {i : Instr} (h : exec i s = .next t) :
    (∃ k ∈ stepFaults, t = s.raise k) ∨ Completes i s t := by
  cases i
  case nop => cases h; exact .inr rfl
  case lit =>
    refine commit_cases h (fun he => ?_) fun k he => ?_
    · match hr : operandCell s with
      | .error k => rw [hr, error_bind] at he; cases he
      | .ok v =>
        obtain ⟨h0, hC, rfl⟩ := memRead_inv hr
        rw [hr, ok_bind] at he
        match hp : dPush s (s.img.read (s.ip + 1).toNat) with
        | .error k => rw [hp, error_bind] at he; cases he
        | .ok u =>
          obtain ⟨hn, rfl⟩ := dPush_inv hp
          rw [hp, ok_bind] at he
          cases he
          exact ⟨h0, hC, hn, rfl⟩
    · match hr : operandCell s with
      | .error k' => rw [hr, error_bind] at he; cases he; exact outOfBounds_mem (memRead_inv_error hr)
      | .ok v =>
        rw [hr, ok_bind] at he
        match hp : dPush s v with
        | .error k' => rw [hp, error_bind] at he; cases he; exact overflow_mem (dPush_inv_error hp)
        | .ok u => rw [hp, ok_bind] at he; cases he
  case dup =>
    refine commit_cases h (fun he => ?_) fun k he => ?_
    · match hr : dTop s with
      | .error k => rw [hr, error_bind] at he; cases he
      | .ok a =>
        obtain ⟨rest, hs⟩ := dTop_inv hr
        rw [hr, ok_bind] at he
        match hp : dPush s a with
        | .error k => rw [hp, error_bind] at he; cases he
        | .ok u =>
          obtain ⟨hn, rfl⟩ := dPush_inv hp
          rw [hp, ok_bind] at he
          cases he
          exact ⟨a, rest, hs, hn, by rw [hs]⟩
    · match hr : dTop s with
      | .error k' => rw [hr, error_bind] at he; cases he; exact underflow_mem (dTop_inv_error hr)
      | .ok a =>
        rw [hr, ok_bind] at he
        match hp : dPush s a with
        | .error k' => rw [hp, error_bind] at he; cases he; exact overflow_mem (dPush_inv_error hp)
        | .ok u => rw [hp, ok_bind] at he; cases he
  case drop =>
    refine commit_cases h (fun he => ?_) fun k he => ?_
    · match hr : dPop s with
      | .error k => rw [hr, error_bind] at he; cases he
      | .ok (a, u) =>
        obtain ⟨rest, hs, rfl⟩ := dPop_inv hr
        rw [hr, ok_bind] at he
        cases he
        exact ⟨a, rest, hs, rfl⟩
    · match hr : dPop s with
      | .error k' => rw [hr, error_bind] at he; cases he; exact underflow_mem (dPop_inv_error hr)
      | .ok (a, u) => rw [hr, ok_bind] at he; cases he
  case swap =>
    refine commit_cases h (fun he => ?_) fun k he => ?_
    · match hr : popTwo s with
      | .error k => rw [hr, error_bind] at he; cases he
      | .ok (b, a, u) =>
        obtain ⟨rest, hs, rfl⟩ := popTwo_inv hr
        rw [hr, ok_bind] at he
        simp only [] at he
        match hp : dPush (s.setDstack rest) a with
        | .error k => rw [hp, error_bind] at he; cases he
        | .ok u =>
          obtain ⟨_, rfl⟩ := dPush_inv hp
          rw [hp, ok_bind] at he
          match hq : dPush ((s.setDstack rest).setDstack (a :: (s.setDstack rest).dstack)) b with
          | .error k => rw [hq, error_bind] at he; cases he
          | .ok w =>
            obtain ⟨_, rfl⟩ := dPush_inv hq
            rw [hq, ok_bind] at he
            cases he
            exact ⟨a, b, rest, hs, rfl⟩
    · match hr : popTwo s with
      | .error k' => rw [hr, error_bind] at he; cases he; exact underflow_mem (popTwo_inv_error hr).1
      | .ok (b, a, u) =>
        rw [hr, ok_bind] at he
        simp only [] at he
        match hp : dPush u a with
        | .error k' => rw [hp, error_bind] at he; cases he; exact overflow_mem (dPush_inv_error hp)
        | .ok w =>
          rw [hp, ok_bind] at he
          match hq : dPush w b with
          | .error k' => rw [hq, error_bind] at he; cases he; exact overflow_mem (dPush_inv_error hq)
          | .ok x => rw [hq, ok_bind] at he; cases he
  case push =>
    refine commit_cases h (fun he => ?_) fun k he => ?_
    · match hr : dPop s with
      | .error k => rw [hr, error_bind] at he; cases he
      | .ok (a, u) =>
        obtain ⟨rest, hs, rfl⟩ := dPop_inv hr
        rw [hr, ok_bind] at he
        simp only [] at he
        match hp : aPush (s.setDstack rest) a with
        | .error k => rw [hp, error_bind] at he; cases he
        | .ok u =>
          obtain ⟨hn, rfl⟩ := aPush_inv hp
          rw [hp, ok_bind] at he
          cases he
          exact ⟨a, rest, hs, hn, rfl⟩
    · match hr : dPop s with
      | .error k' => rw [hr, error_bind] at he; cases he; exact underflow_mem (dPop_inv_error hr)
      | .ok (a, u) =>
        rw [hr, ok_bind] at he
        simp only [] at he
        match hp : aPush u a with
        | .error k' => rw [hp, error_bind] at he; cases he; exact overflow_mem (aPush_inv_error hp)
        | .ok w => rw [hp, ok_bind] at he; cases he
  case pop =>
    refine commit_cases h (fun he => ?_) fun k he => ?_
    · match hr : aPop s with
      | .error k => rw [hr, error_bind] at he; cases he
      | .ok (a, u) =>
        obtain ⟨rest, hs, rfl⟩ := aPop_inv hr
        rw [hr, ok_bind] at he
        simp only [] at he
        match hp : dPush (s.setAstack rest) a with
        | .error k => rw [hp, error_bind] at he; cases he
        | .ok u =>
          obtain ⟨hn, rfl⟩ := dPush_inv hp
          rw [hp, ok_bind] at he
          cases he
          exact ⟨a, rest, hs, hn, rfl⟩
    · match hr : aPop s with
      | .error k' => rw [hr, error_bind] at he; cases he; exact underflow_mem (aPop_inv_error hr)
      | .ok (a, u) =>
        rw [hr, ok_bind] at he
        simp only [] at he
        match hp : dPush u a with
        | .error k' => rw [hp, error_bind] at he; cases he; exact overflow_mem (dPush_inv_error hp)
        | .ok w => rw [hp, ok_bind] at he; cases he
  case call =>
    refine commit_cases h (fun he => ?_) fun k he => ?_
    · match hr : aPush s (s.ip + 1) with
      | .error k => rw [hr, error_bind] at he; cases he
      | .ok u =>
        obtain ⟨hn, rfl⟩ := aPush_inv hr
        rw [hr, ok_bind] at he
        match hp : operandCell (s.setAstack ((s.ip + 1) :: s.astack)) with
        | .error k => rw [hp, error_bind] at he; cases he
        | .ok v =>
          obtain ⟨h0, hC, rfl⟩ := memRead_inv hp
          rw [hp, ok_bind] at he
          cases he
          exact ⟨hn, h0, hC, rfl⟩
    · match hr : aPush s (s.ip + 1) with
      | .error k' => rw [hr, error_bind] at he; cases he; exact overflow_mem (aPush_inv_error hr)
      | .ok u =>
        rw [hr, ok_bind] at he
        match hp : operandCell u with
        | .error k' => rw [hp, error_bind] at he; cases he; exact outOfBounds_mem (memRead_inv_error hp)
        | .ok v => rw [hp, ok_bind] at he; cases he
  case jump =>
    refine commit_cases h (fun he => ?_) fun k he => ?_
    · match hp : operandCell s with
      | .error k => rw [hp, error_bind] at he; cases he
      | .ok v =>
        obtain ⟨h0, hC, rfl⟩ := memRead_inv hp
        rw [hp, ok_bind] at he
        cases he
        exact ⟨h0, hC, rfl⟩
    · match hp : operandCell s with
      | .error k' => rw [hp, error_bind] at he; cases he; exact outOfBounds_mem (memRead_inv_error hp)
      | .ok v => rw [hp, ok_bind] at he; cases he
  case ret => exact commit_cases h returnOp_inv fun _ hk => underflow_mem (returnOp_inv_error hk)
  case gtJump => exact jump_cases h
  case ltJump => exact jump_cases h
  case neJump => exact jump_cases h
  case eqJump => exact jump_cases h
  case fetch =>
    refine commit_cases h (fun he => ?_) fun k he => ?_
    · match hr : dPop s with
      | .error k => rw [hr, error_bind] at he; cases he
      | .ok (a, u) =>
        obtain ⟨rest, hs, rfl⟩ := dPop_inv hr
        rw [hr, ok_bind] at he
        simp only [] at he
        match hm : memRead (s.setDstack rest) a with
        | .error k => rw [hm, error_bind] at he; cases he
        | .ok v =>
          obtain ⟨h0, hC, rfl⟩ := memRead_inv hm
          rw [hm, ok_bind] at he
          match hp : dPush (s.setDstack rest) ((s.setDstack rest).img.read a.toNat) with
          | .error k => rw [hp, error_bind] at he; cases he
          | .ok w =>
            obtain ⟨_, rfl⟩ := dPush_inv hp
            rw [hp, ok_bind] at he
            cases he
            exact ⟨a, rest, hs, h0, hC, rfl⟩
    · match hr : dPop s with
      | .error k' => rw [hr, error_bind] at he; cases he; exact underflow_mem (dPop_inv_error hr)
      | .ok (a, u) =>
        rw [hr, ok_bind] at he
        simp only [] at he
        match hm : memRead u a with
        | .error k' => rw [hm, error_bind] at he; cases he; exact outOfBounds_mem (memRead_inv_error hm)
        | .ok v =>
          rw [hm, ok_bind] at he
          match hp : dPush u v with
          | .error k' => rw [hp, error_bind] at he; cases he; exact overflow_mem (dPush_inv_error hp)
          | .ok w => rw [hp, ok_bind] at he; cases he
  case store =>
    refine commit_cases h (fun he => ?_) fun k he => ?_
    · match hr : popTwo s with
      | .error k => rw [hr, error_bind] at he; cases he
      | .ok (b, a, u) =>
        obtain ⟨rest, hs, rfl⟩ := popTwo_inv hr
        rw [hr, ok_bind] at he
        simp only [] at he
        match hm : memWrite (s.setDstack rest) a b with
        | .error k => rw [hm, error_bind] at he; cases he
        | .ok w =>
          obtain ⟨h0, hC, rfl⟩ := memWrite_inv hm
          rw [hm, ok_bind] at he
          cases he
          exact ⟨a, b, rest, hs, h0, hC, rfl⟩
    · match hr : popTwo s with
      | .error k' => rw [hr, error_bind] at he; cases he; exact underflow_mem (popTwo_inv_error hr).1
      | .ok (b, a, u) =>
        rw [hr, ok_bind] at he
        simp only [] at he
        match hm : memWrite u a b with
        | .error k' => rw [hm, error_bind] at he; cases he; exact outOfBounds_mem (memWrite_inv_error hm)
        | .ok w => rw [hm, ok_bind] at he; cases he
  case add => exact binary_cases h
  case sub => exact binary_cases h
  case mul => exact binary_cases h
  case divmod =>
    refine commit_cases h (fun he => ?_) fun k he => ?_
    · match hr : popTwo s with
      | .error k => rw [hr, error_bind] at he; cases he
      | .ok (b, a, u) =>
        obtain ⟨rest, hs, rfl⟩ := popTwo_inv hr
        rw [hr, ok_bind] at he
        simp only [] at he
        split at he
        · cases he
        · next ha =>
          match hp : dPush (s.setDstack rest) (remCell b a) with
          | .error k => rw [hp, error_bind] at he; cases he
          | .ok u =>
            obtain ⟨_, rfl⟩ := dPush_inv hp
            rw [hp, ok_bind] at he
            match hq : dPush ((s.setDstack rest).setDstack (remCell b a :: (s.setDstack rest).dstack))
                (quotCell s.build.cellBits b a) with
            | .error k => erw [hq] at he; cases he
            | .ok w =>
              obtain ⟨_, rfl⟩ := dPush_inv hq
              erw [hq] at he
              cases he
              exact ⟨a, b, rest, hs, ha, rfl⟩
    · match hr : popTwo s with
      | .error k' => rw [hr, error_bind] at he; cases he; exact underflow_mem (popTwo_inv_error hr).1
      | .ok (b, a, u) =>
        rw [hr, ok_bind] at he
        simp only [] at he
        split at he
        · cases he; simp [stepFaults]
        · match hp : dPush u (remCell b a) with
          | .error k' => rw [hp, error_bind] at he; cases he; exact overflow_mem (dPush_inv_error hp)
          | .ok w =>
            rw [hp, ok_bind] at he
            match hq : dPush w (quotCell w.build.cellBits b a) with
            | .error k' => rw [hq, error_bind] at he; cases he; exact overflow_mem (dPush_inv_error hq)
            | .ok x => rw [hq, ok_bind] at he; cases he
  case and => exact binary_cases h
  case or => exact binary_cases h
  case xor => exact binary_cases h
  case shl => exact binary_cases h
  case shr => exact binary_cases h
  case zeroExit =>
    refine commit_cases h (fun he => ?_) fun k he => ?_
    · match hr : dPop s with
      | .error k => rw [hr, error_bind] at he; cases he
      | .ok (a, u) =>
        obtain ⟨rest, hs, rfl⟩ := dPop_inv hr
        rw [hr, ok_bind] at he
        simp only [condZero, decide_eq_true_eq] at he
        refine ⟨a, rest, hs, ?_⟩
        split at he
        · next ha =>
          obtain ⟨r, arest, hA, ht⟩ := returnOp_inv he
          exact .inl ⟨ha, r, arest, hA, ht⟩
        · next ha => cases he; exact .inr ⟨ha, rfl⟩
    · match hr : dPop s with
      | .error k' => rw [hr, error_bind] at he; cases he; exact underflow_mem (dPop_inv_error hr)
      | .ok (a, u) =>
        rw [hr, ok_bind] at he
        simp only [] at he
        split at he
        · exact underflow_mem (returnOp_inv_error he)
        · cases he
  case inc => exact unary_cases h
  case dec => exact unary_cases h
  case input =>
    change execInput s = _ at h
    unfold execInput requestInput at h
    split at h
    · next b hb =>
      have hv : s.inValid = true ∧ s.inByte = b := by
        split at hb
        · next hv => cases hb; exact ⟨hv, rfl⟩
        · split at hb <;> cases hb
      obtain ⟨hv, rfl⟩ := hv
      refine commit_cases h (fun he => ?_) fun k he => ?_
      · match hp : dPush s (zext8 s.inByte) with
        | .error k => rw [hp, error_bind] at he; cases he
        | .ok u =>
          obtain ⟨hn, rfl⟩ := dPush_inv hp
          rw [hp, ok_bind] at he
          cases he
          exact .inl ⟨hv, hn, rfl⟩
      · match hp : dPush s (zext8 s.inByte) with
        | .error k' => rw [hp, error_bind] at he; cases he; exact overflow_mem (dPush_inv_error hp)
        | .ok u => rw [hp, ok_bind] at he; cases he
    · next hb =>
      cases h
      refine .inr (.inr (.inl ?_))
      split at hb
      · cases hb
      · next hv =>
        split at hb
        · next hf => exact ⟨by simpa using hv, hf, rfl⟩
        · cases hb
    · next hb =>
      cases h
      refine .inr (.inr (.inr ?_))
      split at hb
      · cases hb
      · next hv =>
        split at hb
        · cases hb
        · next hf => exact ⟨by simpa using hv, by simpa using hf, rfl⟩
  case output =>
    refine commit_cases h (fun he => ?_) fun k he => ?_
    · match hr : dPop s with
      | .error k => rw [hr, error_bind] at he; cases he
      | .ok (a, u) =>
        obtain ⟨rest, hs, rfl⟩ := dPop_inv hr
        rw [hr, ok_bind] at he
        cases he
        exact ⟨a, rest, hs, rfl⟩
    · match hr : dPop s with
      | .error k' => rw [hr, error_bind] at he; cases he; exact underflow_mem (dPop_inv_error hr)
      | .ok (a, u) => rw [hr, ok_bind] at he; cases he
  case wait => cases h; exact .inr rfl

/-- What an instruction other than IN, OUT and WAIT leaves when it completes. -/
theorem completes_keeps {i : Instr} (h : Completes i s t) (hi : i ≠ .input) (ho : i ≠ .output) (hw : i ≠ .wait) :
    t = { s with ip := t.ip, dstack := t.dstack, astack := t.astack, img := t.img } := by
  cases i
  case nop => obtain rfl := h; rfl
  case lit => obtain ⟨_, _, _, rfl⟩ := h; rfl
  case dup => obtain ⟨_, _, _, _, rfl⟩ := h; rfl
  case drop => obtain ⟨_, _, _, rfl⟩ := h; rfl
  case swap => obtain ⟨_, _, _, _, rfl⟩ := h; rfl
  case push => obtain ⟨_, _, _, _, rfl⟩ := h; rfl
  case pop => obtain ⟨_, _, _, _, rfl⟩ := h; rfl
  case call => obtain ⟨_, _, _, rfl⟩ := h; rfl
  case jump => obtain ⟨_, _, rfl⟩ := h; rfl
  case ret => obtain ⟨_, _, _, rfl⟩ := h; rfl
  case gtJump => obtain ⟨_, _, _, _, ⟨_, _, _, rfl⟩ | ⟨_, rfl⟩⟩ := h <;> rfl
  case ltJump => obtain ⟨_, _, _, _, ⟨_, _, _, rfl⟩ | ⟨_, rfl⟩⟩ := h <;> rfl
  case neJump => obtain ⟨_, _, _, _, ⟨_, _, _, rfl⟩ | ⟨_, rfl⟩⟩ := h <;> rfl
  case eqJump => obtain ⟨_, _, _, _, ⟨_, _, _, rfl⟩ | ⟨_, rfl⟩⟩ := h <;> rfl
  case fetch => obtain ⟨_, _, _, _, _, rfl⟩ := h; rfl
  case store => obtain ⟨_, _, _, _, _, _, rfl⟩ := h; rfl
  case add => obtain ⟨_, _, _, _, _, rfl⟩ := h; rfl
  case sub => obtain ⟨_, _, _, _, _, rfl⟩ := h; rfl
  case mul => obtain ⟨_, _, _, _, _, rfl⟩ := h; rfl
  case divmod => obtain ⟨_, _, _, _, _, rfl⟩ := h; rfl
  case and => obtain ⟨_, _, _, _, _, rfl⟩ := h; rfl
  case or => obtain ⟨_, _, _, _, _, rfl⟩ := h; rfl
  case xor => obtain ⟨_, _, _, _, _, rfl⟩ := h; rfl
  case shl => obtain ⟨_, _, _, _, _, rfl⟩ := h; rfl
  case shr => obtain ⟨_, _, _, _, _, rfl⟩ := h; rfl
  case zeroExit => obtain ⟨_, _, _, ⟨_, _, _, _, rfl⟩ | ⟨_, rfl⟩⟩ := h <;> rfl
  case inc => obtain ⟨_, _, _, _, rfl⟩ := h; rfl
  case dec => obtain ⟨_, _, _, _, rfl⟩ := h; rfl
  case input => exact absurd rfl hi
  case output => exact absurd rfl ho
  case wait => exact absurd rfl hw

end Sys2Proof.Machine
end

