-- ==== Sys2Proof/Laws/HostMoves.lean ====
section
/-! SUPPORT. What a host move can do, said once, and what a property needs to hold after a clock edge or after any step. -/

namespace Sys2Proof.Machine

variable {s t : State}

@[simp] theorem State.resetFor_build (b : Build) : (State.resetFor b).build = b := rfl
@[simp] theorem State.resetFor_img (b : Build) : (State.resetFor b).img = [] := rfl
@[simp] theorem State.resetFor_ip (b : Build) : (State.resetFor b).ip = 0 := rfl
@[simp] theorem State.resetFor_dstack (b : Build) : (State.resetFor b).dstack = [] := rfl
@[simp] theorem State.resetFor_astack (b : Build) : (State.resetFor b).astack = [] := rfl
@[simp] theorem State.resetFor_haltFlag (b : Build) : (State.resetFor b).haltFlag = false := rfl
@[simp] theorem State.resetFor_halted (b : Build) : (State.resetFor b).halted = false := rfl
@[simp] theorem State.resetFor_inValid (b : Build) : (State.resetFor b).inValid = false := rfl
@[simp] theorem State.resetFor_inByte (b : Build) : (State.resetFor b).inByte = 0 := rfl
@[simp] theorem State.resetFor_faultKind (b : Build) : (State.resetFor b).faultKind = .none := rfl
@[simp] theorem State.resetFor_faultIp (b : Build) : (State.resetFor b).faultIp = 0 := rfl
@[simp] theorem State.resetFor_phase (b : Build) : (State.resetFor b).phase = .load := rfl
@[simp] theorem State.resetFor_loadPtr (b : Build) : (State.resetFor b).loadPtr = 0 := rfl
@[simp] theorem State.resetFor_outSeq (b : Build) : (State.resetFor b).outSeq = [] := rfl
@[simp] theorem State.resetFor_inSeq (b : Build) : (State.resetFor b).inSeq = [] := rfl
@[simp] theorem State.resetFor_inTaken (b : Build) : (State.resetFor b).inTaken = 0 := rfl
@[simp] theorem State.resetFor_waitCount (b : Build) : (State.resetFor b).waitCount = 0 := rfl
@[simp] theorem State.resetFor_inPending (b : Build) : (State.resetFor b).inPending = false := rfl
@[simp] theorem State.resetFor_turns (b : Build) : (State.resetFor b).turns = [] := rfl

/-- The loader acts in LOAD on a core that is not halted (45_interfaces.md R98). -/
theorem State.loading_iff (s : State) : s.loading = true ↔ s.phase = .load ∧ s.halted = false := by
  simp [State.loading]

theorem State.not_loading_of_run (h : s.phase = .run) : s.loading = false := by simp [State.loading, h]

theorem State.not_loading_of_halted (h : s.halted = true) : s.loading = false := by simp [State.loading, h]

/-- A cell loaded below C (R98). -/
theorem hostLoadCell_below (hl : s.loading = true) (hp : s.loadPtr < s.build.imageCells) (v : Int) :
    s.hostLoadCell v =
      { s with img := s.img.write s.loadPtr (wrap s.build.cellBits v), loadPtr := s.loadPtr + 1 } := by
  simp [State.hostLoadCell, hl, hp]

/-- A cell offered when LOAD_PTR = C fails the load (R99). -/
theorem hostLoadCell_full (hl : s.loading = true) (hp : s.build.imageCells ≤ s.loadPtr) (v : Int) :
    s.hostLoadCell v = s.failLoad := by
  simp [State.hostLoadCell, hl, Nat.not_lt.mpr hp]

/-- A cell offered when the loader does not act is ignored (R98). -/
theorem hostLoadCell_ignored (hl : s.loading = false) (v : Int) : s.hostLoadCell v = s := by
  simp [State.hostLoadCell, hl]

theorem hostStart_loading (hl : s.loading = true) : s.hostStart = { s with phase := .run } := by
  simp [State.hostStart, hl]

theorem hostStart_ignored (hl : s.loading = false) : s.hostStart = s := by simp [State.hostStart, hl]

theorem hostDeliver_empty (hv : s.inValid = false) (b : Byte) :
    s.hostDeliver b = { s with inValid := true, inByte := b, inSeq := s.inSeq ++ [b] } := by
  simp [State.hostDeliver, hv]

theorem hostDeliver_full (hv : s.inValid = true) (b : Byte) : s.hostDeliver b = s := by simp [State.hostDeliver, hv]

/-- What a host move can do (45_interfaces.md R106). -/
theorem hostMove_cases (m : HostMove) (s : State) :
    (m = .reset ∧ hostMove m s = s.hostReset) ∨
    hostMove m s = s ∨
    (∃ v, m = .loadCell v ∧ s.phase = .load ∧ s.halted = false ∧ s.loadPtr < s.build.imageCells ∧ hostMove m s =
      { s with img := s.img.write s.loadPtr (wrap s.build.cellBits v), loadPtr := s.loadPtr + 1 }) ∨
    (∃ v, m = .loadCell v ∧ s.phase = .load ∧ s.halted = false ∧ s.build.imageCells ≤ s.loadPtr ∧
      hostMove m s = s.failLoad) ∨
    (m = .start ∧ s.phase = .load ∧ s.halted = false ∧ hostMove m s = { s with phase := .run }) ∨
    (∃ b, m = .deliver b ∧ s.inValid = false ∧
      hostMove m s = { s with inValid := true, inByte := b, inSeq := s.inSeq ++ [b] }) ∨
    (m = .requestHalt ∧ hostMove m s = { s with haltFlag := true }) := by
  cases m with
  | reset => exact .inl ⟨rfl, rfl⟩
  | loadCell v =>
    cases hl : s.loading with
    | false => exact .inr (.inl (hostLoadCell_ignored hl v))
    | true =>
      obtain ⟨hp, hh⟩ := s.loading_iff.mp hl
      by_cases hc : s.loadPtr < s.build.imageCells
      · exact .inr (.inr (.inl ⟨v, rfl, hp, hh, hc, hostLoadCell_below hl hc v⟩))
      · exact .inr (.inr (.inr (.inl ⟨v, rfl, hp, hh, by omega, hostLoadCell_full hl (by omega) v⟩)))
  | start =>
    cases hl : s.loading with
    | false => exact .inr (.inl (hostStart_ignored hl))
    | true =>
      obtain ⟨hp, hh⟩ := s.loading_iff.mp hl
      exact .inr (.inr (.inr (.inr (.inl ⟨rfl, hp, hh, hostStart_loading hl⟩))))
  | deliver b =>
    cases hv : s.inValid with
    | true => exact .inr (.inl (hostDeliver_full hv b))
    | false => exact .inr (.inr (.inr (.inr (.inr (.inl ⟨b, rfl, rfl, hostDeliver_empty hv b⟩)))))
  | requestHalt => exact .inr (.inr (.inr (.inr (.inr (.inr ⟨rfl, rfl⟩)))))
  | takeOutput => exact .inr (.inl rfl)
  | observe => exact .inr (.inl rfl)

/-- What every host move keeps, every clock edge keeps. -/
theorem clockEdge_keeps {P : State → Prop} (hm : ∀ m s, P s → P (hostMove m s)) (p : Pins) (h : P s) :
    P (clockEdge p s) := by
  have hload : P (loaderEdge p s) := by
    unfold loaderEdge
    split
    · exact hm .start s h
    · split
      · exact hm (.loadCell p.ldData) s h
      · exact h
  have hin : P (inputEdge p (loaderEdge p s)) := by
    unfold inputEdge
    split
    · exact hm (.deliver p.inData) _ hload
    · exact hload
  unfold clockEdge haltEdge
  split
  · exact hm .reset s h
  · split
    · exact hm .requestHalt _ hin
    · exact hin

/-- A host move changes no build and no schedule. -/
theorem hostMove_own (m : HostMove) (s : State) : (hostMove m s).build = s.build ∧ (hostMove m s).turns = s.turns := by
  rcases hostMove_cases m s with ⟨_, h⟩ | h | ⟨_, _, _, _, _, h⟩ | ⟨_, _, _, _, _, h⟩ | ⟨_, _, _, h⟩ | ⟨_, _, _, h⟩ | ⟨_, h⟩ <;>
    rw [h] <;> exact ⟨rfl, rfl⟩

/-- A host move does the same whatever is scheduled after it. -/
theorem hostMove_setTurns (m : HostMove) (s : State) (ts : List Turn) :
    hostMove m (s.setTurns ts) = (hostMove m s).setTurns ts := by
  have hload : (s.setTurns ts).loading = s.loading := rfl
  cases m with
  | loadCell v =>
    cases hl : s.loading with
    | false =>
      rw [show hostMove (.loadCell v) s = s from hostLoadCell_ignored hl v]
      exact hostLoadCell_ignored (hload.trans hl) v
    | true =>
      by_cases hc : s.loadPtr < s.build.imageCells
      · rw [show hostMove (.loadCell v) s = _ from hostLoadCell_below hl hc v]
        exact hostLoadCell_below (hload.trans hl) hc v
      · rw [show hostMove (.loadCell v) s = _ from hostLoadCell_full hl (by omega) v]
        exact hostLoadCell_full (s := s.setTurns ts) (hload.trans hl) (Nat.le_of_not_lt hc) v
  | start =>
    cases hl : s.loading with
    | false =>
      rw [show hostMove .start s = s from hostStart_ignored hl]
      exact hostStart_ignored (hload.trans hl)
    | true =>
      rw [show hostMove .start s = _ from hostStart_loading hl]
      exact hostStart_loading (hload.trans hl)
  | deliver b =>
    cases hv : s.inValid with
    | true =>
      rw [show hostMove (.deliver b) s = s from hostDeliver_full hv b]
      exact hostDeliver_full (s := s.setTurns ts) hv b
    | false =>
      rw [show hostMove (.deliver b) s = _ from hostDeliver_empty hv b]
      exact hostDeliver_empty (s := s.setTurns ts) hv b
  | reset => rfl
  | requestHalt => rfl
  | takeOutput => rfl
  | observe => rfl

end Sys2Proof.Machine
end

