-- ==== Sys2Proof/Laws/Memory.lean ====
section
/-! SUPPORT. Image Memory: a read after a write, the canonical form kept by every memory operation, and two canonical
memories that read alike are the same data. -/

namespace Sys2Proof.Machine

@[simp] theorem Memory.read_nil (addr : Nat) : Memory.read [] addr = 0 := rfl

theorem Memory.read_cons (a : Nat) (v : Int) (m : Memory) (addr : Nat) :
    Memory.read ((a, v) :: m) addr = if a = addr then v else Memory.read m addr := rfl

/-- An address no entry lists reads as 0. -/
theorem Memory.read_of_unlisted {m : Memory} {addr : Nat} (h : ∀ p ∈ m, p.1 ≠ addr) : Memory.read m addr = 0 := by
  induction m with
  | nil => rfl
  | cons p m ih =>
    obtain ⟨a, v⟩ := p
    rw [Memory.read_cons, if_neg (h (a, v) (by simp))]
    exact ih fun q hq => h q (List.mem_cons_of_mem _ hq)

/-- A read is 0 or a listed cell. -/
theorem Memory.read_mem (m : Memory) (addr : Nat) :
    Memory.read m addr = 0 ∨ (addr, Memory.read m addr) ∈ m := by
  induction m with
  | nil => exact .inl rfl
  | cons p m ih =>
    obtain ⟨a, v⟩ := p
    rw [Memory.read_cons]
    split
    · next h => subst h; exact .inr (by simp)
    · rcases ih with h | h
      · exact .inl h
      · exact .inr (List.mem_cons_of_mem _ h)

/-- A write leaves every other address alone, whatever the memory. -/
theorem Memory.read_write_ne (m : Memory) {addr other : Nat} (v : Int) (h : other ≠ addr) :
    Memory.read (Memory.write m addr v) other = Memory.read m other := by
  induction m with
  | nil =>
    simp only [Memory.write]
    split
    · rfl
    · rw [Memory.read_cons, if_neg (Ne.symm h)]
  | cons p m ih =>
    obtain ⟨a, w⟩ := p
    simp only [Memory.write]
    split
    · split
      · rfl
      · rw [Memory.read_cons, if_neg (Ne.symm h)]
    · split
      · next ha =>
        subst ha
        split
        · rw [Memory.read_cons, if_neg (Ne.symm h)]
        · rw [Memory.read_cons, Memory.read_cons, if_neg (Ne.symm h), if_neg (Ne.symm h)]
      · rw [Memory.read_cons, Memory.read_cons, ih]

/-- An entry of a written memory is the one written or an old one. -/
theorem Memory.mem_write {m : Memory} {addr : Nat} {v : Int} {p : Nat × Int} (h : p ∈ Memory.write m addr v) :
    (p = (addr, v) ∧ v ≠ 0) ∨ p ∈ m := by
  induction m with
  | nil =>
    simp only [Memory.write] at h
    split at h
    · simp at h
    · next hv => exact .inl ⟨by simpa using h, hv⟩
  | cons q m ih =>
    obtain ⟨a, w⟩ := q
    simp only [Memory.write] at h
    split at h
    · split at h
      · exact .inr h
      · next hv =>
        rcases List.mem_cons.mp h with h | h
        · exact .inl ⟨h, hv⟩
        · exact .inr h
    · split at h
      · split at h
        · exact .inr (List.mem_cons_of_mem _ h)
        · next hv =>
          rcases List.mem_cons.mp h with h | h
          · exact .inl ⟨h, hv⟩
          · exact .inr (List.mem_cons_of_mem _ h)
      · rcases List.mem_cons.mp h with h | h
        · exact .inr (h ▸ List.mem_cons_self)
        · rcases ih h with h | h
          · exact .inl h
          · exact .inr (List.mem_cons_of_mem _ h)

@[simp] theorem Memory.wf_nil : Memory.wf [] := ⟨List.Pairwise.nil, by simp⟩

theorem Memory.wf_cons {a : Nat} {v : Int} {m : Memory} :
    Memory.wf ((a, v) :: m) ↔ (∀ p ∈ m, a < p.1) ∧ v ≠ 0 ∧ Memory.wf m := by
  simp only [Memory.wf, List.pairwise_cons, List.forall_mem_cons, unlistedCell]
  tauto

/-- A write keeps the canonical form. -/
theorem Memory.wf_write {m : Memory} (h : Memory.wf m) (addr : Nat) (v : Int) :
    Memory.wf (Memory.write m addr v) := by
  induction m with
  | nil =>
    simp only [Memory.write]
    split
    · exact Memory.wf_nil
    · next hv => exact Memory.wf_cons.mpr ⟨by simp, hv, Memory.wf_nil⟩
  | cons p m ih =>
    obtain ⟨a, w⟩ := p
    obtain ⟨hlt, hw, hm⟩ := Memory.wf_cons.mp h
    simp only [Memory.write]
    split
    · next ha =>
      split
      · exact h
      · next hv =>
        refine Memory.wf_cons.mpr ⟨?_, hv, h⟩
        intro q hq
        rcases List.mem_cons.mp hq with rfl | hq
        · exact ha
        · exact lt_trans ha (hlt q hq)
    · split
      · next ha =>
        subst ha
        split
        · exact hm
        · next hv => exact Memory.wf_cons.mpr ⟨hlt, hv, hm⟩
      · refine Memory.wf_cons.mpr ⟨?_, hw, ih hm⟩
        intro q hq
        rcases Memory.mem_write hq with ⟨rfl, _⟩ | hq
        · simp only; omega
        · exact hlt q hq

/-- A read after a write to the same address gives the cell written. -/
theorem Memory.read_write_eq {m : Memory} (h : Memory.wf m) (addr : Nat) (v : Int) :
    Memory.read (Memory.write m addr v) addr = v := by
  induction m with
  | nil =>
    simp only [Memory.write]
    split
    · next hv => rw [hv]; rfl
    · rw [Memory.read_cons, if_pos rfl]
  | cons p m ih =>
    obtain ⟨a, w⟩ := p
    obtain ⟨hlt, hw, hm⟩ := Memory.wf_cons.mp h
    simp only [Memory.write]
    split
    · next ha =>
      split
      · next hv =>
        rw [hv]
        refine Memory.read_of_unlisted fun q hq => ?_
        rcases List.mem_cons.mp hq with rfl | hq
        · exact Nat.ne_of_gt ha
        · exact Nat.ne_of_gt (lt_trans ha (hlt q hq))
      · rw [Memory.read_cons, if_pos rfl]
    · split
      · next ha =>
        subst ha
        split
        · next hv => rw [hv]; exact Memory.read_of_unlisted fun q hq => Nat.ne_of_gt (hlt q hq)
        · rw [Memory.read_cons, if_pos rfl]
      · next _ ha => rw [Memory.read_cons, if_neg (Ne.symm ha), ih hm]

/-- Two canonical memories that read alike everywhere are equal data. -/
theorem Memory.ext_read {m n : Memory} (hm : Memory.wf m) (hn : Memory.wf n)
    (h : ∀ a, Memory.read m a = Memory.read n a) : m = n := by
  induction m generalizing n with
  | nil =>
    cases n with
    | nil => rfl
    | cons q n =>
      obtain ⟨b, w⟩ := q
      have := h b
      rw [Memory.read_nil, Memory.read_cons, if_pos rfl] at this
      exact absurd this.symm (Memory.wf_cons.mp hn).2.1
  | cons p m ih =>
    obtain ⟨a, v⟩ := p
    obtain ⟨hlt, hv, hm'⟩ := Memory.wf_cons.mp hm
    cases n with
    | nil =>
      have := h a
      rw [Memory.read_nil, Memory.read_cons, if_pos rfl] at this
      exact absurd this hv
    | cons q n =>
      obtain ⟨b, w⟩ := q
      obtain ⟨hlt', hw, hn'⟩ := Memory.wf_cons.mp hn
      have hab : a = b := by
        rcases lt_trichotomy a b with hab | hab | hab
        · have := h a
          rw [Memory.read_cons, if_pos rfl, Memory.read_of_unlisted] at this
          · exact absurd this hv
          · intro q hq
            rcases List.mem_cons.mp hq with rfl | hq
            · exact Nat.ne_of_gt hab
            · exact Nat.ne_of_gt (lt_trans hab (hlt' q hq))
        · exact hab
        · have := h b
          rw [Memory.read_cons b, if_pos rfl, Memory.read_of_unlisted] at this
          · exact absurd this.symm hw
          · intro q hq
            rcases List.mem_cons.mp hq with rfl | hq
            · exact Nat.ne_of_gt hab
            · exact Nat.ne_of_gt (lt_trans hab (hlt q hq))
      subst hab
      have hvw : v = w := by
        have := h a
        rwa [Memory.read_cons, Memory.read_cons, if_pos rfl, if_pos rfl] at this
      subst hvw
      rw [ih hm' hn']
      intro c
      rcases eq_or_ne a c with rfl | hc
      · rw [Memory.read_of_unlisted fun q hq => Nat.ne_of_gt (hlt q hq),
          Memory.read_of_unlisted fun q hq => Nat.ne_of_gt (hlt' q hq)]
      · have := h c
        rwa [Memory.read_cons, Memory.read_cons, if_neg hc, if_neg hc] at this

/-- The addresses of a memory laid out from `start` on are at least `start`. -/
theorem Memory.mem_ofCells {start : Nat} {cs : List Int} {p : Nat × Int} (h : p ∈ Memory.ofCells start cs) :
    start ≤ p.1 ∧ p.1 < start + cs.length ∧ p.2 ∈ cs := by
  induction cs generalizing start with
  | nil => simp [Memory.ofCells] at h
  | cons v vs ih =>
    simp only [Memory.ofCells] at h
    have tail : p ∈ Memory.ofCells (start + 1) vs → start ≤ p.1 ∧ p.1 < start + (v :: vs).length ∧ p.2 ∈ v :: vs := by
      intro hp
      obtain ⟨h1, h2, h3⟩ := ih hp
      refine ⟨by omega, ?_, List.mem_cons_of_mem _ h3⟩
      rw [List.length_cons]; omega
    split at h
    · exact tail h
    · rcases List.mem_cons.mp h with rfl | h
      · exact ⟨le_refl _, by simp, by simp⟩
      · exact tail h

/-- A memory laid out from cells is canonical. -/
theorem Memory.wf_ofCells (start : Nat) (cs : List Int) : Memory.wf (Memory.ofCells start cs) := by
  induction cs generalizing start with
  | nil => exact Memory.wf_nil
  | cons v vs ih =>
    simp only [Memory.ofCells]
    split
    · exact ih _
    · next hv =>
      refine Memory.wf_cons.mpr ⟨fun p hp => ?_, hv, ih _⟩
      have := (Memory.mem_ofCells hp).1
      omega

/-- What a memory laid out from cells reads (70_reset_and_hazards.md R130). -/
theorem Memory.read_ofCells (start : Nat) (cs : List Int) (i : Nat) :
    Memory.read (Memory.ofCells start cs) (start + i) = cs.getD i 0 := by
  induction cs generalizing start i with
  | nil => simp [Memory.ofCells]
  | cons v vs ih =>
    have key : ∀ j, Memory.read (Memory.ofCells (start + 1) vs) (start + (j + 1)) = vs.getD j 0 := by
      intro j
      have := ih (start + 1) j
      rwa [show start + 1 + j = start + (j + 1) by omega] at this
    have zero : Memory.read (Memory.ofCells (start + 1) vs) start = 0 := by
      refine Memory.read_of_unlisted fun p hp => ?_
      have := (Memory.mem_ofCells hp).1
      omega
    simp only [Memory.ofCells]
    cases i with
    | zero =>
      split
      · next hv => simpa [hv, unlistedCell] using zero
      · simp [Memory.read_cons]
    | succ j =>
      split
      · simpa using key j
      · rw [Memory.read_cons, if_neg (by omega)]
        simpa using key j

/-- Writing the next cell of a payload behind the cells already laid out lays it out (45_interfaces.md R98). -/
theorem Memory.write_ofCells (cs : List Int) (v : Int) :
    Memory.write (Memory.ofCells 0 cs) cs.length v = Memory.ofCells 0 (cs ++ [v]) := by
  refine Memory.ext_read (Memory.wf_write (Memory.wf_ofCells _ _) _ _) (Memory.wf_ofCells _ _) fun a => ?_
  have h1 := Memory.read_ofCells 0 (cs ++ [v]) a
  have h2 := Memory.read_ofCells 0 cs a
  rw [Nat.zero_add] at h1 h2
  rw [h1]
  rcases lt_trichotomy a cs.length with h | rfl | h
  · rw [Memory.read_write_ne _ _ (Nat.ne_of_lt h), h2]
    simp [List.getD_eq_getElem?_getD, List.getElem?_append_left h]
  · rw [Memory.read_write_eq (Memory.wf_ofCells _ _)]
    simp
  · rw [Memory.read_write_ne _ _ (Nat.ne_of_gt h), h2]
    rw [List.getD_eq_default _ _ (by omega), List.getD_eq_default _ _ (by simp; omega)]

/-- The memory of `State.reset` is canonical. -/
theorem State.reset_img_wf : State.reset.img.wf := Memory.wf_nil

/-- `MemWrite` keeps the canonical form (20_memory.md R34). -/
theorem memWrite_wf {s t : State} {addr v : Int} (hs : s.img.wf) (h : memWrite s addr v = .ok t) : t.img.wf := by
  unfold memWrite at h
  split at h
  · cases h
  · cases h; exact Memory.wf_write hs _ _

/-- Placing cells for the fetch keeps the canonical form. -/
theorem State.placeCells_wf (s : State) (a : Nat) (cs : List Int) (hs : s.img.wf) : (s.placeCells a cs).img.wf := by
  induction cs generalizing s a with
  | nil => exact hs
  | cons v vs ih =>
    simp only [State.placeCells]
    refine ih _ _ ?_
    split
    · exact Memory.wf_write hs _ _
    · exact hs

/-- A host move keeps the canonical form (45_interfaces.md R106). -/
theorem hostMove_wf (m : HostMove) {s : State} (hs : s.img.wf) : (hostMove m s).img.wf := by
  cases m with
  | reset => exact Memory.wf_nil
  | loadCell v =>
    simp only [hostMove, State.hostLoadCell]
    split
    · split
      · exact Memory.wf_write hs _ _
      · exact hs
    · exact hs
  | start => simp only [hostMove, State.hostStart]; split <;> exact hs
  | deliver b => simp only [hostMove, State.hostDeliver]; split <;> exact hs
  | requestHalt => exact hs
  | takeOutput => exact hs
  | observe => exact hs

end Sys2Proof.Machine
end

