-- ==== Sys2Proof/Laws/PerInstr.lean ====
section
/-! SUPPORT. The encoding of each instruction, one lemma per constructor (30_encoding.md R46, R49, R55). -/

namespace Sys2Proof.Laws.Encoding

/-- The instruction's opcode is in 0..30 and decodes to it, and its cells with an operand exactly when its format has one
are as many as its length and decode to the line they were written from, whatever follows. -/
def Statement (i : Instr) : Prop :=
  0 ≤ i.opcode ∧ i.opcode ≤ 30 ∧ decode i.opcode = .ok i ∧
    (∀ (v : Int) (rest : List Int), i.format = .i →
      (encode ⟨i, some v⟩).length = i.cells ∧ decodeLine (encode ⟨i, some v⟩ ++ rest) = .ok (⟨i, some v⟩, rest)) ∧
    (∀ rest : List Int, i.format = .z →
      (encode ⟨i, none⟩).length = i.cells ∧ decodeLine (encode ⟨i, none⟩ ++ rest) = .ok (⟨i, none⟩, rest))

theorem nop : Statement .nop := ⟨by decide, by decide, rfl, fun _ _ h => absurd h (by decide), fun _ _ => ⟨rfl, rfl⟩⟩
theorem lit : Statement .lit := ⟨by decide, by decide, rfl, fun _ _ _ => ⟨rfl, rfl⟩, fun _ h => absurd h (by decide)⟩
theorem dup : Statement .dup := ⟨by decide, by decide, rfl, fun _ _ h => absurd h (by decide), fun _ _ => ⟨rfl, rfl⟩⟩
theorem drop : Statement .drop := ⟨by decide, by decide, rfl, fun _ _ h => absurd h (by decide), fun _ _ => ⟨rfl, rfl⟩⟩
theorem swap : Statement .swap := ⟨by decide, by decide, rfl, fun _ _ h => absurd h (by decide), fun _ _ => ⟨rfl, rfl⟩⟩
theorem push : Statement .push := ⟨by decide, by decide, rfl, fun _ _ h => absurd h (by decide), fun _ _ => ⟨rfl, rfl⟩⟩
theorem pop : Statement .pop := ⟨by decide, by decide, rfl, fun _ _ h => absurd h (by decide), fun _ _ => ⟨rfl, rfl⟩⟩
theorem call : Statement .call := ⟨by decide, by decide, rfl, fun _ _ _ => ⟨rfl, rfl⟩, fun _ h => absurd h (by decide)⟩
theorem jump : Statement .jump := ⟨by decide, by decide, rfl, fun _ _ _ => ⟨rfl, rfl⟩, fun _ h => absurd h (by decide)⟩
theorem ret : Statement .ret := ⟨by decide, by decide, rfl, fun _ _ h => absurd h (by decide), fun _ _ => ⟨rfl, rfl⟩⟩
theorem gtJump : Statement .gtJump := ⟨by decide, by decide, rfl, fun _ _ _ => ⟨rfl, rfl⟩, fun _ h => absurd h (by decide)⟩
theorem ltJump : Statement .ltJump := ⟨by decide, by decide, rfl, fun _ _ _ => ⟨rfl, rfl⟩, fun _ h => absurd h (by decide)⟩
theorem neJump : Statement .neJump := ⟨by decide, by decide, rfl, fun _ _ _ => ⟨rfl, rfl⟩, fun _ h => absurd h (by decide)⟩
theorem eqJump : Statement .eqJump := ⟨by decide, by decide, rfl, fun _ _ _ => ⟨rfl, rfl⟩, fun _ h => absurd h (by decide)⟩
theorem fetch : Statement .fetch := ⟨by decide, by decide, rfl, fun _ _ h => absurd h (by decide), fun _ _ => ⟨rfl, rfl⟩⟩
theorem store : Statement .store := ⟨by decide, by decide, rfl, fun _ _ h => absurd h (by decide), fun _ _ => ⟨rfl, rfl⟩⟩
theorem add : Statement .add := ⟨by decide, by decide, rfl, fun _ _ h => absurd h (by decide), fun _ _ => ⟨rfl, rfl⟩⟩
theorem sub : Statement .sub := ⟨by decide, by decide, rfl, fun _ _ h => absurd h (by decide), fun _ _ => ⟨rfl, rfl⟩⟩
theorem mul : Statement .mul := ⟨by decide, by decide, rfl, fun _ _ h => absurd h (by decide), fun _ _ => ⟨rfl, rfl⟩⟩
theorem divmod : Statement .divmod := ⟨by decide, by decide, rfl, fun _ _ h => absurd h (by decide), fun _ _ => ⟨rfl, rfl⟩⟩
theorem and : Statement .and := ⟨by decide, by decide, rfl, fun _ _ h => absurd h (by decide), fun _ _ => ⟨rfl, rfl⟩⟩
theorem or : Statement .or := ⟨by decide, by decide, rfl, fun _ _ h => absurd h (by decide), fun _ _ => ⟨rfl, rfl⟩⟩
theorem xor : Statement .xor := ⟨by decide, by decide, rfl, fun _ _ h => absurd h (by decide), fun _ _ => ⟨rfl, rfl⟩⟩
theorem shl : Statement .shl := ⟨by decide, by decide, rfl, fun _ _ h => absurd h (by decide), fun _ _ => ⟨rfl, rfl⟩⟩
theorem shr : Statement .shr := ⟨by decide, by decide, rfl, fun _ _ h => absurd h (by decide), fun _ _ => ⟨rfl, rfl⟩⟩
theorem zeroExit : Statement .zeroExit := ⟨by decide, by decide, rfl, fun _ _ h => absurd h (by decide), fun _ _ => ⟨rfl, rfl⟩⟩
theorem inc : Statement .inc := ⟨by decide, by decide, rfl, fun _ _ h => absurd h (by decide), fun _ _ => ⟨rfl, rfl⟩⟩
theorem dec : Statement .dec := ⟨by decide, by decide, rfl, fun _ _ h => absurd h (by decide), fun _ _ => ⟨rfl, rfl⟩⟩
theorem input : Statement .input := ⟨by decide, by decide, rfl, fun _ _ h => absurd h (by decide), fun _ _ => ⟨rfl, rfl⟩⟩
theorem output : Statement .output := ⟨by decide, by decide, rfl, fun _ _ h => absurd h (by decide), fun _ _ => ⟨rfl, rfl⟩⟩
theorem wait : Statement .wait := ⟨by decide, by decide, rfl, fun _ _ h => absurd h (by decide), fun _ _ => ⟨rfl, rfl⟩⟩

end Sys2Proof.Laws.Encoding
end

