-- ==== Sys2Proof/Laws/Step.lean ====
section
/-! SUPPORT. What a turn of the core and a step can do, said once; decoding and the opcode map; a run turn by turn. -/

namespace Sys2Proof

/-- Decoding an instruction's opcode gives the instruction (30_encoding.md R49). -/
theorem decode_opcode (i : Instr) : decode i.opcode = .ok i := by cases i <;> rfl

/-- A cell that decodes is the opcode of what it decodes to (R48, R51). -/
theorem opcode_of_decode {op : Int} {i : Instr} (h : decode op = .ok i) : op = i.opcode := by
  unfold decode at h
  split at h
  · cases h
  · next hr =>
    obtain ⟨n, rfl⟩ := Int.eq_ofNat_of_zero_le (show 0 ≤ op by omega)
    rw [Int.toNat_natCast] at h
    split at h <;> first
      | (cases h; rfl)
      | cases h

/-- A cell outside 0..30 is rejected, and no other is (R53). -/
theorem decode_error_iff {op : Int} {r : Reject} : decode op = .error r ↔ (op < 0 ∨ 30 < op) ∧ r = .invalidOpcode op := by
  constructor
  · intro h
    by_cases hr : op < 0 ∨ 30 < op
    · unfold decode at h
      rw [if_pos hr] at h
      cases h
      exact ⟨hr, rfl⟩
    · exfalso
      obtain ⟨n, rfl⟩ := Int.eq_ofNat_of_zero_le (show 0 ≤ op by omega)
      have hn : n ≤ 30 := by omega
      interval_cases n <;> cases h
  · rintro ⟨hr, rfl⟩
    unfold decode
    rw [if_pos hr]

namespace Machine

variable {s t : State}

/-- A valid instruction address reads its cell; any other raises OutOfBounds. -/
theorem memRead_eq (s : State) (addr : Int) :
    memRead s addr = if s.InImage addr then .ok (s.img.read addr.toNat) else .error .outOfBounds := by
  unfold memRead State.InImage
  by_cases h : addr < 0 ∨ (s.build.imageCells : Int) ≤ addr
  · rw [if_pos h, if_neg (by omega)]
  · rw [if_neg h, if_pos (by omega)]

/-- What the fetch, the decode and the dispatch can do (30_encoding.md R50 items 3 to 5). -/
theorem fetchExecute_cases (h : fetchExecute s = .next t) :
    (¬ s.InImage s.ip ∧ t = s.raise .outOfBounds) ∨
    (s.InImage s.ip ∧ (∃ r, decode (s.img.read s.ip.toNat) = .error r) ∧ t = s.raise .invalidOpcode) ∨
    (s.InImage s.ip ∧ ∃ i, decode (s.img.read s.ip.toNat) = .ok i ∧ exec i s = .next t) := by
  unfold fetchExecute at h
  rw [memRead_eq] at h
  by_cases hin : s.InImage s.ip
  · rw [if_pos hin] at h
    simp only [] at h
    match hd : decode (s.img.read s.ip.toNat) with
    | .error r => rw [hd] at h; cases h; exact .inr (.inl ⟨hin, ⟨r, rfl⟩, rfl⟩)
    | .ok i => rw [hd] at h; exact .inr (.inr ⟨hin, i, rfl, h⟩)
  · rw [if_neg hin] at h
    cases h
    exact .inl ⟨hin, rfl⟩

/-- What a turn of the core can do (30_encoding.md R50, 44_port_io.md R90, 70_reset_and_hazards.md R128). -/
theorem coreTurn_cases (h : coreTurn s = .next t) :
    (s.phase = .load ∧ t = s) ∨
    (s.phase = .run ∧ s.halted = true ∧ t = s) ∨
    (s.phase = .run ∧ s.halted = false ∧ s.inPending = true ∧ exec .input (s.setPending false) = .next t) ∨
    (s.phase = .run ∧ s.halted = false ∧ s.inPending = false ∧ s.haltFlag = true ∧ t = s.halt) ∨
    (s.phase = .run ∧ s.halted = false ∧ s.inPending = false ∧ s.haltFlag = false ∧ fetchExecute s = .next t) := by
  unfold coreTurn at h
  cases hp : s.phase with
  | load => rw [hp] at h; cases h; exact .inl ⟨rfl, rfl⟩
  | run =>
    rw [hp] at h
    simp only [] at h
    cases hh : s.halted with
    | true => rw [hh] at h; cases h; exact .inr (.inl ⟨rfl, rfl, rfl⟩)
    | false =>
      cases hq : s.inPending with
      | true => simp only [hh, hq] at h; exact .inr (.inr (.inl ⟨rfl, rfl, rfl, h⟩))
      | false =>
        cases hf : s.haltFlag with
        | true => simp only [hh, hq, hf] at h; cases h; exact .inr (.inr (.inr (.inl ⟨rfl, rfl, rfl, rfl, rfl⟩)))
        | false => simp only [hh, hq, hf] at h; exact .inr (.inr (.inr (.inr ⟨rfl, rfl, rfl, rfl, h⟩)))

/-- A step when the core is to move is a core turn. -/
theorem step_core (hl : s.build.legal = true) (hc : s.CoreToMove) :
    step s = coreTurn (s.setTurns s.turns.tail) := by
  unfold step
  rw [if_pos hl]
  unfold State.CoreToMove at hc
  match ht : s.turns with
  | [] =>
    simp only [List.tail_nil]
    congr 1
    rw [← ht]
    rfl
  | .core :: ts => rfl
  | .host m :: ts => rw [ht] at hc; cases hc
  | .edge p :: ts => rw [ht] at hc; cases hc

/-- What a step can do: a turn of the core, a host move, or a clock edge (45_interfaces.md R106). -/
theorem step_cases (h : step s = .next t) :
    s.build.legal = true ∧
      ((s.CoreToMove ∧ coreTurn (s.setTurns s.turns.tail) = .next t) ∨
        (∃ m ts, s.turns = .host m :: ts ∧ t = hostMove m (s.setTurns ts)) ∨
        (∃ p ts, s.turns = .edge p :: ts ∧ t = clockEdge p (s.setTurns ts))) := by
  have hl : s.build.legal = true := by
    by_contra hn
    unfold step at h
    rw [if_neg hn] at h
    cases h
  refine ⟨hl, ?_⟩
  by_cases hc : s.CoreToMove
  · exact .inl ⟨hc, by rw [← step_core hl hc]; exact h⟩
  · unfold step at h
    rw [if_pos hl] at h
    unfold State.CoreToMove at hc
    match ht : s.turns with
    | [] => rw [ht] at hc; exact absurd rfl hc
    | .core :: ts => rw [ht] at hc; exact absurd rfl hc
    | .host m :: ts => rw [ht] at h; cases h; exact .inr (.inl ⟨m, ts, rfl, rfl⟩)
    | .edge p :: ts => rw [ht] at h; cases h; exact .inr (.inr ⟨p, ts, rfl, rfl⟩)

/-- A turn of the core in LOAD executes nothing (70_reset_and_hazards.md R128). -/
theorem coreTurn_load (hp : s.phase = .load) : coreTurn s = .next s := by unfold coreTurn; rw [hp]

/-- A halted core performs no step (30_encoding.md R50 item 1). -/
theorem coreTurn_halted (hh : s.halted = true) : coreTurn s = .next s := by
  unfold coreTurn
  cases s.phase <;> simp [hh]

/-- A pending IN is executed again (44_port_io.md R90(a)). -/
theorem coreTurn_pending (hp : s.phase = .run) (hh : s.halted = false) (hq : s.inPending = true) :
    coreTurn s = exec .input (s.setPending false) := by
  unfold coreTurn
  simp [hp, hh, hq]

/-- A halt request stops the core at the instruction boundary (30_encoding.md R50 item 2). -/
theorem coreTurn_halt (hp : s.phase = .run) (hh : s.halted = false) (hq : s.inPending = false)
    (hf : s.haltFlag = true) : coreTurn s = .next s.halt := by
  unfold coreTurn
  simp [hp, hh, hq, hf]

/-- At an instruction, with no halt requested, the core fetches (30_encoding.md R50 item 3). -/
theorem coreTurn_fetch (hp : s.phase = .run) (hh : s.halted = false) (hq : s.inPending = false)
    (hf : s.haltFlag = false) : coreTurn s = fetchExecute s := by
  unfold coreTurn
  simp [hp, hh, hq, hf]

/-- A step at an instruction that is fetched and decoded runs it. -/
theorem coreTurn_exec {i : Instr} (hp : s.phase = .run) (hh : s.halted = false) (hq : s.inPending = false)
    (hf : s.haltFlag = false) (hin : s.InImage s.ip) (hd : decode (s.img.read s.ip.toNat) = .ok i) :
    coreTurn s = exec i s := by
  unfold coreTurn fetchExecute
  rw [memRead_eq, if_pos hin]
  simp [hp, hh, hq, hf, hd]

/-- An invariant of every step: kept when a turn is taken off the schedule, by every host move, and by every turn of the
core. -/
theorem step_keeps {P : State → Prop} (ht : ∀ s ts, P s → P (s.setTurns ts)) (hm : ∀ m s, P s → P (hostMove m s))
    (hc : ∀ s t, s.build.legal = true → P s → coreTurn s = .next t → P t) (hs : P s) (h : step s = .next t) : P t := by
  obtain ⟨hl, ⟨_, h⟩ | ⟨m, ts, _, rfl⟩ | ⟨p, ts, _, rfl⟩⟩ := step_cases h
  · exact hc _ _ (by exact hl) (ht _ _ hs) h
  · exact hm _ _ (ht _ _ hs)
  · exact clockEdge_keeps hm p (ht _ _ hs)

/-- A run unfolds step by step, whatever the machine. -/
theorem core_run_succ (M : Host.Core) (k : Nat) (u : M.State) : M.run (k + 1) u =
    match M.step u with
    | .next v => M.run k v
    | .fault r => .fault r
    | .refused r => .refused r := rfl

/-- A run whose first step answers a next state goes on from it. -/
theorem run_step (k : Nat) (h : step s = .next t) :
    Host.Core.run Sys2Proof.core (k + 1) s = Host.Core.run Sys2Proof.core k t := by
  refine (core_run_succ Sys2Proof.core k s).trans ?_
  rw [show Sys2Proof.core.step s = .next t from h]

/-- A run of one step is that step. -/
theorem run_one (s : State) : Host.Core.run Sys2Proof.core 1 s = step s := by
  refine (core_run_succ Sys2Proof.core 0 s).trans ?_
  rw [show Sys2Proof.core.step s = step s from rfl]
  cases step s <;> rfl

/-- The parts of a legal build (00_scope.md R4-R6). -/
theorem Build.legal_iff (b : Build) : b.legal = true ↔
    32 ≤ b.cellBits ∧ 1 ≤ b.imageCells ∧ b.imageCells ≤ 2 ^ (b.cellBits - 1) - 2 ∧ 1 ≤ b.dstackDepth ∧ 1 ≤ b.astackDepth := by
  simp [Build.legal, and_assoc]

/-- "Every valid address, and ip+1 and ip+2 for every valid ip, is a non-negative cell value computed without overflow"
(00_scope.md R5). -/
theorem fits_of_inImage (hl : s.build.legal = true) {a : Int} (h0 : 0 ≤ a)
    (hC : a ≤ (s.build.imageCells : Int) + 1) : Fits s.build.cellBits a := by
  obtain ⟨h32, h1, h2, -, -⟩ := (Build.legal_iff _).mp hl
  have hp : 2 ^ 2 ≤ 2 ^ (s.build.cellBits - 1) := Nat.pow_le_pow_right (by norm_num) (by omega)
  unfold Fits minCell maxCell
  generalize 2 ^ (s.build.cellBits - 1) = p at *
  constructor <;> omega

end Machine

end Sys2Proof
end

