-- ==== Sys2Proof/Tests/Slice0.lean ====
section
/-! SUPPORT. Tests of the model: ill-formed terms the checks refuse, instruction words written out from 30_encoding.md, one
step per instruction with the expected values of 95_test_vectors.md (its vector in each comment), and for every statement
with hypotheses a witness that they can be met. -/

namespace Sys2Proof.Tests

open Sys2Proof Sys2Proof.Machine

/-! ### WellFormed: one ill-formed term per check -/

/-- 00_scope.md R4: W = 31 is no legal width. -/
theorem test_width_below_32_refused : Build.legal ⟨31, 16, 4, 4⟩ = false := by decide

/-- R5: an Image of no cell. -/
theorem test_empty_image_refused : Build.legal ⟨32, 0, 4, 4⟩ = false := by decide

/-- R5: C = 2^(W-1) - 1 is one too many, C = 2^(W-1) - 2 the most. -/
theorem test_image_too_large_refused :
    Build.legal ⟨32, 2147483647, 4, 4⟩ = false ∧ Build.legal ⟨32, 2147483646, 4, 4⟩ = true := by decide

/-- R6: a data stack of depth 0. -/
theorem test_no_data_stack_refused : Build.legal ⟨32, 16, 0, 4⟩ = false := by decide

/-- R6: an address stack of depth 0. -/
theorem test_no_address_stack_refused : Build.legal ⟨32, 16, 4, 0⟩ = false := by decide

/-- 30_encoding.md R46: a format-Z instruction with an operand. -/
theorem test_operand_on_format_z_refused : Line.wellFormed 32 ⟨.add, some 1⟩ = false := by decide

/-- R46: a format-I instruction without one. -/
theorem test_missing_operand_refused : Line.wellFormed 32 ⟨.lit, none⟩ = false := by decide

/-- R4, R46: an operand that is no cell of 32 bits, and the greatest that is. -/
theorem test_operand_out_of_range_refused :
    Line.wellFormed 32 ⟨.lit, some 2147483648⟩ = false ∧
      Line.wellFormed 32 ⟨.lit, some 2147483647⟩ = true := by decide

/-! ### Decoding: the words of 30_encoding.md R49, bit by bit -/

/-- The words of 40_stack.md R58 to R64. -/
theorem test_decode_stack_words :
    decodeTableWord 32 0b00000000000000000000000000000000 = some .nop ∧
    decodeTableWord 32 0b00000000000000000000000000000001 = some .lit ∧
    decodeTableWord 32 0b00000000000000000000000000000010 = some .dup ∧
    decodeTableWord 32 0b00000000000000000000000000000011 = some .drop ∧
    decodeTableWord 32 0b00000000000000000000000000000100 = some .swap ∧
    decodeTableWord 32 0b00000000000000000000000000000101 = some .push ∧
    decodeTableWord 32 0b00000000000000000000000000000110 = some .pop := by decide

/-- The words of 41_control.md R66 to R73. -/
theorem test_decode_control_words :
    decodeTableWord 32 0b00000000000000000000000000000111 = some .call ∧
    decodeTableWord 32 0b00000000000000000000000000001000 = some .jump ∧
    decodeTableWord 32 0b00000000000000000000000000001001 = some .ret ∧
    decodeTableWord 32 0b00000000000000000000000000001010 = some .gtJump ∧
    decodeTableWord 32 0b00000000000000000000000000001011 = some .ltJump ∧
    decodeTableWord 32 0b00000000000000000000000000001100 = some .neJump ∧
    decodeTableWord 32 0b00000000000000000000000000001101 = some .eqJump ∧
    decodeTableWord 32 0b00000000000000000000000000011001 = some .zeroExit := by decide

/-- The words of 42_memory_access.md R74, R75. -/
theorem test_decode_memory_words :
    decodeTableWord 32 0b00000000000000000000000000001110 = some .fetch ∧
    decodeTableWord 32 0b00000000000000000000000000001111 = some .store := by decide

/-- The words of 43_arith_logic.md R77 to R87. -/
theorem test_decode_arithmetic_words :
    decodeTableWord 32 0b00000000000000000000000000010000 = some .add ∧
    decodeTableWord 32 0b00000000000000000000000000010001 = some .sub ∧
    decodeTableWord 32 0b00000000000000000000000000010010 = some .mul ∧
    decodeTableWord 32 0b00000000000000000000000000010011 = some .divmod ∧
    decodeTableWord 32 0b00000000000000000000000000010100 = some .and ∧
    decodeTableWord 32 0b00000000000000000000000000010101 = some .or ∧
    decodeTableWord 32 0b00000000000000000000000000010110 = some .xor ∧
    decodeTableWord 32 0b00000000000000000000000000010111 = some .shl ∧
    decodeTableWord 32 0b00000000000000000000000000011000 = some .shr ∧
    decodeTableWord 32 0b00000000000000000000000000011010 = some .inc ∧
    decodeTableWord 32 0b00000000000000000000000000011011 = some .dec := by decide

/-- The words of 44_port_io.md R90 to R94. -/
theorem test_decode_port_words :
    decodeTableWord 32 0b00000000000000000000000000011100 = some .input ∧
    decodeTableWord 32 0b00000000000000000000000000011101 = some .output ∧
    decodeTableWord 32 0b00000000000000000000000000011110 = some .wait := by decide

/-- A format-I row with its operand cell -1 above the opcode cell (R46): LIT -1. -/
theorem test_decode_two_cells :
    decodeTableWord 64 0b1111111111111111111111111111111100000000000000000000000000000001 = some .lit := by decide

/-- 31, -1 and MIN are illegal cells (R53; vectors V133 to V135). -/
theorem test_illegal_cells_refused :
    decodeTableWord 32 0b00000000000000000000000000011111 = none ∧
    decodeTableWord 32 0b11111111111111111111111111111111 = none ∧
    decodeTableWord 32 0b10000000000000000000000000000000 = none := by decide

/-- R56: the assembler text of scenario S1 is the image `[1, 5, 16, 29, 30]` (95_test_vectors.md E8). -/
theorem test_assemble_s1 :
    assemble [⟨.lit, some 5⟩, ⟨.add, none⟩, ⟨.output, none⟩, ⟨.wait, none⟩] = [1, 5, 16, 29, 30] := by decide

/-! ### One step, from the state the vectors of 95_test_vectors.md section 2 start in -/

/-- W = 32, C = 16, both depths 4: `cells` from address `at_` on, `ip`, the data and the address stack, top first. -/
def start (at_ : Nat) (cells : List Int) (ip : Int) (d a : List Int) : State :=
  { State.reset with
    build := ⟨32, 16, 4, 4⟩, img := Memory.ofCells at_ cells, ip := ip, dstack := d, astack := a, phase := .run }

/-- The state after one step. -/
def after (s : State) : Option State :=
  match step s with
  | .next t => some t
  | .fault _ => none
  | .refused _ => none

/-- The stacks and `ip` after one step. -/
def shown (s : State) : Option (Int × List Int × List Int) := (after s).map fun t => (t.ip, t.dstack, t.astack)

/-- The fault record of 60_exceptions.md R111 on an otherwise unchanged state. -/
def faulted (s : State) (k : FaultKind) (ip : Int) : State := { s with halted := true, faultKind := k, faultIp := ip }

/-- V1. -/
theorem test_nop :
    shown (start 0 [] 0 [] []) = some (1, [], []) := by decide

/-- V2. -/
theorem test_lit :
    shown (start 0 [1, -3] 0 [] []) = some (2, [-3], []) := by decide

/-- V5: the read is tested first. -/
theorem test_lit_reads_before_it_pushes :
    after (start 15 [1] 15 [4, 3, 2, 1] []) = some (faulted (start 15 [1] 15 [4, 3, 2, 1] []) .outOfBounds 15) := by decide

/-- V6. -/
theorem test_dup :
    shown (start 0 [2] 0 [9] []) = some (1, [9, 9], []) := by decide

/-- V8. -/
theorem test_dup_full :
    after (start 0 [2] 0 [4, 3, 2, 1] []) = some (faulted (start 0 [2] 0 [4, 3, 2, 1] []) .stackOverflow 0) := by decide

/-- V9. -/
theorem test_drop :
    shown (start 0 [3] 0 [2, 1] []) = some (1, [1], []) := by decide

/-- V11. -/
theorem test_swap :
    shown (start 0 [4] 0 [3, 2, 1] []) = some (1, [2, 3, 1], []) := by decide

/-- V12: the first pop is rolled back. -/
theorem test_swap_rolls_back :
    after (start 0 [4] 0 [1] []) = some (faulted (start 0 [4] 0 [1] []) .stackUnderflow 0) := by decide

/-- V13. -/
theorem test_push :
    shown (start 0 [5] 0 [2, 1] [8]) = some (1, [1], [2, 8]) := by decide

/-- V16: both conditions hold, underflow first. -/
theorem test_push_underflow_first :
    after (start 0 [5] 0 [] [4, 3, 2, 1]) = some (faulted (start 0 [5] 0 [] [4, 3, 2, 1]) .stackUnderflow 0) := by decide

/-- V17. -/
theorem test_pop :
    shown (start 0 [6] 0 [1] [9, 8]) = some (1, [9, 1], [8]) := by decide

/-- V19: the address stack keeps its cell. -/
theorem test_pop_full :
    after (start 0 [6] 0 [4, 3, 2, 1] [7]) = some (faulted (start 0 [6] 0 [4, 3, 2, 1] [7]) .stackOverflow 0) := by decide

/-- V20: it pushes the address of its own operand cell. -/
theorem test_call :
    shown (start 2 [7, 8] 2 [] []) = some (8, [], [3]) := by decide

/-- V22: the push is undone. -/
theorem test_call_rolls_back :
    after (start 15 [7] 15 [] []) = some (faulted (start 15 [7] 15 [] []) .outOfBounds 15) := by decide

/-- V25: an absolute target. -/
theorem test_jump :
    shown (start 2 [8] 2 [] []) = some (0, [], []) := by decide

/-- V26. -/
theorem test_jump_target_not_checked :
    shown (start 0 [8, 99] 0 [] []) = some (99, [], []) := by decide

/-- V31: any value is accepted. -/
theorem test_return :
    shown (start 0 [9] 0 [] [-1, 5]) = some (-1, [], [5]) := by decide

/-- V35. -/
theorem test_gt_jump_max_min :
    shown (start 0 [10, 20] 0 [-2147483648, 2147483647] []) = some (20, [], []) := by decide

/-- V38: the operand cell does not exist and is not read. -/
theorem test_gt_jump_not_taken_reads_nothing :
    shown (start 15 [10] 15 [5, 3] []) = some (17, [], []) := by decide

/-- V39: signed. -/
theorem test_lt_jump :
    shown (start 0 [11, 20] 0 [0, -1] []) = some (20, [], []) := by decide

/-- V40. -/
theorem test_lt_jump_not_taken :
    shown (start 6 [11, 20] 6 [3, 5] []) = some (8, [], []) := by decide

/-- V42 with operand 9 (E4 row 1, 0). -/
theorem test_ne_jump :
    shown (start 4 [12, 9] 4 [0, 1] []) = some (9, [], []) := by decide

/-- V43. -/
theorem test_ne_jump_equal :
    shown (start 0 [12, 9] 0 [0, 0] []) = some (2, [], []) := by decide

/-- V44. -/
theorem test_eq_jump :
    shown (start 0 [13, 30] 0 [4, 4] []) = some (30, [], []) := by decide

/-- V45. -/
theorem test_eq_jump_not_equal :
    shown (start 0 [13, 30] 0 [-4, 4] []) = some (2, [], []) := by decide

/-- V47: the 1 is consumed, the address stack untouched. -/
theorem test_zero_exit_non_zero :
    shown (start 12 [25] 12 [1, 7] [3]) = some (13, [7], [3]) := by decide

/-- V48: the 0 stays. -/
theorem test_zero_exit_no_return_address :
    after (start 0 [25] 0 [0] []) = some (faulted (start 0 [25] 0 [0] []) .stackUnderflow 0) := by decide

/-- V56. -/
theorem test_fetch_last_cell :
    shown (start 0 [14, 0, 0, 0, 0, 0, 0, 0, 0, 0, 0, 0, 0, 0, 0, -9] 0 [15] []) = some (1, [-9], []) := by decide

/-- V52. -/
theorem test_fetch_at_capacity :
    after (start 0 [14] 0 [16] []) = some (faulted (start 0 [14] 0 [16] []) .outOfBounds 0) := by decide

/-- V57: 42 is the value, 9 the address. -/
theorem test_store :
    (after (start 0 [15] 0 [9, 42] [])).map (fun t => (t.ip, t.dstack, t.img)) = some (1, [], [(0, 15), (9, 42)]) := by
  decide

/-- V60: one cell and a bad address, underflow first. -/
theorem test_store_underflow_first :
    after (start 0 [15] 0 [16] []) = some (faulted (start 0 [15] 0 [16] []) .stackUnderflow 0) := by decide

/-- V64. -/
theorem test_add_wraps :
    shown (start 0 [16] 0 [1, 2147483647] []) = some (1, [-2147483648], []) := by decide

/-- V69: b - a. -/
theorem test_sub_order :
    shown (start 0 [17] 0 [7, 2] []) = some (1, [-5], []) := by decide

/-- V75. -/
theorem test_mul_wraps :
    shown (start 0 [18] 0 [2, 2147483647] []) = some (1, [-2], []) := by decide

/-- V78. -/
theorem test_divmod_truncates :
    shown (start 0 [19] 0 [2, -7] []) = some (1, [-3, -1], []) := by decide

/-- V83. -/
theorem test_divmod_min_by_minus_one :
    shown (start 0 [19] 0 [-1, -2147483648] []) = some (1, [-2147483648, 0], []) := by decide

/-- V91. -/
theorem test_and :
    shown (start 0 [20] 0 [6, -4] []) = some (1, [4], []) := by decide

/-- V94. -/
theorem test_or :
    shown (start 0 [21] 0 [2147483647, -2147483648] []) = some (1, [-1], []) := by decide

/-- V96. -/
theorem test_xor :
    shown (start 0 [22] 0 [-1, 5] []) = some (1, [-6], []) := by decide

/-- V100. -/
theorem test_shl_drops_the_top :
    shown (start 0 [23] 0 [31, 3] []) = some (1, [-2147483648], []) := by decide

/-- V103. -/
theorem test_shl_by_the_width :
    shown (start 0 [23] 0 [32, 1] []) = some (1, [0], []) := by decide

/-- V108. -/
theorem test_shr_is_logical :
    shown (start 0 [24] 0 [1, -8] []) = some (1, [2147483644], []) := by decide

/-- V112. -/
theorem test_shr_negative_amount :
    shown (start 0 [24] 0 [-1, -1] []) = some (1, [0], []) := by decide

/-- V115. -/
theorem test_inc_wraps :
    shown (start 0 [26] 0 [2147483647] []) = some (1, [-2147483648], []) := by decide

/-- V119. -/
theorem test_dec_wraps :
    shown (start 0 [27] 0 [-2147483648] []) = some (1, [2147483647], []) := by decide

/-- V123: zero-extended, not -1. -/
theorem test_in_zero_extends :
    (after { start 0 [28] 0 [] [] with inValid := true, inByte := 255 }).map (fun t => (t.ip, t.dstack, t.inValid)) =
      some (1, [255], false) := by decide

/-- V125: no byte, no halt request: the IN waits, and in_wait is high (45_interfaces.md R101). -/
theorem test_in_waits :
    (after (start 0 [28] 0 [] [])).map (fun t => (t.ip, t.dstack, t.inWait)) = some (0, [], true) := by decide

/-- V130: the whole cell. -/
theorem test_out :
    (after (start 0 [29] 0 [70000, 1] [])).map (fun t => (t.ip, t.dstack, t.outSeq)) = some (1, [1], [70000]) := by decide

/-- V132. -/
theorem test_wait :
    (after (start 4 [30] 4 [1] [2])).map (fun t => (t.ip, t.dstack, t.waitCount)) = some (5, [1], 1) := by decide

/-- V138. -/
theorem test_fetch_out_of_range : after (start 0 [] (-1) [] []) = some (faulted (start 0 [] (-1) [] []) .outOfBounds (-1)) := by
  decide

/-- V133. -/
theorem test_invalid_opcode : after (start 0 [31] 0 [] []) = some (faulted (start 0 [31] 0 [] []) .invalidOpcode 0) := by
  decide

/-- V140: the halt check precedes the fetch. -/
theorem test_halt_before_fetch :
    (after { start 0 [31] 0 [] [] with haltFlag := true }).map (fun t => (t.halted, t.faultKind, t.ip)) =
      some (true, .none, 0) := by decide

/-- With CELL_BITS = 64, 65536 * 65536 = 4294967296 (section 2, Width). -/
theorem test_mul_of_64_bits :
    shown { start 0 [18] 0 [65536, 65536] [] with build := ⟨64, 16, 4, 4⟩ } = some (1, [4294967296], []) := by decide

/-- With CELL_BITS = 64, -1 >> 1 = 9223372036854775807 (section 2, Width). -/
theorem test_shr_of_64_bits :
    shown { start 0 [24] 0 [1, -1] [] with build := ⟨64, 16, 4, 4⟩ } = some (1, [9223372036854775807], []) := by decide

/-- A row's word placed where the next step fetches is run as the first instruction after reset: WAIT (R94). -/
theorem test_placed_word_runs :
    (after (State.reset.withFetchWord 32 30)).map (fun t => (t.ip, t.waitCount)) = some (1, 1) := by decide

/-- The same of a format-I word, its operand cell of zeros: LIT pushes 0 (R59). -/
theorem test_placed_lit_runs :
    (after (State.reset.withFetchWord 32 1)).map (fun t => (t.ip, t.dstack)) = some (2, [0]) := by decide

/-! ### The host's moves -/

/-- E6: a payload of L = C loads exactly, and one of L > C fails construction. -/
theorem test_boot_limits :
    ((boot ⟨32, 5, 4, 4⟩ [1, 5, 16, 29, 30]).phase, (boot ⟨32, 5, 4, 4⟩ [1, 5, 16, 29, 30]).img) =
      (Phase.run, [(0, 1), (1, 5), (2, 16), (3, 29), (4, 30)]) ∧
    ((boot ⟨32, 4, 4, 4⟩ [1, 5, 16, 29, 30]).halted, (boot ⟨32, 4, 4, 4⟩ [1, 5, 16, 29, 30]).faultKind.code) =
      (true, 1) := by decide

/-- 45_interfaces.md R96: rst has priority over every other input. -/
theorem test_reset_has_priority :
    ((clockEdge ⟨true, true, 7, true, true, 9, true⟩ (start 0 [31] 3 [1] [2])).haltFlag,
      (clockEdge ⟨true, true, 7, true, true, 9, true⟩ (start 0 [31] 3 [1] [2])).phase,
      (clockEdge ⟨true, true, 7, true, true, 9, true⟩ (start 0 [31] 3 [1] [2])).loadPtr) = (false, Phase.load, 0) := by decide

/-- R98: a cell offered in the same clock as ld_start is ignored. -/
theorem test_cell_with_start_ignored :
    ((clockEdge ⟨false, true, 7, true, false, 0, false⟩ State.reset).phase,
      (clockEdge ⟨false, true, 7, true, false, 0, false⟩ State.reset).loadPtr) = (Phase.run, 0) := by decide

/-- 45_interfaces.md R103, R105: OUT drives out_valid with the whole cell, WAIT the wait strobe, and neither the other. -/
theorem test_strobes :
    ((after (start 0 [29] 0 [-1] [])).map fun t => (outStrobe (start 0 [29] 0 [-1] []) t, waitStrobe (start 0 [29] 0 [-1] []) t)) =
      some (some (-1), false) ∧
    ((after (start 0 [30] 0 [] [])).map fun t => (outStrobe (start 0 [30] 0 [] []) t, waitStrobe (start 0 [30] 0 [] []) t)) =
      some (none, true) := by decide

/-- R104: a fault and its ip on the status pins (V87), and how the run ended. -/
theorem test_status_of_a_fault :
    (after (start 0 [19] 0 [0, 5] [])).map (fun t => (t.statusPins, t.runEnd)) =
      some (⟨true, false, true, 6, 0⟩, .faulted .divisionByZero 0) := by decide

/-- R106: Take output observes the cells in emission order. -/
theorem test_take_output :
    (nextOutput 0 { State.reset with outSeq := [72, 73] }, nextOutput 1 { State.reset with outSeq := [72, 73] },
      nextOutput 2 { State.reset with outSeq := [72, 73] }) = (some 72, some 73, none) := by decide

/-! ### Witnesses: the hypotheses of each statement, at the ends of their ranges -/

/-- A state of the witness below. -/
def stateLitPushesTheOperandCellA : State := start 0 [] 14 [1, 2, 3, 4] []

/-- A state of the witness below. -/
def stateLitPushesTheOperandCellB : State := start 0 [] 14 [1, 2, 3] []

/-- The hypotheses of LitPushesTheOperandCell can be met. -/
theorem test_witness_LitPushesTheOperandCell :
    (stateLitPushesTheOperandCellB.InImage (14 + 1) ∧
      stateLitPushesTheOperandCellB.dstack.length ≠ stateLitPushesTheOperandCellB.build.dstackDepth) ∧
    ((start 0 [] (-1) [] []).InImage (-1 + 1)) ∧
    (¬ (start 0 [] 15 [1, 2, 3, 4] []).InImage (15 + 1) ∧ ¬ (start 0 [] (-2) [] []).InImage (-2 + 1)) ∧
    (stateLitPushesTheOperandCellA.InImage (14 + 1) ∧
      stateLitPushesTheOperandCellA.dstack.length = stateLitPushesTheOperandCellA.build.dstackDepth) := by
  decide

/-- A state of the witness below. -/
def stateDupPushesTheTopA : State := start 0 [] 0 [1, 2, 3, 4] []

/-- A state of the witness below. -/
def stateDupPushesTheTopB : State := start 0 [] 0 [1, 2, 3] []

/-- The hypotheses of DupPushesTheTop can be met. -/
theorem test_witness_DupPushesTheTop :
    (stateDupPushesTheTopB.dstack = 1 :: [2, 3] ∧
      stateDupPushesTheTopB.dstack.length ≠ stateDupPushesTheTopB.build.dstackDepth) ∧
    ((start 0 [] 0 [] []).dstack = []) ∧
    (stateDupPushesTheTopA.dstack = 1 :: [2, 3, 4] ∧
      stateDupPushesTheTopA.dstack.length = stateDupPushesTheTopA.build.dstackDepth) := by
  decide

/-- The hypotheses of DropDiscardsTheTop can be met. -/
theorem test_witness_DropDiscardsTheTop :
    ((start 0 [] 0 [1] []).dstack = 1 :: []) ∧
    ((start 0 [] 0 [] []).dstack = []) := by
  decide

/-- A state of the witness below. -/
def stateSwapExchangesTheTopTwoA : State := start 0 [] 0 [1, 2, 3, 4] []

/-- The hypotheses of SwapExchangesTheTopTwo can be met. -/
theorem test_witness_SwapExchangesTheTopTwo :
    (stateSwapExchangesTheTopTwoA.dstack = 1 :: 2 :: [3, 4] ∧
      stateSwapExchangesTheTopTwoA.dstack.length ≤ stateSwapExchangesTheTopTwoA.build.dstackDepth) ∧
    ((start 0 [] 0 [1] []).dstack.length < 2 ∧ (start 0 [] 0 [] []).dstack.length < 2) := by
  decide

/-- A state of the witness below. -/
def statePushMovesToTheAddressStackA : State := start 0 [] 0 [7] [1, 2, 3, 4]

/-- A state of the witness below. -/
def statePushMovesToTheAddressStackB : State := start 0 [] 0 [7] [1, 2, 3]

/-- The hypotheses of PushMovesToTheAddressStack can be met. -/
theorem test_witness_PushMovesToTheAddressStack :
    (statePushMovesToTheAddressStackB.dstack = 7 :: [] ∧
      statePushMovesToTheAddressStackB.astack.length ≠ statePushMovesToTheAddressStackB.build.astackDepth) ∧
    ((start 0 [] 0 [] []).dstack = []) ∧
    (statePushMovesToTheAddressStackA.dstack = 7 :: [] ∧
      statePushMovesToTheAddressStackA.astack.length = statePushMovesToTheAddressStackA.build.astackDepth) := by
  decide

/-- A state of the witness below. -/
def statePopMovesToTheDataStackA : State := start 0 [] 0 [1, 2, 3, 4] [7]

/-- A state of the witness below. -/
def statePopMovesToTheDataStackB : State := start 0 [] 0 [1, 2, 3] [7]

/-- The hypotheses of PopMovesToTheDataStack can be met. -/
theorem test_witness_PopMovesToTheDataStack :
    (statePopMovesToTheDataStackB.astack = 7 :: [] ∧
      statePopMovesToTheDataStackB.dstack.length ≠ statePopMovesToTheDataStackB.build.dstackDepth) ∧
    ((start 0 [] 0 [] []).astack = []) ∧
    (statePopMovesToTheDataStackA.astack = 7 :: [] ∧
      statePopMovesToTheDataStackA.dstack.length = statePopMovesToTheDataStackA.build.dstackDepth) := by
  decide

/-- A state of the witness below. -/
def stateCallSavesItsOperandAddressA : State := start 0 [] 15 [] [1, 2, 3]

/-- A state of the witness below. -/
def stateCallSavesItsOperandAddressB : State := start 0 [] 14 [] [1, 2, 3]

/-- The hypotheses of CallSavesItsOperandAddress can be met. -/
theorem test_witness_CallSavesItsOperandAddress :
    (stateCallSavesItsOperandAddressB.astack.length ≠ stateCallSavesItsOperandAddressB.build.astackDepth ∧
      stateCallSavesItsOperandAddressB.InImage (14 + 1)) ∧
    ((start 0 [] 14 [] [1, 2, 3, 4]).astack.length = (start 0 [] 14 [] [1, 2, 3, 4]).build.astackDepth) ∧
    (stateCallSavesItsOperandAddressA.astack.length ≠ stateCallSavesItsOperandAddressA.build.astackDepth ∧
      ¬ stateCallSavesItsOperandAddressA.InImage (15 + 1)) := by
  decide

/-- The hypotheses of JumpSetsIpToTheOperand can be met. -/
theorem test_witness_JumpSetsIpToTheOperand :
    ((start 0 [] 14 [] [1, 2, 3]).InImage (14 + 1)) ∧
    (¬ (start 0 [] 15 [] [1, 2, 3]).InImage (15 + 1)) := by
  decide

/-- The hypotheses of ReturnSetsIpToThePoppedCell can be met. -/
theorem test_witness_ReturnSetsIpToThePoppedCell :
    ((start 0 [] 0 [7] [1, 2, 3, 4]).astack = 1 :: [2, 3, 4]) ∧
    ((start 0 [] 0 [] []).astack = []) := by
  decide

/-- The hypotheses of GtJumpComparesTheTopTwo can be met. -/
theorem test_witness_GtJumpComparesTheTopTwo :
    ((start 0 [] 14 [-1, 0] []).dstack = -1 :: 0 :: [] ∧ (0 : Int) > -1 ∧
      (start 0 [] 14 [-1, 0] []).InImage (14 + 1)) ∧
    ((start 0 [] 15 [-1, 0] []).dstack = -1 :: 0 :: [] ∧ (0 : Int) > -1 ∧
      ¬ (start 0 [] 15 [-1, 0] []).InImage (15 + 1)) ∧
    ((start 0 [] 15 [3, 3] []).dstack = 3 :: 3 :: [] ∧ (3 : Int) ≤ 3) ∧
    ((start 0 [] 0 [1] []).dstack.length < 2 ∧ (start 0 [] 0 [] []).dstack.length < 2) := by
  decide

/-- The hypotheses of LtJumpComparesTheTopTwo can be met. -/
theorem test_witness_LtJumpComparesTheTopTwo :
    ((start 0 [] 14 [0, -1] []).dstack = 0 :: -1 :: [] ∧ (-1 : Int) < 0 ∧
      (start 0 [] 14 [0, -1] []).InImage (14 + 1)) ∧
    ((start 0 [] 15 [0, -1] []).dstack = 0 :: -1 :: [] ∧ (-1 : Int) < 0 ∧
      ¬ (start 0 [] 15 [0, -1] []).InImage (15 + 1)) ∧
    ((start 0 [] 15 [3, 3] []).dstack = 3 :: 3 :: [] ∧ (3 : Int) ≤ 3) ∧
    ((start 0 [] 0 [1] []).dstack.length < 2 ∧ (start 0 [] 0 [] []).dstack.length < 2) := by
  decide

/-- The hypotheses of NeJumpComparesTheTopTwo can be met. -/
theorem test_witness_NeJumpComparesTheTopTwo :
    ((start 0 [] 14 [0, -1] []).dstack = 0 :: -1 :: [] ∧ (-1 : Int) ≠ 0 ∧
      (start 0 [] 14 [0, -1] []).InImage (14 + 1)) ∧
    ((start 0 [] 15 [0, -1] []).dstack = 0 :: -1 :: [] ∧ (-1 : Int) ≠ 0 ∧
      ¬ (start 0 [] 15 [0, -1] []).InImage (15 + 1)) ∧
    ((start 0 [] 15 [3, 3] []).dstack = 3 :: 3 :: [] ∧ (3 : Int) = 3) ∧
    ((start 0 [] 0 [1] []).dstack.length < 2 ∧ (start 0 [] 0 [] []).dstack.length < 2) := by
  decide

/-- The hypotheses of EqJumpComparesTheTopTwo can be met. -/
theorem test_witness_EqJumpComparesTheTopTwo :
    ((start 0 [] 14 [3, 3] []).dstack = 3 :: 3 :: [] ∧ (3 : Int) = 3 ∧ (start 0 [] 14 [3, 3] []).InImage (14 + 1)) ∧
    ((start 0 [] 15 [3, 3] []).dstack = 3 :: 3 :: [] ∧ (3 : Int) = 3 ∧ ¬ (start 0 [] 15 [3, 3] []).InImage (15 + 1)) ∧
    ((start 0 [] 15 [0, -1] []).dstack = 0 :: -1 :: [] ∧ (-1 : Int) ≠ 0) ∧
    ((start 0 [] 0 [1] []).dstack.length < 2 ∧ (start 0 [] 0 [] []).dstack.length < 2) := by
  decide

/-- The hypotheses of ZeroExitReturnsOnZero can be met. -/
theorem test_witness_ZeroExitReturnsOnZero :
    ((start 0 [] 0 [0] [5]).dstack = 0 :: [] ∧ (start 0 [] 0 [0] [5]).astack = 5 :: []) ∧
    ((start 0 [] 0 [0] []).dstack = 0 :: [] ∧ (start 0 [] 0 [0] []).astack = []) ∧
    ((start 0 [] 0 [-1] []).dstack = -1 :: [] ∧ (-1 : Int) ≠ 0) ∧
    ((start 0 [] 0 [] []).dstack = []) := by
  decide

/-- A state of the witness below. -/
def stateFetchReadsTheAddressedCellA : State := start 0 [] 0 [15, 1, 2, 3] []

/-- The hypotheses of FetchReadsTheAddressedCell can be met. -/
theorem test_witness_FetchReadsTheAddressedCell :
    (stateFetchReadsTheAddressedCellA.dstack = 15 :: [1, 2, 3] ∧
      stateFetchReadsTheAddressedCellA.dstack.length ≤ stateFetchReadsTheAddressedCellA.build.dstackDepth ∧
      stateFetchReadsTheAddressedCellA.InImage 15) ∧
    ((start 0 [] 0 [16] []).dstack = 16 :: [] ∧ ¬ (start 0 [] 0 [16] []).InImage 16) ∧
    ((start 0 [] 0 [-1] []).dstack = -1 :: [] ∧ ¬ (start 0 [] 0 [-1] []).InImage (-1)) ∧
    ((start 0 [] 0 [] []).dstack = []) := by
  decide

/-- A state of the witness below. -/
def stateStoreWritesTheAddressedCellA : State := start 0 [15] 0 [15, 0] []

/-- A state of the witness below. -/
def stateStoreWritesTheAddressedCellB : State := start 0 [15] 0 [0, 7] []

/-- The hypotheses of StoreWritesTheAddressedCell can be met. -/
theorem test_witness_StoreWritesTheAddressedCell :
    (stateStoreWritesTheAddressedCellA.dstack = 15 :: 0 :: [] ∧ stateStoreWritesTheAddressedCellA.InImage 15 ∧
      stateStoreWritesTheAddressedCellA.img.wf) ∧
    (stateStoreWritesTheAddressedCellB.dstack = 0 :: 7 :: [] ∧ stateStoreWritesTheAddressedCellB.InImage 0 ∧
      stateStoreWritesTheAddressedCellB.img.wf) ∧
    ((start 0 [15] 0 [16, 7] []).dstack = 16 :: 7 :: [] ∧ ¬ (start 0 [15] 0 [16, 7] []).InImage 16) ∧
    ((start 0 [] 0 [1] []).dstack.length < 2 ∧ (start 0 [] 0 [] []).dstack.length < 2) := by
  decide

/-- A state of the witness below. -/
def stateAddPushesTheWrappedSumA : State := start 0 [] 0 [1, 2, 3, 4] []

/-- The hypotheses of AddPushesTheWrappedSum can be met. -/
theorem test_witness_AddPushesTheWrappedSum :
    (stateAddPushesTheWrappedSumA.dstack = 1 :: 2 :: [3, 4] ∧
      stateAddPushesTheWrappedSumA.dstack.length ≤ stateAddPushesTheWrappedSumA.build.dstackDepth) ∧
    (stateAddPushesTheWrappedSumA.build.legal = true) ∧
    ((start 0 [] 0 [1] []).dstack.length < 2 ∧ (start 0 [] 0 [] []).dstack.length < 2) := by
  decide

/-- A state of the witness below. -/
def stateSubPushesTheWrappedDifferenceA : State := start 0 [] 0 [1, 2, 3, 4] []

/-- The hypotheses of SubPushesTheWrappedDifference can be met. -/
theorem test_witness_SubPushesTheWrappedDifference :
    (stateSubPushesTheWrappedDifferenceA.dstack = 1 :: 2 :: [3, 4] ∧
      stateSubPushesTheWrappedDifferenceA.dstack.length ≤ stateSubPushesTheWrappedDifferenceA.build.dstackDepth) ∧
    (stateSubPushesTheWrappedDifferenceA.build.legal = true) ∧
    ((start 0 [] 0 [1] []).dstack.length < 2 ∧ (start 0 [] 0 [] []).dstack.length < 2) := by
  decide

/-- A state of the witness below. -/
def stateMulPushesTheWrappedProductA : State := start 0 [] 0 [1, 2, 3, 4] []

/-- The hypotheses of MulPushesTheWrappedProduct can be met. -/
theorem test_witness_MulPushesTheWrappedProduct :
    (stateMulPushesTheWrappedProductA.dstack = 1 :: 2 :: [3, 4] ∧
      stateMulPushesTheWrappedProductA.dstack.length ≤ stateMulPushesTheWrappedProductA.build.dstackDepth) ∧
    (stateMulPushesTheWrappedProductA.build.legal = true) ∧
    ((start 0 [] 0 [1] []).dstack.length < 2 ∧ (start 0 [] 0 [] []).dstack.length < 2) := by
  decide

/-- A state of the witness below. -/
def stateDivmodFollowsTheDivisionLawA : State := start 0 [] 0 [-2147483648, 2147483647] []

/-- A state of the witness below. -/
def stateDivmodFollowsTheDivisionLawB : State := start 0 [] 0 [-1, -2147483648] []

/-- The hypotheses of DivmodFollowsTheDivisionLaw can be met. -/
theorem test_witness_DivmodFollowsTheDivisionLaw :
    (stateDivmodFollowsTheDivisionLawB.dstack = -1 :: -2147483648 :: [] ∧
      stateDivmodFollowsTheDivisionLawB.dstack.length ≤ stateDivmodFollowsTheDivisionLawB.build.dstackDepth ∧
      stateDivmodFollowsTheDivisionLawB.build.legal = true ∧
      Fits stateDivmodFollowsTheDivisionLawB.build.cellBits (-1) ∧
      Fits stateDivmodFollowsTheDivisionLawB.build.cellBits (-2147483648) ∧ (-1 : Int) ≠ 0 ∧
      (-2147483648 : Int) = minCell stateDivmodFollowsTheDivisionLawB.build.cellBits) ∧
    (stateDivmodFollowsTheDivisionLawA.dstack = -2147483648 :: 2147483647 :: [] ∧
      stateDivmodFollowsTheDivisionLawA.dstack.length ≤ stateDivmodFollowsTheDivisionLawA.build.dstackDepth ∧
      stateDivmodFollowsTheDivisionLawA.build.legal = true ∧
      Fits stateDivmodFollowsTheDivisionLawA.build.cellBits (-2147483648) ∧
      Fits stateDivmodFollowsTheDivisionLawA.build.cellBits (2147483647) ∧ (-2147483648 : Int) ≠ 0 ∧
      ¬ ((2147483647 : Int) = minCell stateDivmodFollowsTheDivisionLawA.build.cellBits ∧ (-2147483648 : Int) = -1)) ∧
    ((start 0 [] 0 [0, 5] []).dstack = 0 :: 5 :: []) ∧
    ((start 0 [] 0 [1] []).dstack.length < 2 ∧ (start 0 [] 0 [] []).dstack.length < 2) := by
  decide

/-- A state of the witness below. -/
def stateBitwiseOpsActBitByBitA : State := start 0 [] 0 [1, 2, 3, 4] []

/-- The hypotheses of BitwiseOpsActBitByBit can be met. -/
theorem test_witness_BitwiseOpsActBitByBit :
    (stateBitwiseOpsActBitByBitA.dstack = 1 :: 2 :: [3, 4] ∧
      stateBitwiseOpsActBitByBitA.dstack.length ≤ stateBitwiseOpsActBitByBitA.build.dstackDepth) ∧
    ((start 0 [] 0 [1] []).dstack.length < 2 ∧ (start 0 [] 0 [] []).dstack.length < 2) := by
  decide

/-- A state of the witness below. -/
def stateShiftLeftDropsBitsAtTheTopA : State := start 0 [] 0 [32, -1] []

/-- A state of the witness below. -/
def stateShiftLeftDropsBitsAtTheTopB : State := start 0 [] 0 [31, -1] []

/-- A state of the witness below. -/
def stateShiftLeftDropsBitsAtTheTopC : State := start 0 [] 0 [-1, -1] []

/-- A state of the witness below. -/
def stateShiftLeftDropsBitsAtTheTopD : State := start 0 [] 0 [0, -1] []

/-- The hypotheses of ShiftLeftDropsBitsAtTheTop can be met. -/
theorem test_witness_ShiftLeftDropsBitsAtTheTop :
    (stateShiftLeftDropsBitsAtTheTopD.dstack = 0 :: -1 :: [] ∧
      stateShiftLeftDropsBitsAtTheTopD.dstack.length ≤ stateShiftLeftDropsBitsAtTheTopD.build.dstackDepth ∧
      stateShiftLeftDropsBitsAtTheTopD.build.legal = true ∧
      Fits stateShiftLeftDropsBitsAtTheTopD.build.cellBits (-1) ∧ 0 ≤ (0 : Int) ∧
      (0 : Int) < stateShiftLeftDropsBitsAtTheTopD.build.cellBits) ∧
    (stateShiftLeftDropsBitsAtTheTopB.dstack = 31 :: -1 :: [] ∧
      stateShiftLeftDropsBitsAtTheTopB.dstack.length ≤ stateShiftLeftDropsBitsAtTheTopB.build.dstackDepth ∧
      stateShiftLeftDropsBitsAtTheTopB.build.legal = true ∧
      Fits stateShiftLeftDropsBitsAtTheTopB.build.cellBits (-1) ∧ 0 ≤ (31 : Int) ∧
      (31 : Int) < stateShiftLeftDropsBitsAtTheTopB.build.cellBits) ∧
    (stateShiftLeftDropsBitsAtTheTopC.dstack = -1 :: -1 :: [] ∧
      stateShiftLeftDropsBitsAtTheTopC.dstack.length ≤ stateShiftLeftDropsBitsAtTheTopC.build.dstackDepth ∧
      ((-1 : Int) < 0 ∨ (stateShiftLeftDropsBitsAtTheTopC.build.cellBits : Int) ≤ -1)) ∧
    (stateShiftLeftDropsBitsAtTheTopA.dstack = 32 :: -1 :: [] ∧
      stateShiftLeftDropsBitsAtTheTopA.dstack.length ≤ stateShiftLeftDropsBitsAtTheTopA.build.dstackDepth ∧
      ((32 : Int) < 0 ∨ (stateShiftLeftDropsBitsAtTheTopA.build.cellBits : Int) ≤ 32)) ∧
    ((start 0 [] 0 [1] []).dstack.length < 2 ∧ (start 0 [] 0 [] []).dstack.length < 2) := by
  decide

/-- A state of the witness below. -/
def stateShiftRightIsLogicalA : State := start 0 [] 0 [32, -1] []

/-- A state of the witness below. -/
def stateShiftRightIsLogicalB : State := start 0 [] 0 [31, -1] []

/-- A state of the witness below. -/
def stateShiftRightIsLogicalC : State := start 0 [] 0 [-1, -1] []

/-- A state of the witness below. -/
def stateShiftRightIsLogicalD : State := start 0 [] 0 [0, -1] []

/-- The hypotheses of ShiftRightIsLogical can be met. -/
theorem test_witness_ShiftRightIsLogical :
    (stateShiftRightIsLogicalD.dstack = 0 :: -1 :: [] ∧
      stateShiftRightIsLogicalD.dstack.length ≤ stateShiftRightIsLogicalD.build.dstackDepth ∧
      stateShiftRightIsLogicalD.build.legal = true ∧ Fits stateShiftRightIsLogicalD.build.cellBits (-1) ∧
      0 ≤ (0 : Int) ∧ (0 : Int) < stateShiftRightIsLogicalD.build.cellBits) ∧
    (stateShiftRightIsLogicalB.dstack = 31 :: -1 :: [] ∧
      stateShiftRightIsLogicalB.dstack.length ≤ stateShiftRightIsLogicalB.build.dstackDepth ∧
      stateShiftRightIsLogicalB.build.legal = true ∧ Fits stateShiftRightIsLogicalB.build.cellBits (-1) ∧
      0 ≤ (31 : Int) ∧ (31 : Int) < stateShiftRightIsLogicalB.build.cellBits) ∧
    (stateShiftRightIsLogicalC.dstack = -1 :: -1 :: [] ∧
      stateShiftRightIsLogicalC.dstack.length ≤ stateShiftRightIsLogicalC.build.dstackDepth ∧
      ((-1 : Int) < 0 ∨ (stateShiftRightIsLogicalC.build.cellBits : Int) ≤ -1)) ∧
    (stateShiftRightIsLogicalA.dstack = 32 :: -1 :: [] ∧
      stateShiftRightIsLogicalA.dstack.length ≤ stateShiftRightIsLogicalA.build.dstackDepth ∧
      ((32 : Int) < 0 ∨ (stateShiftRightIsLogicalA.build.cellBits : Int) ≤ 32)) ∧
    ((start 0 [] 0 [1] []).dstack.length < 2 ∧ (start 0 [] 0 [] []).dstack.length < 2) := by
  decide

/-- A state of the witness below. -/
def stateIncAndDecWrapAtTheEndsA : State := start 0 [] 0 [-2147483648, 1, 2, 3] []

/-- A state of the witness below. -/
def stateIncAndDecWrapAtTheEndsB : State := start 0 [] 0 [2147483647, 1, 2, 3] []

/-- The hypotheses of IncAndDecWrapAtTheEnds can be met. -/
theorem test_witness_IncAndDecWrapAtTheEnds :
    (stateIncAndDecWrapAtTheEndsB.dstack = 2147483647 :: [1, 2, 3] ∧
      stateIncAndDecWrapAtTheEndsB.dstack.length ≤ stateIncAndDecWrapAtTheEndsB.build.dstackDepth ∧
      stateIncAndDecWrapAtTheEndsB.build.legal = true ∧
      Fits stateIncAndDecWrapAtTheEndsB.build.cellBits (2147483647)) ∧
    (stateIncAndDecWrapAtTheEndsA.dstack = -2147483648 :: [1, 2, 3] ∧
      stateIncAndDecWrapAtTheEndsA.dstack.length ≤ stateIncAndDecWrapAtTheEndsA.build.dstackDepth ∧
      stateIncAndDecWrapAtTheEndsA.build.legal = true ∧
      Fits stateIncAndDecWrapAtTheEndsA.build.cellBits (-2147483648)) ∧
    ((start 0 [] 0 [] []).dstack = []) := by
  decide

/-- A core that has fetched an IN, with the given slot and halt request. -/
def atIn (valid halt : Bool) (d : List Int) : State := { start 0 [28] 0 d [] with inValid := valid, inByte := 65, haltFlag := halt }

/-- A state of the witness below. -/
def stateInTakesWaitsOrHaltsA : State := atIn true true [1, 2, 3, 4]

/-- A state of the witness below. -/
def stateInTakesWaitsOrHaltsB : State := atIn true false [1, 2, 3]

/-- The hypotheses of InTakesWaitsOrHalts can be met. -/
theorem test_witness_InTakesWaitsOrHalts :
    (stateInTakesWaitsOrHaltsB.inValid = true ∧
      stateInTakesWaitsOrHaltsB.dstack.length ≠ stateInTakesWaitsOrHaltsB.build.dstackDepth) ∧
    (stateInTakesWaitsOrHaltsA.inValid = true ∧
      stateInTakesWaitsOrHaltsA.dstack.length = stateInTakesWaitsOrHaltsA.build.dstackDepth) ∧
    ((atIn false true []).inValid = false ∧ (atIn false true []).haltFlag = true) ∧
    ((atIn false false []).inValid = false ∧ (atIn false false []).haltFlag = false) := by
  decide

/-- The hypotheses of OutEmitsTheWholeCell can be met. -/
theorem test_witness_OutEmitsTheWholeCell :
    ((start 0 [] 0 [1] []).dstack = 1 :: []) ∧
    ((start 0 [] 0 [] []).dstack = []) := by
  decide

/-- The hypotheses of EncodedLinesDecodeBack can be met. -/
theorem test_witness_EncodedLinesDecodeBack :
    (Line.wellFormed 32 ⟨.lit, some (-2147483648)⟩ = true) ∧
    (Line.wellFormed 32 ⟨.wait, none⟩ = true) := by
  decide

/-- The hypotheses of DecodedLinesEncodeBack can be met. -/
theorem test_witness_DecodedLinesEncodeBack :
    (decodeLine [13, -1, 9] = .ok (⟨.eqJump, some (-1)⟩, [9])) ∧
    (decodeLine [0] = .ok (⟨.nop, none⟩, [])) := by
  decide

/-- A state of the witness below. -/
def stateStepRunsTheDecodedInstructionA : State := start 15 [30] 15 [] []

/-- The hypotheses of StepRunsTheDecodedInstruction can be met. -/
theorem test_witness_StepRunsTheDecodedInstruction :
    (stateStepRunsTheDecodedInstructionA.AtInstruction ∧ stateStepRunsTheDecodedInstructionA.CoreToMove ∧
      stateStepRunsTheDecodedInstructionA.InImage stateStepRunsTheDecodedInstructionA.ip ∧
      decode (stateStepRunsTheDecodedInstructionA.img.read stateStepRunsTheDecodedInstructionA.ip.toNat) = .ok .wait) := by
  decide

/-- A core in RUN with the given halt state. -/
def haltedCore (halted halt : Bool) : State := { start 0 [31] 0 [] [] with halted := halted, haltFlag := halt }

/-- A state of the witness below. -/
def stateHaltCheckPrecedesTheFetchA : State := haltedCore true false

/-- A state of the witness below. -/
def stateHaltCheckPrecedesTheFetchB : State := haltedCore false true

/-- The hypotheses of HaltCheckPrecedesTheFetch can be met. -/
theorem test_witness_HaltCheckPrecedesTheFetch :
    (stateHaltCheckPrecedesTheFetchA.build.legal = true ∧ stateHaltCheckPrecedesTheFetchA.CoreToMove ∧
      stateHaltCheckPrecedesTheFetchA.phase = .run ∧ stateHaltCheckPrecedesTheFetchA.halted = true) ∧
    (stateHaltCheckPrecedesTheFetchB.build.legal = true ∧ stateHaltCheckPrecedesTheFetchB.CoreToMove ∧
      stateHaltCheckPrecedesTheFetchB.phase = .run ∧ stateHaltCheckPrecedesTheFetchB.halted = false ∧
      stateHaltCheckPrecedesTheFetchB.inPending = false ∧
      stateHaltCheckPrecedesTheFetchB.haltFlag = true) := by
  decide

/-- A state of the witness below. -/
def stateBadFetchesFaultA : State := start 0 [] (-1) [] []

/-- The hypotheses of BadFetchesFault can be met. -/
theorem test_witness_BadFetchesFault :
    ((start 0 [] 16 [] []).AtInstruction ∧ (start 0 [] 16 [] []).CoreToMove ∧
      ¬ (start 0 [] 16 [] []).InImage (start 0 [] 16 [] []).ip) ∧
    (stateBadFetchesFaultA.AtInstruction ∧ stateBadFetchesFaultA.CoreToMove ∧
      ¬ stateBadFetchesFaultA.InImage stateBadFetchesFaultA.ip) ∧
    ((start 0 [31] 0 [] []).AtInstruction ∧ (start 0 [31] 0 [] []).CoreToMove ∧
      (start 0 [31] 0 [] []).InImage (start 0 [31] 0 [] []).ip ∧
      30 < (start 0 [31] 0 [] []).img.read (start 0 [31] 0 [] []).ip.toNat) ∧
    ((start 0 [-1] 0 [] []).AtInstruction ∧ (start 0 [-1] 0 [] []).InImage (start 0 [-1] 0 [] []).ip ∧
      (start 0 [-1] 0 [] []).img.read (start 0 [-1] 0 [] []).ip.toNat < 0) ∧
    ((start 0 [30] 0 [] []).AtInstruction ∧ 0 ≤ (start 0 [30] 0 [] []).img.read (start 0 [30] 0 [] []).ip.toNat ∧
      (start 0 [30] 0 [] []).img.read (start 0 [30] 0 [] []).ip.toNat ≤ 30) := by
  decide

/-- A state whose schedule is given. -/
def scheduled (s : State) (ts : List Turn) : State := { s with turns := ts }

/-- The pins of a clock edge that offers a byte and a halt request. -/
def busyPins : Pins := ⟨false, false, 0, false, true, 65, true⟩

/-- The hypotheses of HostTurnsMoveOnlyTheHost can be met. -/
theorem test_witness_HostTurnsMoveOnlyTheHost :
    ((scheduled State.reset [.host .start]).build.legal = true ∧
      (scheduled State.reset [.host .start]).turns = .host .start :: []) ∧
    ((scheduled State.reset [.edge busyPins]).build.legal = true ∧
      (scheduled State.reset [.edge busyPins]).turns = .edge busyPins :: []) ∧
    (State.reset.build.legal = true ∧ State.reset.CoreToMove ∧ State.reset.phase = .load) := by
  decide

/-- The hypotheses of EveryStepAnswersANextState can be met. -/
theorem test_witness_EveryStepAnswersANextState :
    ((start 0 [] 0 [] []).build.legal = true) ∧
    (({ start 0 [] 0 [] [] with build := ⟨31, 16, 4, 4⟩ } : State).build.legal = false) := by
  decide

/-- A state of the witness below. -/
def stateMemReadAndMemWriteAreCheckedA : State := start 0 [15] 0 [0, 7] []

/-- The hypotheses of MemReadAndMemWriteAreChecked can be met. -/
theorem test_witness_MemReadAndMemWriteAreChecked :
    (¬ (start 0 [] 0 [] []).InImage (-1) ∧ ¬ (start 0 [] 0 [] []).InImage 16) ∧
    (stateMemReadAndMemWriteAreCheckedA.InImage 0 ∧ stateMemReadAndMemWriteAreCheckedA.InImage 15 ∧
      stateMemReadAndMemWriteAreCheckedA.img.wf ∧ (1 : Int) ≠ 0) := by
  decide

/-- The hypotheses of StackPrimitivesKeepTheirContract can be met. -/
theorem test_witness_StackPrimitivesKeepTheirContract :
    ((start 0 [] 0 [] []).dstack = [] ∧ (start 0 [] 0 [] []).astack = []) ∧
    ((start 0 [] 0 [1, 2, 3, 4] [7]).dstack = 1 :: [2, 3, 4] ∧ (start 0 [] 0 [1, 2, 3, 4] [7]).astack = 7 :: []) := by
  decide

/-- The hypotheses of StacksAreLifo can be met. -/
theorem test_witness_StacksAreLifo :
    ((start 0 [] 0 [1] []).dstack.length + [5, 6, 7].length ≤ (start 0 [] 0 [1] []).build.dstackDepth) ∧
    ((start 0 [] 0 [1] []).astack.length + [5, 6, 7, 8].length ≤ (start 0 [] 0 [1] []).build.astackDepth) := by
  decide

/-- The state an instruction answers. -/
def ran (i : Instr) (s : State) : Option State :=
  match exec i s with
  | .next t => some t
  | .fault _ => none
  | .refused _ => none

/-- An option holds a state; the witness of an exec or a step that answers one. -/
theorem exec_of_ran {i : Instr} {s t : State} (h : ran i s = some t) : exec i s = .next t := by
  unfold ran at h
  split at h
  · next u hu => cases h; exact hu
  · cases h
  · cases h

/-- The same of a step. -/
theorem step_of_after {s t : State} (h : after s = some t) : step s = .next t := by
  unfold after at h
  split at h
  · next u hu => cases h; exact hu
  · cases h
  · cases h

/-- The hypotheses of FaultsArePrecise can be met. -/
theorem test_witness_FaultsArePrecise :
    (exec .drop (start 0 [] 0 [] []) = .next (faulted (start 0 [] 0 [] []) .stackUnderflow 0)) ∧
    ((start 0 [] 0 [] []).halted = false ∧ (faulted (start 0 [] 0 [] []) .stackUnderflow 0).halted = true) ∧
    (exec .input (atIn false true []) = .next { atIn false true [] with halted := true }) ∧
    (exec .nop (start 0 [] 0 [] []) = .next { (start 0 [] 0 [] []) with ip := 1 }) :=
  ⟨exec_of_ran (by decide), by decide, exec_of_ran (by decide), exec_of_ran (by decide)⟩

/-- A state of the witness below. -/
def stateOnlyStoreWritesTheImageA : State := start 0 [15] 0 [9, 42] []

/-- The hypotheses of OnlyStoreWritesTheImage can be met. -/
theorem test_witness_OnlyStoreWritesTheImage :
    (exec .store stateOnlyStoreWritesTheImageA =
      .next { stateOnlyStoreWritesTheImageA with ip := 1, dstack := [], img := [(0, 15), (9, 42)] }) ∧
    (stateOnlyStoreWritesTheImageA.dstack = 9 :: [42] ∧ (15 : Nat) ≠ (9 : Int).toNat) ∧
    (exec .drop (start 0 [] 0 [1] []) = .next { (start 0 [] 0 [1] []) with ip := 1, dstack := [] }) ∧
    (Instr.drop ≠ Instr.store) :=
  ⟨exec_of_ran (by decide), by decide, exec_of_ran (by decide), by decide⟩

/-- The hypotheses of InstructionsKeepTheOtherStack can be met. -/
theorem test_witness_InstructionsKeepTheOtherStack :
    (exec .drop (start 0 [] 0 [1] []) = .next { (start 0 [] 0 [1] []) with ip := 1, dstack := [] }) ∧
    (Instr.drop ∉ [Instr.push, .pop, .call, .ret, .zeroExit]) ∧
    (exec .nop (start 0 [] 0 [] []) = .next { (start 0 [] 0 [] []) with ip := 1 }) ∧
    (Instr.nop ∈ [Instr.nop, .call, .jump, .ret, .wait]) :=
  ⟨exec_of_ran (by decide), by decide, exec_of_ran (by decide), by decide⟩

/-- The hypotheses of InstructionsKeepPortAndLoaderState can be met. -/
theorem test_witness_InstructionsKeepPortAndLoaderState :
    (exec .output (start 0 [] 0 [1] []) = .next { (start 0 [] 0 [1] []) with ip := 1, dstack := [], outSeq := [1] }) ∧
    (exec .nop (haltedCore true false) = .next { haltedCore true false with ip := 1 }) ∧
    ((haltedCore true false).halted = true) :=
  ⟨exec_of_ran (by decide), exec_of_ran (by decide), by decide⟩

/-- The hypotheses of InstructionsIgnoreTheSchedule can be met. -/
theorem test_witness_InstructionsIgnoreTheSchedule :
    (exec .nop (start 0 [] 0 [] []) = .next { (start 0 [] 0 [] []) with ip := 1 }) :=
  exec_of_ran (by decide)

/-- The hypotheses of RunsEndInFourWays can be met, once for each end. -/
theorem test_witness_RunsEndInFourWays :
    (step (haltedCore false true) = .next { haltedCore false true with halted := true }) ∧
    ((haltedCore false true).halted = false) ∧
    (step ({ haltedCore false true with inPending := true, img := [(0, 28)] } : State) =
      .next { haltedCore false true with img := [(0, 28)], halted := true }) ∧
    (step (start 0 [31] 0 [] []) = .next (faulted (start 0 [31] 0 [] []) .invalidOpcode 0)) ∧
    (step (scheduled { State.reset with build := ⟨32, 1, 1, 1⟩, loadPtr := 1 } [.host (.loadCell 7)]) =
      .next { State.reset with build := ⟨32, 1, 1, 1⟩, loadPtr := 1, halted := true, faultKind := .imageTooLarge }) :=
  ⟨step_of_after (by decide), by decide, step_of_after (by decide), step_of_after (by decide), step_of_after (by decide)⟩

/-- A state of the witness below. -/
def stateHaltedUntilResetA : State := scheduled (haltedCore true false) [.host .requestHalt]

/-- A state of the witness below. -/
def stateHaltedUntilResetB : State := haltedCore true false

/-- The hypotheses of HaltedUntilReset can be met. -/
theorem test_witness_HaltedUntilReset :
    (stateHaltedUntilResetA.halted = true ∧ stateHaltedUntilResetA.turns.head? ≠ some (.host .reset)) ∧
    (step stateHaltedUntilResetA = .next { haltedCore true false with haltFlag := true }) ∧
    ((scheduled stateHaltedUntilResetB [.edge busyPins]).turns.head? = some (.edge busyPins) ∧ busyPins.rst = false) ∧
    (step (scheduled stateHaltedUntilResetB [.edge busyPins]) =
      .next { haltedCore true false with haltFlag := true, inValid := true, inByte := 65, inSeq := [65] }) ∧
    (stateHaltedUntilResetB.CoreToMove) ∧
    (step stateHaltedUntilResetB = .next stateHaltedUntilResetB) :=
  ⟨by decide, step_of_after (by decide), by decide, step_of_after (by decide), by decide, step_of_after (by decide)⟩

/-- The hypotheses of ResetLeavesTheResetState can be met. -/
theorem test_witness_ResetLeavesTheResetState :
    ((⟨true, false, 0, false, false, 0, false⟩ : Pins).rst = true) := by
  decide

/-- The hypotheses of LoadingIsBoot can be met. -/
theorem test_witness_LoadingIsBoot :
    (Build.legal ⟨32, 2, 1, 1⟩ = true ∧ (∀ v ∈ [(2147483647 : Int), -2147483648], Fits 32 v) ∧
      [(2147483647 : Int), -2147483648].length ≤ 2) ∧
    ((∀ v ∈ [(1 : Int), 2, 3], Fits 32 v) ∧ 2 < [(1 : Int), 2, 3].length) := by
  decide

/-- The hypotheses of ClockEdgesAreHostMoves can be met. -/
theorem test_witness_ClockEdgesAreHostMoves :
    (busyPins.rst = false) := by
  decide

/-- The hypotheses of HostCannotReachTheCore can be met. -/
theorem test_witness_HostCannotReachTheCore :
    (HostMove.deliver 65 ≠ .reset) ∧
    ((start 0 [] 0 [] []).phase = .run) ∧
    ((haltedCore false true).haltFlag = true) ∧
    ((atIn true false []).inValid = true) := by
  decide

/-- A state of the witness below. -/
def statePlainReturnLandsOnTheOperandA : State := start 0 [7, 2, 9] 0 [] [1, 2, 3]

/-- The hypotheses of PlainReturnLandsOnTheOperand can be met. -/
theorem test_witness_PlainReturnLandsOnTheOperand :
    (statePlainReturnLandsOnTheOperandA.AtInstruction ∧ statePlainReturnLandsOnTheOperandA.turns = [] ∧
      statePlainReturnLandsOnTheOperandA.InImage statePlainReturnLandsOnTheOperandA.ip ∧
      statePlainReturnLandsOnTheOperandA.InImage (statePlainReturnLandsOnTheOperandA.ip + 1) ∧
      statePlainReturnLandsOnTheOperandA.img.read statePlainReturnLandsOnTheOperandA.ip.toNat = Instr.call.opcode ∧
      statePlainReturnLandsOnTheOperandA.InImage (statePlainReturnLandsOnTheOperandA.img.read (statePlainReturnLandsOnTheOperandA.ip + 1).toNat) ∧
      statePlainReturnLandsOnTheOperandA.img.read (statePlainReturnLandsOnTheOperandA.img.read (statePlainReturnLandsOnTheOperandA.ip + 1).toNat).toNat = Instr.ret.opcode ∧
      statePlainReturnLandsOnTheOperandA.astack.length ≠ statePlainReturnLandsOnTheOperandA.build.astackDepth) := by
  decide

/-- A state of the witness below. -/
def stateHaltAnswersWaitA : State := scheduled (start 15 [30] 15 [] []) [.core, .host .requestHalt, .core]

/-- The hypotheses of HaltAnswersWait can be met. -/
theorem test_witness_HaltAnswersWait :
    (stateHaltAnswersWaitA.AtInstruction ∧
      stateHaltAnswersWaitA.turns = .core :: .host .requestHalt :: .core :: [] ∧
      stateHaltAnswersWaitA.InImage stateHaltAnswersWaitA.ip ∧
      stateHaltAnswersWaitA.img.read stateHaltAnswersWaitA.ip.toNat = Instr.wait.opcode) := by
  decide

/-- A state of the witness below. -/
def statePendingInPrefersTheByteA : State := scheduled (atIn false false [1, 2, 3]) [.core, .host (.deliver 65), .host .requestHalt, .core, .core]

/-- A state of the witness below. -/
def statePendingInPrefersTheByteB : State := scheduled (atIn false false [1, 2, 3]) [.host (.deliver 65), .host .requestHalt, .core]

/-- A state of the witness below. -/
def statePendingInPrefersTheByteC : State := scheduled (atIn false false [1, 2, 3]) [.core, .host .requestHalt, .core]

/-- The hypotheses of PendingInPrefersTheByte can be met. -/
theorem test_witness_PendingInPrefersTheByte :
    (statePendingInPrefersTheByteC.AtInstruction ∧
      statePendingInPrefersTheByteC.InImage statePendingInPrefersTheByteC.ip ∧
      statePendingInPrefersTheByteC.img.read statePendingInPrefersTheByteC.ip.toNat = Instr.input.opcode ∧
      statePendingInPrefersTheByteC.inValid = false ∧
      statePendingInPrefersTheByteC.turns = .core :: .host .requestHalt :: .core :: []) ∧
    (statePendingInPrefersTheByteA.AtInstruction ∧
      statePendingInPrefersTheByteA.InImage statePendingInPrefersTheByteA.ip ∧
      statePendingInPrefersTheByteA.img.read statePendingInPrefersTheByteA.ip.toNat = Instr.input.opcode ∧
      statePendingInPrefersTheByteA.inValid = false ∧
      statePendingInPrefersTheByteA.turns = .core :: .host (.deliver 65) :: .host .requestHalt :: .core :: .core :: [] ∧
      statePendingInPrefersTheByteA.dstack.length ≠ statePendingInPrefersTheByteA.build.dstackDepth) ∧
    (statePendingInPrefersTheByteB.AtInstruction ∧
      statePendingInPrefersTheByteB.InImage statePendingInPrefersTheByteB.ip ∧
      statePendingInPrefersTheByteB.img.read statePendingInPrefersTheByteB.ip.toNat = Instr.input.opcode ∧
      statePendingInPrefersTheByteB.inValid = false ∧
      statePendingInPrefersTheByteB.turns = .host (.deliver 65) :: .host .requestHalt :: .core :: []) := by
  decide

/-- A state of the witness below. -/
def stateStoredCellIsFetchedNextA : State := start 14 [15] 14 [15, 9] []

/-- The hypotheses of StoredCellIsFetchedNext can be met. -/
theorem test_witness_StoredCellIsFetchedNext :
    (stateStoredCellIsFetchedNextA.AtInstruction ∧ stateStoredCellIsFetchedNextA.turns = [] ∧
      stateStoredCellIsFetchedNextA.img.wf ∧
      stateStoredCellIsFetchedNextA.InImage stateStoredCellIsFetchedNextA.ip ∧
      stateStoredCellIsFetchedNextA.InImage (stateStoredCellIsFetchedNextA.ip + 1) ∧
      stateStoredCellIsFetchedNextA.img.read stateStoredCellIsFetchedNextA.ip.toNat = Instr.store.opcode ∧
      stateStoredCellIsFetchedNextA.dstack = (stateStoredCellIsFetchedNextA.ip + 1) :: Instr.ret.opcode :: []) := by
  decide

/-- The loader's invariant of a core in RUN. -/
theorem loaderOk_of_run {s : State} (hp : s.phase = .run) (hC : s.loadPtr ≤ s.build.imageCells) : s.LoaderOk :=
  ⟨hC, fun h => by rw [hp] at h; cases h⟩

/-- A state of the witness below. -/
def stateStepKeepsMemoryAndCellsA : State := start 0 [16] 0 [1, 2147483647] [-2147483648]

/-- The hypotheses of StepKeepsMemoryAndCells can be met. -/
theorem test_witness_StepKeepsMemoryAndCells :
    (stateStepKeepsMemoryAndCellsA.MemoryOk ∧ stateStepKeepsMemoryAndCellsA.CellsFit ∧
      stateStepKeepsMemoryAndCellsA.PendingOk) ∧
    (stateStepKeepsMemoryAndCellsA.LoaderOk) ∧
    (step stateStepKeepsMemoryAndCellsA =
      .next { stateStepKeepsMemoryAndCellsA with ip := 1, dstack := [-2147483648] }) :=
  ⟨by decide, loaderOk_of_run rfl (by decide), step_of_after (by decide)⟩

/-- A state of the witness below. -/
def stateStepKeepsStacksBoundedA : State := start 0 [] 0 [1, 2, 3, 4] [1, 2, 3, 4]

/-- The hypotheses of StepKeepsStacksBounded can be met, both stacks full. -/
theorem test_witness_StepKeepsStacksBounded :
    (stateStepKeepsStacksBoundedA.StacksBounded) ∧
    (step stateStepKeepsStacksBoundedA = .next { stateStepKeepsStacksBoundedA with ip := 1 }) :=
  ⟨by decide, step_of_after (by decide)⟩

/-- A state of the witness below. -/
def stateStepKeepsPendingInA : State := { start 0 [28] 0 [] [] with inPending := true }

/-- The hypotheses of StepKeepsPendingIn can be met. -/
theorem test_witness_StepKeepsPendingIn :
    (stateStepKeepsPendingInA.PendingOk ∧ stateStepKeepsPendingInA.inPending = true) ∧
    (step stateStepKeepsPendingInA = .next stateStepKeepsPendingInA) :=
  ⟨by decide, step_of_after (by decide)⟩

/-- A state of the witness below. -/
def stateStepKeepsLoaderAndFaultRecordA : State := { State.reset with build := ⟨32, 1, 1, 1⟩, loadPtr := 1, turns := [.host (.loadCell 7)] }

/-- The hypotheses of StepKeepsLoaderAndFaultRecord can be met, in LOAD with LOAD_PTR = C and in RUN. -/
theorem test_witness_StepKeepsLoaderAndFaultRecord :
    (stateStepKeepsLoaderAndFaultRecordA.LoaderOk) ∧
    (stateStepKeepsLoaderAndFaultRecordA.FaultRecordOk) ∧
    (step stateStepKeepsLoaderAndFaultRecordA =
      .next { State.reset with build := ⟨32, 1, 1, 1⟩, loadPtr := 1, halted := true, faultKind := .imageTooLarge }) ∧
    ((start 0 [31] 0 [] []).LoaderOk) ∧
    ((start 0 [31] 0 [] []).FaultRecordOk) ∧
    (step (start 0 [31] 0 [] []) = .next (faulted (start 0 [31] 0 [] []) .invalidOpcode 0)) :=
  ⟨⟨by decide, fun _ => ⟨rfl, rfl, rfl, rfl, rfl, by decide, fun _ _ => rfl⟩⟩, by decide, step_of_after (by decide), loaderOk_of_run rfl (by decide), by decide, step_of_after (by decide)⟩

/-- The hypotheses of StepKeepsInputOrder can be met, with the slot full and with it empty. -/
theorem test_witness_StepKeepsInputOrder :
    (({ start 0 [28] 0 [] [] with inValid := true, inByte := 65, inSeq := [7, 65], inTaken := 1 } : State).InputOk) ∧
    (step ({ start 0 [28] 0 [] [] with inValid := true, inByte := 65, inSeq := [7, 65], inTaken := 1 } : State) = .next { start 0 [28] 0 [] [] with inByte := 65, inSeq := [7, 65], inTaken := 2, ip := 1, dstack := [65] }) ∧
    ((start 0 [] 0 [] []).InputOk) ∧
    (step (start 0 [] 0 [] []) = .next { (start 0 [] 0 [] []) with ip := 1 }) :=
  ⟨by decide, step_of_after (by decide), by decide, step_of_after (by decide)⟩

/-- The hypotheses of ResetMeetsTheInvariants can be met. -/
theorem test_witness_ResetMeetsTheInvariants :
    (Build.legal ⟨32, 2147483646, 1, 1⟩ = true) := by
  decide

end Sys2Proof.Tests
end

namespace Sys2Proof.Machine

/-! ### The Image and every cell (O55)

The invariant of StepKeepsMemoryAndCells, with the legal build its arithmetic rests on, as one structure with a rule for
each named update of the state. The one delicate update is `advance`: `ip + 1` and `ip + 2` are not wrapped, and are cells only
because the fetch, or the IN that is pending, has shown that `ip` is inside the Image and C <= 2^(W-1) - 2. -/

/-- A legal build, the Image canonical and inside `0..C-1`, and every cell a cell of `W` bits (00_scope.md R4, R5,
20_memory.md R32). -/
structure State.CellInv (s : State) : Prop where
  legal : s.build.legal = true
  wf : s.img.wf
  inside : ∀ p ∈ s.img, p.1 < s.build.imageCells
  ip : Fits s.build.cellBits s.ip
  faultIp : Fits s.build.cellBits s.faultIp
  img : ∀ p ∈ s.img, Fits s.build.cellBits p.2
  dstack : ∀ v ∈ s.dstack, Fits s.build.cellBits v
  astack : ∀ v ∈ s.astack, Fits s.build.cellBits v
  outSeq : ∀ v ∈ s.outSeq, Fits s.build.cellBits v

theorem State.cellInv_iff (s : State) : s.CellInv ↔ s.build.legal = true ∧ s.MemoryOk ∧ s.CellsFit where
  mp h := ⟨h.legal, ⟨h.wf, h.inside⟩, h.ip, h.faultIp, h.img, h.dstack, h.astack, h.outSeq⟩
  mpr := fun ⟨legal, ⟨wf, inside⟩, ip, faultIp, img, dstack, astack, outSeq⟩ =>
    { legal, wf, inside, ip, faultIp, img, dstack, astack, outSeq }

namespace State.CellInv

variable {s t : State}

/-! #### What the invariant says of the cells an instruction uses -/

theorem one_le_cellBits (h : s.CellInv) : 1 ≤ s.build.cellBits := by
  obtain ⟨h32, -⟩ := (Build.legal_iff _).mp h.legal
  omega

/-- Every cell read from the Image fits, the unlisted zeros too. -/
theorem read_fits (h : s.CellInv) (a : Nat) : Fits s.build.cellBits (s.img.read a) := by
  rcases s.img.read_mem a with h0 | hmem
  · rw [h0]; exact fits_zero _
  · exact h.img _ hmem

/-- `ip + 1` and `ip + 2` of a valid `ip` are cells (00_scope.md R5). -/
theorem ip_add_fits (h : s.CellInv) (hin : s.InImage s.ip) {n : Int} (hn : 0 ≤ n ∧ n ≤ 2) :
    Fits s.build.cellBits (s.ip + n) := by
  obtain ⟨h0, hC⟩ := hin
  exact fits_of_inImage h.legal (by omega) (by omega)

theorem dstack_cons (h : s.CellInv) {a : Int} {rest : List Int} (hs : s.dstack = a :: rest) :
    Fits s.build.cellBits a ∧ ∀ v ∈ rest, Fits s.build.cellBits v :=
  List.forall_mem_cons.mp (hs ▸ h.dstack)

theorem dstack_cons_cons (h : s.CellInv) {a b : Int} {rest : List Int} (hs : s.dstack = a :: b :: rest) :
    Fits s.build.cellBits a ∧ Fits s.build.cellBits b ∧ ∀ v ∈ rest, Fits s.build.cellBits v := by
  obtain ⟨ha, hrest⟩ := h.dstack_cons hs
  exact ⟨ha, List.forall_mem_cons.mp hrest⟩

theorem astack_cons (h : s.CellInv) {a : Int} {rest : List Int} (hs : s.astack = a :: rest) :
    Fits s.build.cellBits a ∧ ∀ v ∈ rest, Fits s.build.cellBits v :=
  List.forall_mem_cons.mp (hs ▸ h.astack)

/-! #### One rule per named update of the state -/

theorem setIp (h : s.CellInv) {v : Int} (hv : Fits s.build.cellBits v) : (s.setIp v).CellInv := { h with ip := hv }

theorem advance (h : s.CellInv) (hin : s.InImage s.ip) {n : Int} (hn : 0 ≤ n ∧ n ≤ 2 := by decide) :
    (s.advance n).CellInv :=
  { h with ip := h.ip_add_fits hin hn }

theorem setDstack (h : s.CellInv) {d : List Int} (hd : ∀ v ∈ d, Fits s.build.cellBits v) : (s.setDstack d).CellInv :=
  { h with dstack := hd }

/-- The data stack with a cell pushed on what is left of it. -/
theorem setDstack_cons (h : s.CellInv) {v : Int} {d : List Int} (hv : Fits s.build.cellBits v)
    (hd : ∀ v ∈ d, Fits s.build.cellBits v) : (s.setDstack (v :: d)).CellInv :=
  h.setDstack (List.forall_mem_cons.mpr ⟨hv, hd⟩)

theorem setAstack (h : s.CellInv) {a : List Int} (ha : ∀ v ∈ a, Fits s.build.cellBits v) : (s.setAstack a).CellInv :=
  { h with astack := ha }

/-- The address stack with a cell pushed on what is left of it. -/
theorem setAstack_cons (h : s.CellInv) {v : Int} {a : List Int} (hv : Fits s.build.cellBits v)
    (ha : ∀ v ∈ a, Fits s.build.cellBits v) : (s.setAstack (v :: a)).CellInv :=
  h.setAstack (List.forall_mem_cons.mpr ⟨hv, ha⟩)

/-- Writing a cell inside the Image (20_memory.md R34). -/
theorem writeImg (h : s.CellInv) {a : Nat} {v : Int} (ha : a < s.build.imageCells) (hv : Fits s.build.cellBits v) :
    (s.setImg (s.img.write a v)).CellInv :=
  { h with
    wf := Memory.wf_write h.wf a v
    inside := fun p hp => by
      rcases Memory.mem_write hp with ⟨rfl, -⟩ | hold
      · exact ha
      · exact h.inside p hold
    img := fun p hp => by
      rcases Memory.mem_write hp with ⟨rfl, -⟩ | hold
      · exact hv
      · exact h.img p hold }

theorem emit (h : s.CellInv) {v : Int} (hv : Fits s.build.cellBits v) : (s.emit v).CellInv :=
  { h with outSeq := List.forall_mem_append.mpr ⟨h.outSeq, List.forall_mem_singleton.mpr hv⟩ }

theorem raise (h : s.CellInv) (k : FaultKind) : (s.raise k).CellInv := { h with faultIp := h.ip }

theorem failLoad (h : s.CellInv) : s.failLoad.CellInv := { h with faultIp := fits_zero _ }

theorem halt (h : s.CellInv) : s.halt.CellInv := { h with }

theorem setPending (h : s.CellInv) (b : Bool) : (s.setPending b).CellInv := { h with }

theorem takeByte (h : s.CellInv) : s.takeByte.CellInv := { h with }

theorem signalWait (h : s.CellInv) : s.signalWait.CellInv := { h with }

theorem setTurns (h : s.CellInv) (ts : List Turn) : (s.setTurns ts).CellInv := { h with }

/-- The reset state holds no cell but zeros (70_reset_and_hazards.md R127). -/
theorem resetFor {b : Build} (hb : b.legal = true) : (State.resetFor b).CellInv where
  legal := hb
  wf := Memory.wf_nil
  inside := List.forall_mem_nil _
  ip := fits_zero _
  faultIp := fits_zero _
  img := List.forall_mem_nil _
  dstack := List.forall_mem_nil _
  astack := List.forall_mem_nil _
  outSeq := List.forall_mem_nil _

/-! #### Instructions -/

/-- A two-operand instruction whose result is always a cell. -/
theorem binaryEffect (h : s.CellInv) (hin : s.InImage s.ip) {f : Int → Int → Int}
    (hf : ∀ b a, Fits s.build.cellBits (f b a)) (he : BinaryEffect f s t) : t.CellInv := by
  obtain ⟨a, b, rest, hs, -, rfl⟩ := he
  obtain ⟨-, -, hrest⟩ := h.dstack_cons_cons hs
  exact (h.setDstack_cons (hf b a) hrest).advance hin

/-- A one-operand instruction whose result is always a cell. -/
theorem unaryEffect (h : s.CellInv) (hin : s.InImage s.ip) {f : Int → Int} (hf : ∀ a, Fits s.build.cellBits (f a))
    (he : UnaryEffect f s t) : t.CellInv := by
  obtain ⟨a, rest, hs, -, rfl⟩ := he
  obtain ⟨-, hrest⟩ := h.dstack_cons hs
  exact (h.setDstack_cons (hf a) hrest).advance hin

/-- A conditional jump: the target is a cell read from the Image, the other way on is `ip + 2`. -/
theorem jumpEffect (h : s.CellInv) (hin : s.InImage s.ip) {p : Int → Int → Bool} (he : JumpEffect p s t) :
    t.CellInv := by
  obtain ⟨a, b, rest, hs, htaken | hskipped⟩ := he
  · obtain ⟨-, -, -, rfl⟩ := htaken
    obtain ⟨-, -, hrest⟩ := h.dstack_cons_cons hs
    exact (h.setDstack hrest).setIp (h.read_fits _)
  · obtain ⟨-, rfl⟩ := hskipped
    obtain ⟨-, -, hrest⟩ := h.dstack_cons_cons hs
    exact (h.setDstack hrest).advance hin

/-- IN puts the zero-extended byte on the data stack, halts, or waits (44_port_io.md R90). -/
theorem inputEffect (h : s.CellInv) (hin : s.InImage s.ip) (he : Completes .input s t) : t.CellInv := by
  obtain ⟨h32, -⟩ := (Build.legal_iff _).mp h.legal
  obtain ⟨-, -, rfl⟩ | ⟨-, -, rfl⟩ | ⟨-, -, rfl⟩ := he
  · exact (h.setDstack_cons (zext8_fits h32 _) h.dstack).takeByte.advance hin
  · exact h.halt
  · exact h.setPending true

/-- Every instruction that completes at an `ip` inside the Image. -/
theorem completes {i : Instr} (h : s.CellInv) (hin : s.InImage s.ip) (hc : Completes i s t) : t.CellInv := by
  have hW := h.one_le_cellBits
  cases i
  case nop => obtain rfl := hc; exact h.advance hin
  case lit =>
    obtain ⟨-, -, -, rfl⟩ := hc
    exact (h.setDstack_cons (h.read_fits _) h.dstack).advance hin
  case dup =>
    obtain ⟨a, rest, hs, -, rfl⟩ := hc
    obtain ⟨ha, hrest⟩ := h.dstack_cons hs
    exact (h.setDstack_cons ha (List.forall_mem_cons.mpr ⟨ha, hrest⟩)).advance hin
  case drop =>
    obtain ⟨a, rest, hs, rfl⟩ := hc
    obtain ⟨-, hrest⟩ := h.dstack_cons hs
    exact (h.setDstack hrest).advance hin
  case swap =>
    obtain ⟨a, b, rest, hs, rfl⟩ := hc
    obtain ⟨ha, hb, hrest⟩ := h.dstack_cons_cons hs
    exact (h.setDstack_cons hb (List.forall_mem_cons.mpr ⟨ha, hrest⟩)).advance hin
  case push =>
    obtain ⟨a, rest, hs, -, rfl⟩ := hc
    obtain ⟨ha, hrest⟩ := h.dstack_cons hs
    exact ((h.setDstack hrest).setAstack_cons ha h.astack).advance hin
  case pop =>
    obtain ⟨a, rest, hs, -, rfl⟩ := hc
    obtain ⟨ha, hrest⟩ := h.astack_cons hs
    exact ((h.setAstack hrest).setDstack_cons ha h.dstack).advance hin
  case call =>
    obtain ⟨-, -, -, rfl⟩ := hc
    exact (h.setAstack_cons (h.ip_add_fits hin (by decide)) h.astack).setIp (h.read_fits _)
  case jump => obtain ⟨-, -, rfl⟩ := hc; exact h.setIp (h.read_fits _)
  case ret =>
    obtain ⟨r, rest, hs, rfl⟩ := hc
    obtain ⟨hr, hrest⟩ := h.astack_cons hs
    exact (h.setAstack hrest).setIp hr
  case gtJump => exact h.jumpEffect hin hc
  case ltJump => exact h.jumpEffect hin hc
  case neJump => exact h.jumpEffect hin hc
  case eqJump => exact h.jumpEffect hin hc
  case fetch =>
    obtain ⟨a, rest, hs, -, -, rfl⟩ := hc
    obtain ⟨-, hrest⟩ := h.dstack_cons hs
    exact (h.setDstack_cons (h.read_fits _) hrest).advance hin
  case store =>
    obtain ⟨a, b, rest, hs, h0, hC, rfl⟩ := hc
    obtain ⟨-, hb, hrest⟩ := h.dstack_cons_cons hs
    have ha : a.toNat < s.build.imageCells := by omega
    exact ((h.setDstack hrest).writeImg ha hb).advance hin
  case add => exact h.binaryEffect hin (addCell_fits hW) hc
  case sub => exact h.binaryEffect hin (subCell_fits hW) hc
  case mul => exact h.binaryEffect hin (mulCell_fits hW) hc
  case divmod =>
    obtain ⟨a, b, rest, hs, -, rfl⟩ := hc
    obtain ⟨-, hb, hrest⟩ := h.dstack_cons_cons hs
    have hrem := List.forall_mem_cons.mpr ⟨remCell_fits (a := a) hb, hrest⟩
    exact (h.setDstack_cons (quotCell_fits hW b a) hrem).advance hin
  case and => exact h.binaryEffect hin andCell_fits hc
  case or => exact h.binaryEffect hin orCell_fits hc
  case xor => exact h.binaryEffect hin xorCell_fits hc
  case shl => exact h.binaryEffect hin (shlCell_fits hW) hc
  case shr => exact h.binaryEffect hin (shrCell_fits hW) hc
  case zeroExit =>
    obtain ⟨a, rest, hs, ⟨-, r, arest, hA, rfl⟩ | ⟨-, rfl⟩⟩ := hc
    · obtain ⟨-, hrest⟩ := h.dstack_cons hs
      obtain ⟨hr, harest⟩ := h.astack_cons hA
      exact ((h.setDstack hrest).setAstack harest).setIp hr
    · obtain ⟨-, hrest⟩ := h.dstack_cons hs
      exact (h.setDstack hrest).advance hin
  case inc => exact h.unaryEffect hin (incCell_fits hW) hc
  case dec => exact h.unaryEffect hin (decCell_fits hW) hc
  case input => exact h.inputEffect hin hc
  case output =>
    obtain ⟨a, rest, hs, rfl⟩ := hc
    obtain ⟨ha, hrest⟩ := h.dstack_cons hs
    exact ((h.setDstack hrest).emit ha).advance hin
  case wait => obtain rfl := hc; exact h.signalWait.advance hin

/-! #### Turns -/

/-- Every instruction begun at an `ip` inside the Image, whether it completes or faults. -/
theorem exec {i : Instr} (h : s.CellInv) (hin : s.InImage s.ip) (he : Machine.exec i s = .next t) : t.CellInv := by
  rcases exec_cases he with ⟨k, -, rfl⟩ | hc
  · exact h.raise k
  · exact h.completes hin hc

/-- A turn of the core: the fetch, or the IN that is pending, shows that `ip` is inside the Image. -/
theorem coreTurn (h : s.CellInv) (hq : s.PendingOk) (hc : Machine.coreTurn s = .next t) : t.CellInv := by
  rcases coreTurn_cases hc with ⟨-, rfl⟩ | ⟨-, -, rfl⟩ | ⟨-, -, hpend, he⟩ | ⟨-, -, -, -, rfl⟩ | ⟨-, -, -, -, hf⟩
  · exact h
  · exact h
  · obtain ⟨-, -, hread⟩ := hq hpend
    obtain ⟨h0, hC, -⟩ := memRead_inv hread
    exact (h.setPending false).exec ⟨h0, hC⟩ he
  · exact h.halt
  · rcases fetchExecute_cases hf with ⟨-, rfl⟩ | ⟨-, -, rfl⟩ | ⟨hin, i, -, he⟩
    · exact h.raise _
    · exact h.raise _
    · exact h.exec hin he

/-- A host move: the loader writes below C, and what it writes is wrapped to `W` bits (45_interfaces.md R98). -/
theorem hostMove (m : HostMove) (s : State) (h : s.CellInv) : (Machine.hostMove m s).CellInv := by
  rcases hostMove_cases m s with
    ⟨-, e⟩ | e | ⟨v, -, -, -, hlt, e⟩ | ⟨v, -, -, -, -, e⟩ | ⟨-, -, -, e⟩ | ⟨b, -, -, e⟩ | ⟨-, e⟩ <;> rw [e]
  · exact (resetFor h.legal).setTurns _
  · exact h
  · exact { h.writeImg hlt (wrap_fits h.one_le_cellBits v) with }
  · exact h.failLoad
  · exact { h with }
  · exact { h with }
  · exact { h with }

/-- Every step from a state whose pending IN, if there is one, is an IN. -/
theorem step (h : s.CellInv) (hq : s.PendingOk) (hs : Machine.step s = .next t) : t.CellInv := by
  obtain ⟨-, ⟨-, hc⟩ | ⟨m, ts, -, rfl⟩ | ⟨p, ts, -, rfl⟩⟩ := step_cases hs
  · exact (h.setTurns s.turns.tail).coreTurn hq hc
  · exact hostMove m _ (h.setTurns ts)
  · exact clockEdge_keeps hostMove p (h.setTurns ts)

end State.CellInv

/-- Settles O55: it holds. A step's build is legal, so its state meets `State.CellInv`, which every turn keeps. The bound on
LOAD_PTR is not needed, since the loader compares it with C itself. -/
theorem stepKeepsMemoryAndCells : Obligations.StepKeepsMemoryAndCells := by
  unfold Obligations.StepKeepsMemoryAndCells
  intro s t hmem hcells _ hpend hstep
  obtain ⟨hlegal, -⟩ := step_cases hstep
  have hs : s.CellInv := s.cellInv_iff.mpr ⟨hlegal, hmem, hcells⟩
  exact (t.cellInv_iff.mp (hs.step hpend hstep)).2

end Sys2Proof.Machine

namespace Sys2Proof.Machine

/-! ### The stacks, the loader and the control state (10_state.md)

What a completed instruction leaves of the control state, the port and each stack, and from these the invariants of every step
and the frames of every instruction. -/

variable {s t : State}

/-! #### The stack primitives (R18, R20, R21) -/

/-- Settles O38, by the equations of the primitives. -/
theorem stackPrimitivesKeepTheirContract : Obligations.StackPrimitivesKeepTheirContract := by
  unfold Obligations.StackPrimitivesKeepTheirContract
  exact fun _ _ => ⟨rfl, rfl, fun h => ⟨dPop_nil h, dTop_nil h⟩, fun _ h => ⟨dPop_cons h, dTop_cons h⟩, aPop_nil,
    fun _ => aPop_cons⟩

/-- One more pop after `n` pops adds its cell at the end. -/
theorem popMany_snoc {pop : State → Except FaultKind (Int × State)} {n : Nat} {s t u : State} {vs : List Int} {v : Int}
    (hmany : popMany pop n s = .ok (vs, t)) (hlast : pop t = .ok (v, u)) :
    popMany pop (n + 1) s = .ok (vs ++ [v], u) := by
  induction n generalizing s vs with
  | zero =>
    cases hmany
    simp [popMany, hlast]
  | succ n ih =>
    rw [popMany] at hmany
    match hp : pop s with
    | .error k => rw [hp, error_bind] at hmany; cases hmany
    | .ok (w, s') =>
      rw [hp, ok_bind] at hmany
      simp only [] at hmany
      match hm : popMany pop n s' with
      | .error k => rw [hm, error_bind] at hmany; cases hmany
      | .ok (ws, s'') =>
        rw [hm, ok_bind] at hmany
        cases hmany
        rw [popMany, hp, ok_bind]
        simp only []
        rw [ih hm, ok_bind, List.cons_append]

/-- The LIFO law of a push and a pop: where a push that finds room is undone by a pop, popping as many cells as were
pushed gives them back in reverse order. `Room n s` says that `s` has room for `n` cells. -/
theorem popMany_pushMany {push : State → Int → Except FaultKind State} {pop : State → Except FaultKind (Int × State)}
    {Room : Nat → State → Prop}
    (hone : ∀ n s v, Room (n + 1) s → ∃ t, push s v = .ok t ∧ pop t = .ok (v, s) ∧ Room n t)
    (vs : List Int) (s : State) (hroom : Room vs.length s) :
    ∃ t, pushMany push vs s = .ok t ∧ popMany pop vs.length t = .ok (vs.reverse, s) := by
  induction vs generalizing s with
  | nil => exact ⟨s, rfl, rfl⟩
  | cons v vs ih =>
    obtain ⟨u, hpush, hpop, hroom'⟩ := hone _ s v hroom
    obtain ⟨t, hpushes, hpops⟩ := ih u hroom'
    refine ⟨t, ?_, ?_⟩
    · rw [pushMany, hpush, ok_bind, hpushes]
    · rw [List.length_cons, List.reverse_cons, popMany_snoc hpops hpop]

/-- A push onto a data stack with room is undone by a pop (R20). -/
theorem dPop_dPush (n : Nat) (s : State) (v : Int) (h : s.dstack.length + (n + 1) ≤ s.build.dstackDepth) :
    ∃ t, dPush s v = .ok t ∧ dPop t = .ok (v, s) ∧ t.dstack.length + n ≤ t.build.dstackDepth := by
  refine ⟨s.setDstack (v :: s.dstack), dPush_ok (by omega), dPop_cons rfl, ?_⟩
  simp only [State.setDstack_dstack, State.setDstack_build, List.length_cons]
  omega

/-- A push onto an address stack with room is undone by a pop (R21). -/
theorem aPop_aPush (n : Nat) (s : State) (v : Int) (h : s.astack.length + (n + 1) ≤ s.build.astackDepth) :
    ∃ t, aPush s v = .ok t ∧ aPop t = .ok (v, s) ∧ t.astack.length + n ≤ t.build.astackDepth := by
  refine ⟨s.setAstack (v :: s.astack), aPush_ok (by omega), aPop_cons rfl, ?_⟩
  simp only [State.setAstack_astack, State.setAstack_build, List.length_cons]
  omega

/-- Settles O39: the LIFO law holds of any push undone by its pop, and so of both stacks. -/
theorem stacksAreLifo : Obligations.StacksAreLifo := by
  unfold Obligations.StacksAreLifo
  exact fun s vs => ⟨popMany_pushMany (Room := fun n s => s.dstack.length + n ≤ s.build.dstackDepth) dPop_dPush vs s,
    popMany_pushMany (Room := fun n s => s.astack.length + n ≤ s.build.astackDepth) aPop_aPush vs s⟩

/-! #### What a completed instruction leaves -/

/-- No completed instruction touches the build, the halt flag, the loader, the fault record, the byte in the slot or IN_SEQ,
or the schedule (R22, R24, R26 to R29). -/
theorem completes_frame {i : Instr} (h : Completes i s t) :
    t = { s with ip := t.ip, dstack := t.dstack, astack := t.astack, img := t.img, halted := t.halted,
                 outSeq := t.outSeq, inValid := t.inValid, inTaken := t.inTaken, waitCount := t.waitCount,
                 inPending := t.inPending } := by
  by_cases hi : i = .input
  · subst hi; obtain ⟨-, -, rfl⟩ | ⟨-, -, rfl⟩ | ⟨-, -, rfl⟩ := h <;> rfl
  by_cases ho : i = .output
  · subst ho; obtain ⟨-, -, -, rfl⟩ := h; rfl
  by_cases hw : i = .wait
  · subst hw; obtain rfl := h; rfl
  rw [completes_keeps h hi ho hw]

theorem BinaryEffect.astack_eq {f : Int → Int → Int} (h : BinaryEffect f s t) : t.astack = s.astack := by
  obtain ⟨-, -, -, -, -, rfl⟩ := h; rfl

theorem UnaryEffect.astack_eq {f : Int → Int} (h : UnaryEffect f s t) : t.astack = s.astack := by
  obtain ⟨-, -, -, -, rfl⟩ := h; rfl

theorem JumpEffect.astack_eq {p : Int → Int → Bool} (h : JumpEffect p s t) : t.astack = s.astack := by
  obtain ⟨-, -, -, -, ⟨-, -, -, rfl⟩ | ⟨-, rfl⟩⟩ := h <;> rfl

/-- Only PUSH, POP, CALL, RETURN and ZERO_EXIT use the address stack (R21). -/
theorem completes_astack {i : Instr} (h : Completes i s t) (hi : i ∉ [Instr.push, .pop, .call, .ret, .zeroExit]) :
    t.astack = s.astack := by
  cases i
  case push => exact absurd (by decide) hi
  case pop => exact absurd (by decide) hi
  case call => exact absurd (by decide) hi
  case ret => exact absurd (by decide) hi
  case zeroExit => exact absurd (by decide) hi
  case nop => obtain rfl := h; rfl
  case lit => obtain ⟨-, -, -, rfl⟩ := h; rfl
  case dup => obtain ⟨-, -, -, -, rfl⟩ := h; rfl
  case drop => obtain ⟨-, -, -, rfl⟩ := h; rfl
  case swap => obtain ⟨-, -, -, -, rfl⟩ := h; rfl
  case jump => obtain ⟨-, -, rfl⟩ := h; rfl
  case gtJump => exact JumpEffect.astack_eq h
  case ltJump => exact JumpEffect.astack_eq h
  case neJump => exact JumpEffect.astack_eq h
  case eqJump => exact JumpEffect.astack_eq h
  case fetch => obtain ⟨-, -, -, -, -, rfl⟩ := h; rfl
  case store => obtain ⟨-, -, -, -, -, -, rfl⟩ := h; rfl
  case add => exact BinaryEffect.astack_eq h
  case sub => exact BinaryEffect.astack_eq h
  case mul => exact BinaryEffect.astack_eq h
  case divmod => obtain ⟨-, -, -, -, -, rfl⟩ := h; rfl
  case and => exact BinaryEffect.astack_eq h
  case or => exact BinaryEffect.astack_eq h
  case xor => exact BinaryEffect.astack_eq h
  case shl => exact BinaryEffect.astack_eq h
  case shr => exact BinaryEffect.astack_eq h
  case inc => exact UnaryEffect.astack_eq h
  case dec => exact UnaryEffect.astack_eq h
  case input => obtain ⟨-, -, rfl⟩ | ⟨-, -, rfl⟩ | ⟨-, -, rfl⟩ := h <;> rfl
  case output => obtain ⟨-, -, -, rfl⟩ := h; rfl
  case wait => obtain rfl := h; rfl

/-- NOP, CALL, JUMP, RETURN and WAIT do not use the data stack (R20). -/
theorem completes_dstack {i : Instr} (h : Completes i s t) (hi : i ∈ [Instr.nop, .call, .jump, .ret, .wait]) :
    t.dstack = s.dstack := by
  simp only [List.mem_cons, List.not_mem_nil, or_false] at hi
  obtain rfl | rfl | rfl | rfl | rfl := hi
  · obtain rfl := h; rfl
  · obtain ⟨-, -, -, rfl⟩ := h; rfl
  · obtain ⟨-, -, rfl⟩ := h; rfl
  · obtain ⟨-, -, -, rfl⟩ := h; rfl
  · obtain rfl := h; rfl

/-- Settles O42: a fault changes neither stack, and a completed instruction only those its effect names. -/
theorem instructionsKeepTheOtherStack : Obligations.InstructionsKeepTheOtherStack := by
  unfold Obligations.InstructionsKeepTheOtherStack
  intro i s t h
  rcases exec_cases h with ⟨k, -, rfl⟩ | hc
  · exact ⟨fun _ => rfl, fun _ => rfl⟩
  · exact ⟨completes_astack hc, completes_dstack hc⟩

/-- Settles O43: a fault writes the fault record alone, and a completed instruction leaves what `completes_frame` says;
of the port, IN, OUT and WAIT each write their own part. -/
theorem instructionsKeepPortAndLoaderState : Obligations.InstructionsKeepPortAndLoaderState := by
  unfold Obligations.InstructionsKeepPortAndLoaderState
  intro i s t h
  rcases exec_cases h with ⟨k, -, rfl⟩ | hc
  · exact ⟨⟨rfl, rfl, rfl, rfl, rfl, rfl, rfl⟩, fun _ => rfl, .inl rfl, .inl rfl, .inl ⟨rfl, rfl⟩⟩
  have hf := completes_frame hc
  refine ⟨by rw [hf]; exact ⟨rfl, rfl, rfl, rfl, rfl, rfl, rfl⟩, ?_⟩
  by_cases hi : i = .input
  · subst hi
    obtain ⟨hv, -, rfl⟩ | ⟨-, -, rfl⟩ | ⟨-, -, rfl⟩ := hc
    · exact ⟨id, .inl rfl, .inl rfl, .inr ⟨rfl, hv, rfl, rfl⟩⟩
    · exact ⟨fun _ => rfl, .inl rfl, .inl rfl, .inl ⟨rfl, rfl⟩⟩
    · exact ⟨id, .inl rfl, .inl rfl, .inl ⟨rfl, rfl⟩⟩
  by_cases ho : i = .output
  · subst ho
    obtain ⟨a, rest, hs, rfl⟩ := hc
    exact ⟨id, .inr ⟨rfl, a, rest, hs, rfl⟩, .inl rfl, .inl ⟨rfl, rfl⟩⟩
  by_cases hw : i = .wait
  · subst hw
    obtain rfl := hc
    exact ⟨id, .inl rfl, .inr ⟨rfl, rfl⟩, .inl ⟨rfl, rfl⟩⟩
  rw [completes_keeps hc hi ho hw]
  exact ⟨id, .inl rfl, .inl rfl, .inl ⟨rfl, rfl⟩⟩

/-! #### The size of each stack (O56) -/

theorem BinaryEffect.dstack_length_le {f : Int → Int → Int} (h : BinaryEffect f s t) :
    t.dstack.length ≤ s.dstack.length := by
  obtain ⟨a, b, rest, hs, -, rfl⟩ := h
  simp [hs]

theorem UnaryEffect.dstack_length_le {f : Int → Int} (h : UnaryEffect f s t) : t.dstack.length ≤ s.dstack.length := by
  obtain ⟨a, rest, hs, -, rfl⟩ := h
  simp [hs]

theorem JumpEffect.dstack_length_le {p : Int → Int → Bool} (h : JumpEffect p s t) :
    t.dstack.length ≤ s.dstack.length := by
  obtain ⟨a, b, rest, hs, ⟨-, -, -, rfl⟩ | ⟨-, rfl⟩⟩ := h <;> simp [hs, Nat.add_assoc]

/-- A completed instruction grows the data stack by at most one cell, and only a stack that is not full. -/
theorem completes_dstack_growth {i : Instr} (h : Completes i s t) :
    t.dstack.length ≤ s.dstack.length ∨
      (s.dstack.length ≠ s.build.dstackDepth ∧ t.dstack.length = s.dstack.length + 1) := by
  cases i
  case nop => exact .inl (by rw [completes_dstack h (by decide)])
  case call => exact .inl (by rw [completes_dstack h (by decide)])
  case jump => exact .inl (by rw [completes_dstack h (by decide)])
  case ret => exact .inl (by rw [completes_dstack h (by decide)])
  case wait => exact .inl (by rw [completes_dstack h (by decide)])
  case lit => obtain ⟨-, -, hn, rfl⟩ := h; exact .inr ⟨hn, rfl⟩
  case dup => obtain ⟨a, rest, hs, hn, rfl⟩ := h; exact .inr ⟨hn, by simp [hs]⟩
  case pop => obtain ⟨a, rest, -, hn, rfl⟩ := h; exact .inr ⟨hn, rfl⟩
  case drop => obtain ⟨a, rest, hs, rfl⟩ := h; left; simp [hs]
  case swap => obtain ⟨a, b, rest, hs, rfl⟩ := h; left; simp [hs]
  case push => obtain ⟨a, rest, hs, -, rfl⟩ := h; left; simp [hs]
  case fetch => obtain ⟨a, rest, hs, -, -, rfl⟩ := h; left; simp [hs]
  case store => obtain ⟨a, b, rest, hs, -, -, rfl⟩ := h; left; simp [hs, Nat.add_assoc]
  case divmod => obtain ⟨a, b, rest, hs, -, rfl⟩ := h; left; simp [hs]
  case zeroExit => obtain ⟨a, rest, hs, ⟨-, r, arest, -, rfl⟩ | ⟨-, rfl⟩⟩ := h <;> left <;> simp [hs]
  case output => obtain ⟨a, rest, hs, rfl⟩ := h; left; simp [hs]
  case input =>
    obtain ⟨-, hn, rfl⟩ | ⟨-, -, rfl⟩ | ⟨-, -, rfl⟩ := h
    · exact .inr ⟨hn, rfl⟩
    · exact .inl le_rfl
    · exact .inl le_rfl
  case gtJump => exact .inl (JumpEffect.dstack_length_le h)
  case ltJump => exact .inl (JumpEffect.dstack_length_le h)
  case neJump => exact .inl (JumpEffect.dstack_length_le h)
  case eqJump => exact .inl (JumpEffect.dstack_length_le h)
  case add => exact .inl (BinaryEffect.dstack_length_le h)
  case sub => exact .inl (BinaryEffect.dstack_length_le h)
  case mul => exact .inl (BinaryEffect.dstack_length_le h)
  case and => exact .inl (BinaryEffect.dstack_length_le h)
  case or => exact .inl (BinaryEffect.dstack_length_le h)
  case xor => exact .inl (BinaryEffect.dstack_length_le h)
  case shl => exact .inl (BinaryEffect.dstack_length_le h)
  case shr => exact .inl (BinaryEffect.dstack_length_le h)
  case inc => exact .inl (UnaryEffect.dstack_length_le h)
  case dec => exact .inl (UnaryEffect.dstack_length_le h)

/-- A completed instruction grows the address stack by at most one cell, and only a stack that is not full. -/
theorem completes_astack_growth {i : Instr} (h : Completes i s t) :
    t.astack.length ≤ s.astack.length ∨
      (s.astack.length ≠ s.build.astackDepth ∧ t.astack.length = s.astack.length + 1) := by
  by_cases hi : i ∈ [Instr.push, .pop, .call, .ret, .zeroExit]
  · simp only [List.mem_cons, List.not_mem_nil, or_false] at hi
    obtain rfl | rfl | rfl | rfl | rfl := hi
    · obtain ⟨a, rest, -, hn, rfl⟩ := h; exact .inr ⟨hn, rfl⟩
    · obtain ⟨a, rest, hs, -, rfl⟩ := h; left; simp [hs]
    · obtain ⟨hn, -, -, rfl⟩ := h; exact .inr ⟨hn, rfl⟩
    · obtain ⟨r, rest, hs, rfl⟩ := h; left; simp [hs]
    · obtain ⟨a, rest, -, ⟨-, r, arest, hs, rfl⟩ | ⟨-, rfl⟩⟩ := h
      · left; simp [hs]
      · exact .inl le_rfl
  · exact .inl (by rw [completes_astack h hi])

theorem completes_stacksBounded {i : Instr} (h : s.StacksBounded) (hc : Completes i s t) : t.StacksBounded := by
  obtain ⟨hd, ha⟩ := h
  have hbuild : t.build = s.build := by rw [completes_frame hc]
  have hdg := completes_dstack_growth hc
  have hag := completes_astack_growth hc
  unfold State.StacksBounded
  rw [hbuild]
  omega

theorem exec_stacksBounded {i : Instr} (h : s.StacksBounded) (he : exec i s = .next t) : t.StacksBounded := by
  rcases exec_cases he with ⟨k, -, rfl⟩ | hc
  · exact h
  · exact completes_stacksBounded h hc

theorem coreTurn_stacksBounded (h : s.StacksBounded) (hc : coreTurn s = .next t) : t.StacksBounded := by
  rcases coreTurn_cases hc with ⟨-, rfl⟩ | ⟨-, -, rfl⟩ | ⟨-, -, -, he⟩ | ⟨-, -, -, -, rfl⟩ | ⟨-, -, -, -, hf⟩
  · exact h
  · exact h
  · exact exec_stacksBounded (s := s.setPending false) h he
  · exact h
  · rcases fetchExecute_cases hf with ⟨-, rfl⟩ | ⟨-, -, rfl⟩ | ⟨-, i, -, he⟩
    · exact h
    · exact h
    · exact exec_stacksBounded h he

/-- Reset empties both stacks; no other host move touches them. -/
theorem hostMove_stacksBounded (m : HostMove) (s : State) (h : s.StacksBounded) : (hostMove m s).StacksBounded := by
  rcases hostMove_cases m s with
    ⟨-, e⟩ | e | ⟨v, -, -, -, -, e⟩ | ⟨v, -, -, -, -, e⟩ | ⟨-, -, -, e⟩ | ⟨b, -, -, e⟩ | ⟨-, e⟩ <;> rw [e]
  · exact ⟨Nat.zero_le _, Nat.zero_le _⟩
  · exact h
  · exact h
  · exact h
  · exact h
  · exact h
  · exact h

/-- Settles O56: it holds, since only a stack that is not full can grow, and then by one cell. -/
theorem stepKeepsStacksBounded : Obligations.StepKeepsStacksBounded := by
  unfold Obligations.StepKeepsStacksBounded
  exact fun s t => step_keeps (fun _ _ h => h) hostMove_stacksBounded fun _ _ _ => coreTurn_stacksBounded

/-! #### The loader's state and the fault record (O58) -/

/-- The loader's state and the fault record together: the failed load needs that `ip` is still 0 in LOAD, and Start that a
core not halted has no fault recorded. -/
structure State.RecordInv (s : State) : Prop where
  loader : s.LoaderOk
  record : s.FaultRecordOk

namespace State.RecordInv

/-- A core that is not halted has no fault recorded (R26, R27). -/
theorem noFault (h : s.RecordInv) (hh : s.halted = false) : s.faultKind = .none ∧ s.faultIp = 0 := by
  obtain ⟨hfault, hzero, -, -⟩ := h.record
  have hk : s.faultKind = .none := by
    by_contra hk
    obtain ⟨hhalted, -⟩ := hfault hk
    exact absurd (hhalted.symm.trans hh) (by decide)
  exact ⟨hk, hzero hk⟩

/-- In RUN with no fault recorded nothing but LOAD_PTR's bound is left to keep. -/
theorem of_run (hp : s.phase = .run) (hC : s.loadPtr ≤ s.build.imageCells)
    (hf : s.faultKind = .none ∧ s.faultIp = 0) : s.RecordInv where
  loader := ⟨hC, by simp [hp]⟩
  record := by simp [State.FaultRecordOk, hp, hf]

/-- Fault entry by a step, which is in RUN and raises no ImageTooLarge (60_exceptions.md R111, R119). -/
theorem raise (h : s.RecordInv) (hp : s.phase = .run) {k : FaultKind} (hk : k ∈ stepFaults) : (s.raise k).RecordInv where
  loader := ⟨h.loader.1, by simp [hp]⟩
  record := by
    have hk' : k ≠ .none ∧ k ≠ .imageTooLarge := by
      constructor <;> rintro rfl <;> exact absurd hk (by decide)
    simp [State.FaultRecordOk, hp, hk']

theorem exec {i : Instr} (h : s.RecordInv) (hp : s.phase = .run) (hh : s.halted = false)
    (he : Machine.exec i s = .next t) : t.RecordInv := by
  rcases exec_cases he with ⟨k, hk, rfl⟩ | hc
  · exact h.raise hp hk
  · rw [completes_frame hc]
    exact of_run hp h.loader.1 (h.noFault hh)

theorem coreTurn (h : s.RecordInv) (hc : Machine.coreTurn s = .next t) : t.RecordInv := by
  rcases coreTurn_cases hc with ⟨-, rfl⟩ | ⟨-, -, rfl⟩ | ⟨hp, hh, -, he⟩ | ⟨hp, hh, -, -, rfl⟩ | ⟨hp, hh, -, -, hf⟩
  · exact h
  · exact h
  · have h' : (s.setPending false).RecordInv := ⟨h.loader, h.record⟩
    exact h'.exec hp hh he
  · exact of_run hp h.loader.1 (h.noFault hh)
  · rcases fetchExecute_cases hf with ⟨-, rfl⟩ | ⟨-, -, rfl⟩ | ⟨-, i, -, he⟩
    · exact h.raise hp (by decide)
    · exact h.raise hp (by decide)
    · exact h.exec hp hh he

/-- A cell loaded below C: the Image stays zero above it (45_interfaces.md R98). -/
theorem loadCell (h : s.RecordInv) (hlt : s.loadPtr < s.build.imageCells) (v : Int) :
    State.RecordInv { s with img := s.img.write s.loadPtr v, loadPtr := s.loadPtr + 1 } := by
  refine ⟨⟨hlt, fun hp => ?_⟩, h.record⟩
  obtain ⟨hip, hd, ha, ho, hw, hk, hzero⟩ := h.loader.2 hp
  refine ⟨hip, hd, ha, ho, hw, hk, fun a hle => ?_⟩
  exact (Memory.read_write_ne s.img v (Nat.ne_of_gt hle)).trans (hzero a (Nat.le_of_lt hle))

/-- The failed load: FAULT_IP is 0, which is `ip` in LOAD (70_reset_and_hazards.md R131). -/
theorem failLoad (h : s.RecordInv) (hp : s.phase = .load) : s.failLoad.RecordInv := by
  obtain ⟨hC, hload⟩ := h.loader
  obtain ⟨hip, hd, ha, ho, hw, -, hzero⟩ := hload hp
  refine ⟨⟨hC, fun _ => ⟨hip, hd, ha, ho, hw, ?_, hzero⟩⟩, ?_⟩
  · simp [State.failLoad]
  · simp [State.FaultRecordOk, State.failLoad, hip, hp]

/-- The reset state: in LOAD, nothing executed, the Image zero, no fault (70_reset_and_hazards.md R127). -/
theorem hostReset (s : State) : s.hostReset.RecordInv where
  loader := ⟨Nat.zero_le _, fun _ => ⟨rfl, rfl, rfl, rfl, rfl, by simp [State.hostReset], fun _ _ => rfl⟩⟩
  record := by simp [State.FaultRecordOk, State.hostReset]

theorem hostMove (m : HostMove) (s : State) (h : s.RecordInv) : (Machine.hostMove m s).RecordInv := by
  rcases hostMove_cases m s with
    ⟨-, e⟩ | e | ⟨v, -, -, -, hlt, e⟩ | ⟨v, -, hp, -, -, e⟩ | ⟨-, -, hh, e⟩ | ⟨b, -, -, e⟩ | ⟨-, e⟩ <;> rw [e]
  · exact hostReset s
  · exact h
  · exact h.loadCell hlt _
  · exact h.failLoad hp
  · exact of_run rfl h.loader.1 (h.noFault hh)
  · exact ⟨h.loader, h.record⟩
  · exact ⟨h.loader, h.record⟩

theorem setTurns (s : State) (ts : List Turn) (h : s.RecordInv) : (s.setTurns ts).RecordInv := ⟨h.loader, h.record⟩

end State.RecordInv

/-- Settles O58: it holds; every turn keeps `State.RecordInv`. -/
theorem stepKeepsLoaderAndFaultRecord : Obligations.StepKeepsLoaderAndFaultRecord := by
  unfold Obligations.StepKeepsLoaderAndFaultRecord
  intro s t hloader hrecord hstep
  have ht : t.RecordInv := step_keeps State.RecordInv.setTurns State.RecordInv.hostMove
    (fun _ _ _ h hc => h.coreTurn hc) ⟨hloader, hrecord⟩ hstep
  exact ⟨ht.loader, ht.record⟩

/-! #### A halted core (O46) -/

/-- `t` is `s` but for what the host may still write: HALT_FLAG, the input slot and IN_SEQ. -/
def HostWritesOnly (s t : State) : Prop :=
  ∃ flag valid byte seq, t = { s with haltFlag := flag, inValid := valid, inByte := byte, inSeq := seq }

theorem HostWritesOnly.refl (s : State) : HostWritesOnly s s := ⟨_, _, _, _, rfl⟩

/-- On a halted core a host move other than Reset writes nothing else (45_interfaces.md R98, R100, R102). -/
theorem HostWritesOnly.hostMove {m : HostMove} (hm : m ≠ .reset) (hh : s.halted = true) (h : HostWritesOnly s t) :
    HostWritesOnly s (hostMove m t) := by
  obtain ⟨flag, valid, byte, seq, rfl⟩ := h
  rcases hostMove_cases m { s with haltFlag := flag, inValid := valid, inByte := byte, inSeq := seq } with
    ⟨hr, -⟩ | e | ⟨-, -, -, hn, -⟩ | ⟨-, -, -, hn, -⟩ | ⟨-, -, hn, -⟩ | ⟨b, -, -, e⟩ | ⟨-, e⟩
  · exact absurd hr hm
  · rw [e]; exact ⟨_, _, _, _, rfl⟩
  · exact absurd (hh.symm.trans hn) (by decide)
  · exact absurd (hh.symm.trans hn) (by decide)
  · exact absurd (hh.symm.trans hn) (by decide)
  · rw [e]; exact ⟨_, _, _, _, rfl⟩
  · rw [e]; exact ⟨_, _, _, _, rfl⟩

/-- The loader pins act as one host move, none being Observe status (45_interfaces.md R98, R106). -/
theorem loaderEdge_eq_hostMove (p : Pins) (s : State) : ∃ m, m ≠ .reset ∧ loaderEdge p s = hostMove m s := by
  unfold loaderEdge
  split
  · exact ⟨.start, nofun, rfl⟩
  · split
    · exact ⟨.loadCell p.ldData, nofun, rfl⟩
    · exact ⟨.observe, nofun, rfl⟩

/-- So do the input pins (R100). -/
theorem inputEdge_eq_hostMove (p : Pins) (s : State) : ∃ m, m ≠ .reset ∧ inputEdge p s = hostMove m s := by
  unfold inputEdge
  split
  · exact ⟨.deliver p.inData, nofun, rfl⟩
  · exact ⟨.observe, nofun, rfl⟩

/-- So does the halt pin (R102). -/
theorem haltEdge_eq_hostMove (p : Pins) (s : State) : ∃ m, m ≠ .reset ∧ haltEdge p s = hostMove m s := by
  unfold haltEdge
  split
  · exact ⟨.requestHalt, nofun, rfl⟩
  · exact ⟨.observe, nofun, rfl⟩

theorem clockEdge_of_not_rst {p : Pins} (hp : p.rst = false) (s : State) :
    clockEdge p s = haltEdge p (inputEdge p (loaderEdge p s)) := by
  simp [clockEdge, hp]

/-- On a halted core a clock edge with rst low writes only what its three moves write. -/
theorem HostWritesOnly.clockEdge {p : Pins} (hp : p.rst = false) (hh : s.halted = true) :
    HostWritesOnly s (clockEdge p s) := by
  obtain ⟨load, hload, eload⟩ := loaderEdge_eq_hostMove p s
  obtain ⟨input, hinput, einput⟩ := inputEdge_eq_hostMove p (loaderEdge p s)
  obtain ⟨halt, hhalt, ehalt⟩ := haltEdge_eq_hostMove p (inputEdge p (loaderEdge p s))
  rw [clockEdge_of_not_rst hp, ehalt, einput, eload]
  exact (((HostWritesOnly.refl s).hostMove hload hh).hostMove hinput hh).hostMove hhalt hh

/-- A step of a halted core whose turn is no reset: a core turn does nothing, a host turn writes the host's fields. -/
theorem step_of_halted (hh : s.halted = true) (h : step s = .next t) (hm : s.turns.head? ≠ some (.host .reset))
    (hp : ∀ p, s.turns.head? = some (.edge p) → p.rst = false) :
    (s.CoreToMove ∧ t = s.setTurns s.turns.tail) ∨ (¬ s.CoreToMove ∧ HostWritesOnly (s.setTurns s.turns.tail) t) := by
  obtain ⟨-, ⟨hcore, hc⟩ | ⟨m, ts, hts, rfl⟩ | ⟨p, ts, hts, rfl⟩⟩ := step_cases h
  · rw [coreTurn_halted (s := s.setTurns s.turns.tail) hh] at hc
    cases hc
    exact .inl ⟨hcore, rfl⟩
  · have hm' : m ≠ .reset := by rintro rfl; exact hm (by rw [hts]; rfl)
    refine .inr ⟨by simp [State.CoreToMove, hts], ?_⟩
    rw [hts]
    exact (HostWritesOnly.refl (s.setTurns ts)).hostMove hm' hh
  · refine .inr ⟨by simp [State.CoreToMove, hts], ?_⟩
    rw [hts]
    exact HostWritesOnly.clockEdge (hp p (by rw [hts]; rfl)) hh

/-- Settles O46: it holds, by the two kinds of step a halted core has. -/
theorem haltedUntilReset : Obligations.HaltedUntilReset := by
  unfold Obligations.HaltedUntilReset
  intro s t hh hstep hm hp
  rcases step_of_halted hh hstep hm hp with ⟨-, rfl⟩ | ⟨hcore, flag, valid, byte, seq, rfl⟩
  · exact ⟨rfl, fun _ => rfl⟩
  · exact ⟨rfl, fun h => absurd h hcore⟩

end Sys2Proof.Machine

namespace Sys2Proof.Machine

/-! ### Image Memory (20_memory.md)

The checked accesses, the frame of every instruction on the Image, and a STORE into the cell fetched next. -/

variable {s t : State}

/-! #### The checked accesses (R33, R34) -/

/-- A checked read once the Image is replaced: the valid addresses stay, the cell is the new Image's. -/
theorem memRead_setImg (s : State) (m : Memory) (addr : Int) :
    memRead (s.setImg m) addr = if s.InImage addr then .ok (m.read addr.toNat) else .error .outOfBounds :=
  memRead_eq (s.setImg m) addr

/-- After a write a checked read elsewhere answers what it did before: the same fault outside the Image, the same cell inside,
where two addresses that differ name two cells. -/
theorem memRead_write_ne {addr other : Int} (v : Int) (h0 : 0 ≤ addr) (h : other ≠ addr) :
    memRead (s.setImg (s.img.write addr.toNat v)) other = memRead s other := by
  rw [memRead_setImg, memRead_eq]
  by_cases hin : s.InImage other
  · have hcell : other.toNat ≠ addr.toNat := by omega
    rw [Memory.read_write_ne _ _ hcell]
  · rw [if_neg hin, if_neg hin]

/-- Settles O37: it holds, by what a read of the Image answers after a write to the same and to another address. -/
theorem memReadAndMemWriteAreChecked : Obligations.MemReadAndMemWriteAreChecked := by
  unfold Obligations.MemReadAndMemWriteAreChecked
  intro s addr v
  refine ⟨fun hout => ?_, fun ⟨h0, hC⟩ => memRead_ok h0 hC, fun ⟨h0, hC⟩ hwf => ?_⟩
  · have h : addr < 0 ∨ (s.build.imageCells : Int) ≤ addr := by omega
    exact ⟨memRead_error h, memWrite_error h⟩
  · refine ⟨_, memWrite_ok h0 hC, rfl, ?_, fun _ => memRead_write_ne v h0⟩
    rw [memRead_setImg, if_pos ⟨h0, hC⟩, Memory.read_write_eq hwf]

/-! #### What an instruction leaves of the Image (R34, R35) -/

theorem BinaryEffect.img_eq {f : Int → Int → Int} (h : BinaryEffect f s t) : t.img = s.img := by
  obtain ⟨-, -, -, -, -, rfl⟩ := h; rfl

theorem UnaryEffect.img_eq {f : Int → Int} (h : UnaryEffect f s t) : t.img = s.img := by
  obtain ⟨-, -, -, -, rfl⟩ := h; rfl

theorem JumpEffect.img_eq {p : Int → Int → Bool} (h : JumpEffect p s t) : t.img = s.img := by
  obtain ⟨-, -, -, -, ⟨-, -, -, rfl⟩ | ⟨-, rfl⟩⟩ := h <;> rfl

/-- "The only instruction that writes the Image is STORE" (R34). -/
theorem completes_img {i : Instr} (h : Completes i s t) (hi : i ≠ .store) : t.img = s.img := by
  cases i
  case store => exact absurd rfl hi
  case add | sub | mul | and | or | xor | shl | shr => exact BinaryEffect.img_eq h
  case inc | dec => exact UnaryEffect.img_eq h
  case gtJump | ltJump | neJump | eqJump => exact JumpEffect.img_eq h
  case nop | wait => obtain rfl := h; rfl
  case jump => obtain ⟨-, -, rfl⟩ := h; rfl
  case lit | call | drop | ret | output => obtain ⟨-, -, -, rfl⟩ := h; rfl
  case dup | swap | push | pop => obtain ⟨-, -, -, -, rfl⟩ := h; rfl
  case fetch | divmod => obtain ⟨-, -, -, -, -, rfl⟩ := h; rfl
  case zeroExit => obtain ⟨-, -, -, ⟨-, -, -, -, rfl⟩ | ⟨-, rfl⟩⟩ := h <;> rfl
  case input => obtain ⟨-, -, rfl⟩ | ⟨-, -, rfl⟩ | ⟨-, -, rfl⟩ := h <;> rfl

/-- A completed STORE leaves every cell but the one its top of stack addresses. -/
theorem completes_store_read {a : Int} {rest : List Int} (h : Completes .store s t) (hs : s.dstack = a :: rest) {x : Nat}
    (hx : x ≠ a.toNat) : t.img.read x = s.img.read x := by
  obtain ⟨a', b, rest', hs', -, -, rfl⟩ := h
  obtain ⟨rfl, -⟩ := List.cons.inj (hs.symm.trans hs')
  exact Memory.read_write_ne s.img b hx

/-- Settles O41: it holds. A fault leaves the Image, and of the instructions that complete STORE alone writes it, one cell. -/
theorem onlyStoreWritesTheImage : Obligations.OnlyStoreWritesTheImage := by
  unfold Obligations.OnlyStoreWritesTheImage
  intro i s t h
  rcases exec_cases h with ⟨k, -, rfl⟩ | hc
  · exact ⟨fun _ _ => rfl, fun _ _ _ _ _ _ => rfl⟩
  · refine ⟨fun hi x => by rw [completes_img hc hi], ?_⟩
    rintro rfl a rest hs x hx
    exact completes_store_read hc hs hx

/-! #### A STORE into the next cell (R44, 70_reset_and_hazards.md R136) -/

/-- A STORE at a valid address (42_memory_access.md R75). -/
theorem exec_store {a b : Int} {rest : List Int} (hs : s.dstack = a :: b :: rest) (ha : s.InImage a) :
    exec .store s = .next (((s.setDstack rest).setImg (s.img.write a.toNat b)).advance 1) := by
  obtain ⟨h0, hC⟩ := ha
  change execStore s = _
  unfold execStore
  rw [popTwo_cons hs, ok_bind]
  simp only []
  rw [memWrite_ok (s := s.setDstack rest) h0 hC, ok_bind]
  rfl

/-- The step of a core at an instruction boundary, with only core turns to come, executes the instruction whose opcode the
Image holds at `ip` (30_encoding.md R50). -/
theorem step_exec {i : Instr} (hs : s.AtInstruction) (hts : s.turns = []) (hin : s.InImage s.ip)
    (hread : s.img.read s.ip.toNat = i.opcode) : step s = exec i s := by
  obtain ⟨hlegal, hrun, hhalted, hpending, hflag⟩ := hs
  have hdecode : decode (s.img.read s.ip.toNat) = .ok i := hread ▸ decode_opcode i
  have hturn : step s = coreTurn s := by
    unfold step
    rw [if_pos hlegal, hts]
  rw [hturn, coreTurn_exec hrun hhalted hpending hflag hin hdecode]

/-- Settles O54: it holds. The fetch of the second step reads the Image the STORE left, where the written cell reads back. -/
theorem storedCellIsFetchedNext : Obligations.StoredCellIsFetchedNext := by
  unfold Obligations.StoredCellIsFetchedNext
  intro s i rest hs hts hwf hin hnext hstore hstack
  have hwritten := Memory.read_write_eq hwf (s.ip + 1).toNat i.opcode
  refine ⟨_, hwritten, ?_⟩
  have hfirst := (step_exec hs hts hin hstore).trans (exec_store hstack hnext)
  rw [run_step 1 hfirst, run_one]
  exact step_exec hs hts hnext hwritten

end Sys2Proof.Machine

namespace Sys2Proof

/-! ### Encoding (30_encoding.md)

A written line against its cells, in both directions, and the turn of a core that stands at an instruction boundary. -/

/-! #### Lines and their cells (R46, R48, R55, R56) -/

theorem Instr.cells_of_format_z {i : Instr} (h : i.format = .z) : i.cells = 1 := by simp [Instr.cells, h]

theorem Instr.cells_of_format_i {i : Instr} (h : i.format = .i) : i.cells = 2 := by simp [Instr.cells, h]

/-- The two shapes of a well-formed line (R46). -/
theorem Line.wellFormed_cases {W : Nat} {l : Line} (h : l.wellFormed W = true) :
    (∃ i, i.format = .z ∧ l = ⟨i, none⟩) ∨ (∃ i v, i.format = .i ∧ Fits W v ∧ l = ⟨i, some v⟩) := by
  obtain ⟨i, operand⟩ := l
  cases hf : i.format with
  | z =>
    cases operand with
    | none => exact .inl ⟨i, hf, rfl⟩
    | some v => simp [Line.wellFormed, hf] at h
  | i =>
    cases operand with
    | none => simp [Line.wellFormed, hf] at h
    | some v => exact .inr ⟨i, v, hf, by simpa [Line.wellFormed, hf] using h, rfl⟩

theorem decodeLine_error {op : Int} {r : Reject} (h : decode op = .error r) (cs : List Int) :
    decodeLine (op :: cs) = .error r := by
  simp [decodeLine, h]

/-- A format-Z opcode is a line by itself. -/
theorem decodeLine_z {op : Int} {i : Instr} (h : decode op = .ok i) (hf : i.format = .z) (cs : List Int) :
    decodeLine (op :: cs) = .ok (⟨i, none⟩, cs) := by
  simp [decodeLine, h, hf]

/-- A format-I opcode takes the cell after it. -/
theorem decodeLine_i {op : Int} {i : Instr} (h : decode op = .ok i) (hf : i.format = .i) (v : Int) (cs : List Int) :
    decodeLine (op :: v :: cs) = .ok (⟨i, some v⟩, cs) := by
  simp [decodeLine, h, hf]

/-- A format-I opcode with no cell after it is no line. -/
theorem decodeLine_i_nil {op : Int} {i : Instr} (h : decode op = .ok i) (hf : i.format = .i) :
    decodeLine [op] = .error .endOfCells := by
  simp [decodeLine, h, hf]

/-- Settles O30: it holds. By format, since an instruction's opcode decodes to it and the format says whether the next cell is
its operand; that the operand fits `W` bits is not needed. -/
theorem encodedLinesDecodeBack : Obligations.EncodedLinesDecodeBack := by
  unfold Obligations.EncodedLinesDecodeBack
  intro W l rest hl
  rcases Line.wellFormed_cases hl with ⟨i, hf, rfl⟩ | ⟨i, v, hf, -, rfl⟩
  · exact decodeLine_z (decode_opcode i) hf rest
  · exact decodeLine_i (decode_opcode i) hf v rest

/-- What a cell sequence that decodes looks like: an opcode, with the operand cell its format asks for. -/
theorem decodeLine_cases {cs rest : List Int} {l : Line} (h : decodeLine cs = .ok (l, rest)) :
    (∃ i, i.format = .z ∧ l = ⟨i, none⟩ ∧ cs = i.opcode :: rest) ∨
    (∃ i v, i.format = .i ∧ l = ⟨i, some v⟩ ∧ cs = i.opcode :: v :: rest) := by
  rcases cs with _ | ⟨op, cs⟩
  · cases h
  · cases hd : decode op with
    | error r => rw [decodeLine_error hd] at h; cases h
    | ok i =>
      obtain rfl := opcode_of_decode hd
      cases hf : i.format with
      | z =>
        rw [decodeLine_z hd hf] at h
        cases h
        exact .inl ⟨i, hf, rfl, rfl⟩
      | i =>
        rcases cs with _ | ⟨v, cs⟩
        · rw [decodeLine_i_nil hd hf] at h; cases h
        · rw [decodeLine_i hd hf] at h
          cases h
          exact .inr ⟨i, v, hf, rfl, rfl⟩

/-- Settles O31: it holds, by the two shapes of a cell sequence that decodes. -/
theorem decodedLinesEncodeBack : Obligations.DecodedLinesEncodeBack := by
  unfold Obligations.DecodedLinesEncodeBack
  intro cs rest l h
  rcases decodeLine_cases h with ⟨i, hf, rfl, rfl⟩ | ⟨i, v, hf, rfl, rfl⟩
  · exact ⟨rfl, by simp [hf], (Instr.cells_of_format_z hf).symm⟩
  · exact ⟨rfl, by simp [hf], (Instr.cells_of_format_i hf).symm⟩

/-- Settles O29: it holds. The 31 words are decoded one by one; the lengths are those of the instructions decoded. -/
theorem opcodeMapIsTheTable : Obligations.OpcodeMapIsTheTable := by
  unfold Obligations.OpcodeMapIsTheTable
  refine (and_iff_left_of_imp fun hdecoded => ?_).mpr (by decide)
  have hlengths := congrArg (List.map (Option.map Instr.cells)) hdecoded
  rwa [List.map_map] at hlengths

/-- The decoder answers for every cell in 0..30, with the instruction of that opcode (R49, R53). -/
theorem exists_decode_ok {op : Int} (h0 : 0 ≤ op) (h30 : op ≤ 30) : ∃ i, decode op = .ok i ∧ i.opcode = op := by
  cases hd : decode op with
  | error r =>
    obtain ⟨hout, -⟩ := decode_error_iff.mp hd
    omega
  | ok i => exact ⟨i, rfl, (opcode_of_decode hd).symm⟩

namespace Machine

/-! #### The turn of a core at an instruction (R50, R51, R53) -/

variable {s : State}

/-- Item 3: an `ip` that is no valid address. -/
theorem fetchExecute_outside (hin : ¬ s.InImage s.ip) : fetchExecute s = .next (s.raise .outOfBounds) := by
  unfold fetchExecute
  rw [memRead_eq, if_neg hin]

/-- Item 4: a cell that is no opcode. -/
theorem fetchExecute_illegal (hin : s.InImage s.ip) (hop : s.img.read s.ip.toNat < 0 ∨ 30 < s.img.read s.ip.toNat) :
    fetchExecute s = .next (s.raise .invalidOpcode) := by
  unfold fetchExecute
  rw [memRead_eq, if_pos hin]
  simp only [decode_error_iff.mpr ⟨hop, rfl⟩]

/-- A step of a core that stands at an instruction is the fetch in the state less that turn. -/
theorem step_fetch (hs : s.AtInstruction) (hc : s.CoreToMove) : step s = fetchExecute (s.setTurns s.turns.tail) := by
  obtain ⟨hlegal, hrun, hhalted, hpending, hflag⟩ := hs
  rw [step_core hlegal hc]
  exact coreTurn_fetch hrun hhalted hpending hflag

/-- Settles O33: it holds; both tests stand before the fetch in the turn of the core. -/
theorem haltCheckPrecedesTheFetch : Obligations.HaltCheckPrecedesTheFetch := by
  unfold Obligations.HaltCheckPrecedesTheFetch
  intro s hlegal hc hrun
  rw [step_core hlegal hc]
  exact ⟨fun hhalted => coreTurn_halted hhalted, fun hhalted hpending hflag => coreTurn_halt hrun hhalted hpending hflag⟩

/-- Settles O34: it holds, by the two ways a fetch fails; a cell the decoder rejects is outside 0..30. -/
theorem badFetchesFault : Obligations.BadFetchesFault := by
  unfold Obligations.BadFetchesFault
  intro s hs hc
  rw [step_fetch hs hc]
  exact ⟨fun hout => fetchExecute_outside hout, fun hin hop => fetchExecute_illegal hin hop, exists_decode_ok⟩

/-- Settles O32: it holds; past the halt check the turn is the fetch, the decoder and `exec`. -/
theorem stepRunsTheDecodedInstruction : Obligations.StepRunsTheDecodedInstruction := by
  unfold Obligations.StepRunsTheDecodedInstruction
  intro s i ⟨hlegal, hrun, hhalted, hpending, hflag⟩ hc hin hdecode
  rw [step_core hlegal hc]
  exact coreTurn_exec hrun hhalted hpending hflag hin hdecode

end Machine

end Sys2Proof

namespace Sys2Proof.Machine

/-! ### Stack and literal instructions (40_stack.md)

Each proof follows the tests of its rule in the rule's order: a test that passes hands its result to the next, and the first that
fails is the fault, taken from the state the instruction began in. -/

/-- A push below capacity onto a data stack that earlier pops and pushes left. -/
theorem dPush_setDstack {s : State} {d : List Int} (v : Int) (h : d.length < s.build.dstackDepth) :
    dPush (s.setDstack d) v = .ok (s.setDstack (v :: d)) :=
  dPush_ok h.ne

/-- Settles O1: it holds; NOP has no test. -/
theorem nopAdvancesIp : Obligations.NopAdvancesIp := by
  unfold Obligations.NopAdvancesIp
  exact ⟨decode_opcode .nop, rfl, fun _ => rfl⟩

/-- Settles O2: it holds; the read of the operand cell is tested first, then the room on the data stack. -/
theorem litPushesTheOperandCell : Obligations.LitPushesTheOperandCell := by
  unfold Obligations.LitPushesTheOperandCell
  refine ⟨decode_opcode .lit, rfl, fun s => ⟨fun hin hroom => ?_, fun hout => ?_, fun hin hfull => ?_⟩⟩
  · rw [exec, execLit, operandCell, memRead_eq, if_pos hin, ok_bind, dPush_ok hroom]; rfl
  · rw [exec, execLit, operandCell, memRead_eq, if_neg hout]; rfl
  · rw [exec, execLit, operandCell, memRead_eq, if_pos hin, ok_bind, dPush_full hfull]; rfl

/-- Settles O3: it holds; the peek is tested first, then the room on the data stack. -/
theorem dupPushesTheTop : Obligations.DupPushesTheTop := by
  unfold Obligations.DupPushesTheTop
  refine ⟨decode_opcode .dup, rfl, fun s => ⟨fun a rest hs hroom => ?_, fun hs => ?_, fun a rest hs hfull => ?_⟩⟩
  · rw [exec, execDup, dTop_cons hs, ok_bind, dPush_ok hroom, hs]; rfl
  · rw [exec, execDup, dTop_nil hs]; rfl
  · rw [exec, execDup, dTop_cons hs, ok_bind, dPush_full hfull]; rfl

/-- Settles O4: it holds; the pop is DROP's one test. -/
theorem dropDiscardsTheTop : Obligations.DropDiscardsTheTop := by
  unfold Obligations.DropDiscardsTheTop
  refine ⟨decode_opcode .drop, rfl, fun s => ⟨fun a rest hs => ?_, fun hs => ?_⟩⟩
  · rw [exec, execDrop, dPop_cons hs]; rfl
  · rw [exec, execDrop, dPop_nil hs]; rfl

/-- Settles O5: it holds. The two pops are the only tests that can fail: on a stack within its capacity they leave room for the
two pushes. -/
theorem swapExchangesTheTopTwo : Obligations.SwapExchangesTheTopTwo := by
  unfold Obligations.SwapExchangesTheTopTwo
  refine ⟨decode_opcode .swap, rfl, fun s => ⟨fun a b rest hs hcap => ?_, fun hshort => ?_⟩⟩
  · have hroom : (a :: rest).length < s.build.dstackDepth := by simpa [hs] using hcap
    have hroom' : rest.length < s.build.dstackDepth := (Nat.lt_succ_self _).trans hroom
    simp only [exec, execSwap, popTwo_cons hs, ok_bind, dPush_setDstack a hroom', dPush_setDstack b hroom]
    rfl
  · rw [exec, execSwap, popTwo_short hshort]; rfl

/-- Settles O6: it holds; the pop is tested first, then the room on the address stack. -/
theorem pushMovesToTheAddressStack : Obligations.PushMovesToTheAddressStack := by
  unfold Obligations.PushMovesToTheAddressStack
  refine ⟨decode_opcode .push, rfl, fun s => ⟨fun a rest hs hroom => ?_, fun hs => ?_, fun a rest hs hfull => ?_⟩⟩
  · simp only [exec, execPush, dPop_cons hs, ok_bind, aPush_ok (s := s.setDstack rest) hroom]; rfl
  · rw [exec, execPush, dPop_nil hs]; rfl
  · simp only [exec, execPush, dPop_cons hs, ok_bind, aPush_full (s := s.setDstack rest) hfull]; rfl

/-- Settles O7: it holds; the pop is tested first, then the room on the data stack. -/
theorem popMovesToTheDataStack : Obligations.PopMovesToTheDataStack := by
  unfold Obligations.PopMovesToTheDataStack
  refine ⟨decode_opcode .pop, rfl, fun s => ⟨fun a rest hs hroom => ?_, fun hs => ?_, fun a rest hs hfull => ?_⟩⟩
  · simp only [exec, execPop, aPop_cons hs, ok_bind, dPush_ok (s := s.setAstack rest) hroom]; rfl
  · rw [exec, execPop, aPop_nil hs]; rfl
  · simp only [exec, execPop, aPop_cons hs, ok_bind, dPush_full (s := s.setAstack rest) hfull]; rfl

end Sys2Proof.Machine

namespace Sys2Proof.Machine

/-! ### Control-transfer instructions (41_control.md)

The four conditional jumps are one instruction shape with four comparisons: their rule is stated and proved once, and each of them
says only what its comparison decides. -/

variable {s : State}

/-! #### The operand cell (R65) -/

theorem operandCell_inside (h : s.InImage (s.ip + 1)) : operandCell s = .ok (s.img.read (s.ip + 1).toNat) := by
  rw [operandCell, memRead_eq, if_pos h]

theorem operandCell_outside (h : ¬ s.InImage (s.ip + 1)) : operandCell s = .error .outOfBounds := by
  rw [operandCell, memRead_eq, if_neg h]

/-- What the address stack holds does not reach the operand cell. -/
theorem operandCell_setAstack (s : State) (a : List Int) : operandCell (s.setAstack a) = operandCell s := rfl

/-! #### CALL, JUMP, RETURN (R66 to R68) -/

/-- Settles O8: it holds; the room on the address stack is tested first, then the read of the operand cell. -/
theorem callSavesItsOperandAddress : Obligations.CallSavesItsOperandAddress := by
  unfold Obligations.CallSavesItsOperandAddress
  refine ⟨decode_opcode .call, rfl, fun s => ⟨fun hroom hin => ?_, fun hfull => ?_, fun hroom hout => ?_⟩⟩
  · rw [exec, execCall, aPush_ok hroom, ok_bind, operandCell_setAstack, operandCell_inside hin]; rfl
  · rw [exec, execCall, aPush_full hfull]; rfl
  · rw [exec, execCall, aPush_ok hroom, ok_bind, operandCell_setAstack, operandCell_outside hout]; rfl

/-- Settles O9: it holds; the read of the operand cell is JUMP's one test. -/
theorem jumpSetsIpToTheOperand : Obligations.JumpSetsIpToTheOperand := by
  unfold Obligations.JumpSetsIpToTheOperand
  refine ⟨decode_opcode .jump, rfl, fun s => ⟨fun hin => ?_, fun hout => ?_⟩⟩
  · rw [exec, execJump, operandCell_inside hin]; rfl
  · rw [exec, execJump, operandCell_outside hout]; rfl

/-- Settles O10: it holds; the pop is RETURN's one test. -/
theorem returnSetsIpToThePoppedCell : Obligations.ReturnSetsIpToThePoppedCell := by
  unfold Obligations.ReturnSetsIpToThePoppedCell
  refine ⟨decode_opcode .ret, rfl, fun s => ⟨fun r rest hs => ?_, fun hs => ?_⟩⟩
  · rw [exec, execRet, returnOp_cons hs]; rfl
  · rw [exec, execRet, returnOp_nil hs]; rfl

/-! #### The conditional jumps (R65(e), R69 to R72) -/

/-- The rule the four conditional jumps share: with `a` on top of `b` the instruction goes to its operand where `jump b a`, and
past it, unread, where `skip b a`. -/
def ConditionalJump (i : Instr) (jump skip : Int → Int → Prop) : Prop :=
  ∀ s : State,
    (∀ a b rest, s.dstack = a :: b :: rest → jump b a → s.InImage (s.ip + 1) → exec i s =
      .next { s with dstack := rest, ip := s.img.read (s.ip + 1).toNat }) ∧
    (∀ a b rest, s.dstack = a :: b :: rest → jump b a → ¬ s.InImage (s.ip + 1) → exec i s =
      .next { s with halted := true, faultKind := .outOfBounds, faultIp := s.ip }) ∧
    (∀ a b rest, s.dstack = a :: b :: rest → skip b a → exec i s =
      .next { s with dstack := rest, ip := s.ip + 2 }) ∧
    (s.dstack.length < 2 → exec i s =
      .next { s with halted := true, faultKind := .stackUnderflow, faultIp := s.ip })

/-- An instruction that is `condJump` of a predicate which decides `jump` against `skip` obeys the rule: the two pops are tested
first, then, where it jumps, the read of the operand cell. -/
theorem conditionalJump_of_condJump {i : Instr} {p : Int → Int → Bool} {jump skip : Int → Int → Prop}
    (hi : ∀ s, exec i s = commit s (condJump p s)) (hjump : ∀ b a, jump b a → p b a = true)
    (hskip : ∀ b a, skip b a → p b a = false) : ConditionalJump i jump skip := by
  intro s
  rw [hi s]
  refine ⟨fun a b rest hs hj ⟨h0, hC⟩ => ?_, fun a b rest hs hj hout => ?_, fun a b rest hs hk => ?_, fun hshort => ?_⟩
  · rw [condJump_taken hs (hjump b a hj) h0 hC]; rfl
  · have hbad : s.ip + 1 < 0 ∨ (s.build.imageCells : Int) ≤ s.ip + 1 := by omega
    rw [condJump_taken_error hs (hjump b a hj) hbad]; rfl
  · rw [condJump_skipped hs (hskip b a hk)]; rfl
  · rw [condJump_short p hshort]; rfl

/-- Settles O11: it holds; `b ≤ a` is the failure of `b > a`. -/
theorem gtJumpComparesTheTopTwo : Obligations.GtJumpComparesTheTopTwo := by
  have hrule : ConditionalJump .gtJump (· > ·) (· ≤ ·) :=
    conditionalJump_of_condJump (p := condGt) (fun _ => rfl) (fun _ _ h => decide_eq_true h)
      (fun _ _ h => decide_eq_false (Int.not_lt.mpr h))
  exact ⟨decode_opcode .gtJump, rfl, hrule⟩

/-- Settles O12: it holds; `a ≤ b` is the failure of `b < a`. -/
theorem ltJumpComparesTheTopTwo : Obligations.LtJumpComparesTheTopTwo := by
  have hrule : ConditionalJump .ltJump (· < ·) (fun b a => a ≤ b) :=
    conditionalJump_of_condJump (p := condLt) (fun _ => rfl) (fun _ _ h => decide_eq_true h)
      (fun _ _ h => decide_eq_false (Int.not_lt.mpr h))
  exact ⟨decode_opcode .ltJump, rfl, hrule⟩

/-- Settles O13: it holds; NE_JUMP skips where the operands are equal. -/
theorem neJumpComparesTheTopTwo : Obligations.NeJumpComparesTheTopTwo := by
  have hrule : ConditionalJump .neJump (· ≠ ·) (· = ·) :=
    conditionalJump_of_condJump (p := condNe) (fun _ => rfl) (fun _ _ h => decide_eq_true h)
      (fun _ _ h => decide_eq_false (not_not_intro h))
  exact ⟨decode_opcode .neJump, rfl, hrule⟩

/-- Settles O14: it holds; EQ_JUMP skips where the operands differ. -/
theorem eqJumpComparesTheTopTwo : Obligations.EqJumpComparesTheTopTwo := by
  have hrule : ConditionalJump .eqJump (· = ·) (· ≠ ·) :=
    conditionalJump_of_condJump (p := condEq) (fun _ => rfl) (fun _ _ h => decide_eq_true h)
      (fun _ _ h => decide_eq_false h)
  exact ⟨decode_opcode .eqJump, rfl, hrule⟩

/-! #### ZERO_EXIT (R73) -/

/-- ZERO_EXIT past its pop: a RETURN from the state without the cell when it was 0, else the next address. -/
theorem exec_zeroExit {a : Int} {rest : List Int} (hs : s.dstack = a :: rest) :
    exec .zeroExit s =
      commit s (if a = 0 then returnOp (s.setDstack rest) else .ok ((s.setDstack rest).advance 1)) := by
  rw [exec, execZeroExit, dPop_cons hs, ok_bind]
  simp only [condZero, decide_eq_true_eq]

/-- Settles O15: it holds; the pop of the data stack is tested first, then, on a 0, RETURN's pop of the address stack. -/
theorem zeroExitReturnsOnZero : Obligations.ZeroExitReturnsOnZero := by
  unfold Obligations.ZeroExitReturnsOnZero
  refine ⟨decode_opcode .zeroExit, rfl, fun s => ⟨fun rest r arest hs hr => ?_, fun rest hs hr => ?_,
    fun a rest hs hne => ?_, fun hs => ?_⟩⟩
  · rw [exec_zeroExit hs, if_pos rfl, returnOp_cons (s := s.setDstack rest) hr]; rfl
  · rw [exec_zeroExit hs, if_pos rfl, returnOp_nil (s := s.setDstack rest) hr]; rfl
  · rw [exec_zeroExit hs, if_neg hne]; rfl
  · rw [exec, execZeroExit, dPop_nil hs]; rfl

end Sys2Proof.Machine

namespace Sys2Proof.Machine

/-! ### Memory-access instructions (42_memory_access.md)

The pop or the pops are tested first, then the popped address. FETCH's push cannot fail, since its pop made the room; for a
completed STORE the new Image is the old one with one cell written. -/

variable {s : State}

/-- What the data stack holds does not reach a checked read. -/
theorem memRead_setDstack (s : State) (d : List Int) (addr : Int) : memRead (s.setDstack d) addr = memRead s addr := rfl

theorem memWrite_outside {addr v : Int} (h : ¬ s.InImage addr) : memWrite s addr v = .error .outOfBounds :=
  memWrite_error (by omega)

/-- FETCH past its pop: the read at the popped address, then the push of what it answers (R74). -/
theorem exec_fetch {a : Int} {rest : List Int} (hs : s.dstack = a :: rest) :
    exec .fetch s = commit s (do
      let v ← memRead s a
      let t ← dPush (s.setDstack rest) v
      .ok (t.advance 1)) := by
  rw [exec, execFetch, dPop_cons hs, ok_bind]
  simp only [memRead_setDstack]

/-- STORE at an address outside the Image faults from the state it began in, both cells still on the stack (R75). -/
theorem exec_store_outside {a b : Int} {rest : List Int} (hs : s.dstack = a :: b :: rest) (ha : ¬ s.InImage a) :
    exec .store s = .next (s.raise .outOfBounds) := by
  simp only [exec, execStore, popTwo_cons hs, ok_bind, memWrite_outside (s := s.setDstack rest) ha, error_bind, commit_error]

/-- Settles O16: it holds. On a stack within its capacity the pop leaves room for the push, so the read alone can still fail. -/
theorem fetchReadsTheAddressedCell : Obligations.FetchReadsTheAddressedCell := by
  unfold Obligations.FetchReadsTheAddressedCell
  refine ⟨decode_opcode .fetch, rfl, fun s => ⟨fun a rest hs hcap hin => ?_, fun a rest hs hout => ?_, fun hs => ?_⟩⟩
  · have hroom : rest.length < s.build.dstackDepth := by simpa [hs] using hcap
    rw [exec_fetch hs, memRead_eq, if_pos hin, ok_bind, dPush_setDstack _ hroom]; rfl
  · rw [exec_fetch hs, memRead_eq, if_neg hout]; rfl
  · rw [exec, execFetch, dPop_nil hs]; rfl

/-- Settles O17: it holds. The new Image is `s.img.write a.toNat b`: in the canonical form it reads `b` at `a`, and a write
changes no other cell. -/
theorem storeWritesTheAddressedCell : Obligations.StoreWritesTheAddressedCell := by
  unfold Obligations.StoreWritesTheAddressedCell
  refine ⟨decode_opcode .store, rfl, fun s => ⟨fun a b rest hs hin hwf => ?_, fun a b rest hs hout => ?_, fun hshort => ?_⟩⟩
  · exact ⟨s.img.write a.toNat b, exec_store hs hin, Memory.read_write_eq hwf a.toNat b,
      fun _ hx => Memory.read_write_ne s.img b hx⟩
  · exact exec_store_outside hs hout
  · rw [exec, execStore, popTwo_short hshort]; rfl

end Sys2Proof.Machine

namespace Sys2Proof

/-! ### Arithmetic and logic instructions (43_arith_logic.md)

First the cells: what `wrap`, the truncating division, the bitwise operations and the shifts answer, on integers alone. Then the
two instruction shapes of this family, stated and proved once: each instruction says only which function of the popped cells it
pushes. DIVMOD alone has a shape of its own. -/

/-! #### The ends of the range, and `wrap` (00_scope.md R8) -/

/-- The range of a cell is `2^W` long. -/
theorem two_pow_eq_range {W : Nat} (hW : 1 ≤ W) : (2 : Int) ^ W = maxCell W - minCell W + 1 := by
  have hp : (2 : Int) ^ W = ((2 * 2 ^ (W - 1) : Nat) : Int) := by exact_mod_cast two_pow_eq hW
  unfold maxCell minCell
  omega

/-- `wrap` changes its argument by a multiple of `2^W`, the multiple named. -/
theorem wrap_add_bdiv_mul (W : Nat) (x : Int) : x = wrap W x + Int.bdiv x (2 ^ W) * 2 ^ W := by
  have h := Int.bmod_add_bdiv' x (2 ^ W)
  push_cast at h
  exact h.symm

/-- The cell that differs from `x` by a multiple of `2^W` is `wrap x`. -/
theorem wrap_add_mul_of_fits {W : Nat} (hW : 1 ≤ W) {v : Int} (hv : Fits W v) (k : Int) : wrap W (v + k * 2 ^ W) = v := by
  have hdrop : wrap W (v + k * 2 ^ W) = wrap W v := by
    simpa [wrap] using Int.add_mul_bmod_self_right v k (2 ^ W)
  rw [hdrop, wrap_of_fits hW hv]

theorem minCell_fits (W : Nat) : Fits W (minCell W) := by
  have h0 := fits_zero W
  exact ⟨le_rfl, h0.1.trans h0.2⟩

theorem maxCell_fits (W : Nat) : Fits W (maxCell W) := by
  have h0 := fits_zero W
  exact ⟨h0.1.trans h0.2, le_rfl⟩

/-- `MAX + 1 = MIN` (R76(c)). -/
theorem wrap_maxCell_add_one {W : Nat} (hW : 1 ≤ W) : wrap W (maxCell W + 1) = minCell W := by
  have hover : maxCell W + 1 = minCell W + 1 * 2 ^ W := by rw [two_pow_eq_range hW]; ring
  rw [hover, wrap_add_mul_of_fits hW (minCell_fits W)]

/-- `MIN - 1 = MAX` (R76(c)). -/
theorem wrap_minCell_sub_one {W : Nat} (hW : 1 ≤ W) : wrap W (minCell W - 1) = maxCell W := by
  have hunder : minCell W - 1 = maxCell W + (-1) * 2 ^ W := by rw [two_pow_eq_range hW]; ring
  rw [hunder, wrap_add_mul_of_fits hW (maxCell_fits W)]

namespace Machine

/-! #### INC and DEC (R86, R87) -/

theorem incCell_of_fits {W : Nat} (hW : 1 ≤ W) {a : Int} (ha : Fits W a) :
    incCell W a = if a = maxCell W then minCell W else a + 1 := by
  obtain ⟨hmin, hmax⟩ := ha
  unfold incCell
  split
  · next h => rw [h, wrap_maxCell_add_one hW]
  · next h => exact wrap_of_fits hW ⟨by omega, by omega⟩

theorem decCell_of_fits {W : Nat} (hW : 1 ≤ W) {a : Int} (ha : Fits W a) :
    decCell W a = if a = minCell W then maxCell W else a - 1 := by
  obtain ⟨hmin, hmax⟩ := ha
  unfold decCell
  split
  · next h => rw [h, wrap_minCell_sub_one hW]
  · next h => exact wrap_of_fits hW ⟨by omega, by omega⟩

/-! #### The quotient and the remainder (R80, R88) -/

/-- MIN / -1 is the one division whose exact quotient is no cell; it wraps to MIN (decision D8). -/
theorem quotCell_minCell_neg_one {W : Nat} (hW : 1 ≤ W) : quotCell W (minCell W) (-1) = minCell W := by
  have hover : Int.tdiv (minCell W) (-1) = maxCell W + 1 := by
    rw [Int.tdiv_neg, Int.tdiv_one]
    unfold maxCell minCell
    omega
  rw [quotCell, hover, wrap_maxCell_add_one hW]

theorem remCell_neg_one (b : Int) : remCell b (-1) = 0 := by
  rw [remCell, Int.tdiv_neg, Int.tdiv_one]
  omega

/-- Every other quotient of two cells is a cell. A divisor of magnitude 2 or more halves the magnitude of `b` at least, which
brings even MIN inside the range. -/
theorem tdiv_fits {W : Nat} {a b : Int} (hb : Fits W b) (ha : a ≠ 0) (hover : ¬ (b = minCell W ∧ a = -1)) :
    Fits W (Int.tdiv b a) := by
  have hpos : 0 < 2 ^ (W - 1) := Nat.two_pow_pos _
  obtain ⟨hmin, hmax⟩ := hb
  unfold Fits
  unfold minCell at *
  unfold maxCell at *
  by_cases hone : a = 1
  · rw [hone, Int.tdiv_one]
    exact ⟨hmin, hmax⟩
  by_cases hneg : a = -1
  · rw [hneg, Int.tdiv_neg, Int.tdiv_one]
    omega
  · have hhalf : (Int.tdiv b a).natAbs ≤ b.natAbs / 2 := by
      rw [Int.natAbs_tdiv]
      exact Nat.div_le_div_left (by omega) two_pos
    omega

/-- The division law (R88): the exact equation, the size of the remainder and its sign. -/
theorem quotCell_remCell_law {W : Nat} (hW : 1 ≤ W) {a b : Int} (hb : Fits W b) (ha : a ≠ 0)
    (hover : ¬ (b = minCell W ∧ a = -1)) :
    b = a * quotCell W b a + remCell b a ∧ (remCell b a).natAbs < a.natAbs ∧
      (remCell b a = 0 ∨ (remCell b a).sign = b.sign) := by
  have hexact : quotCell W b a = Int.tdiv b a := wrap_of_fits hW (tdiv_fits hb ha hover)
  rw [hexact, remCell_eq_tmod]
  refine ⟨(Int.mul_tdiv_add_tmod b a).symm, ?_, ?_⟩
  · rw [Int.natAbs_tmod]
    exact Nat.mod_lt _ (Int.natAbs_pos.mpr ha)
  · by_cases hdvd : a ∣ b
    · exact .inl (Int.tmod_eq_zero_of_dvd hdvd)
    · exact .inr (by rw [Int.sign_tmod, if_neg hdvd])

/-! #### Bits (R81 to R83, R76(e)) -/

theorem testBit_andCell {W i : Nat} (hi : i < W) (b a : Int) :
    (andCell W b a).testBit i = (b.testBit i && a.testBit i) := by
  rw [andCell, testBit_toInt hi, BitVec.getLsbD_and, getLsbD_ofInt hi, getLsbD_ofInt hi]

theorem testBit_orCell {W i : Nat} (hi : i < W) (b a : Int) :
    (orCell W b a).testBit i = (b.testBit i || a.testBit i) := by
  rw [orCell, testBit_toInt hi, BitVec.getLsbD_or, getLsbD_ofInt hi, getLsbD_ofInt hi]

theorem testBit_xorCell {W i : Nat} (hi : i < W) (b a : Int) :
    (xorCell W b a).testBit i = (b.testBit i ^^ a.testBit i) := by
  rw [xorCell, testBit_toInt hi, BitVec.getLsbD_xor, getLsbD_ofInt hi, getLsbD_ofInt hi]

/-! #### Shifts (R84, R85, decision D9) -/

theorem shlCell_inside {W : Nat} {a : Int} (h0 : 0 ≤ a) (haW : a < W) (b : Int) :
    shlCell W b a = wrap W (b * 2 ^ a.toNat) := by
  rw [shlCell, if_pos ⟨h0, haW⟩]
  push_cast
  rfl

theorem shlCell_outside {W : Nat} {a : Int} (ha : a < 0 ∨ (W : Int) ≤ a) (b : Int) : shlCell W b a = 0 :=
  if_neg (by omega)

/-- Inside the range SHR is the unsigned right shift of the cell's bits. -/
theorem shrCell_inside {W : Nat} (hW : 1 ≤ W) {a b : Int} (hb : Fits W b) (h0 : 0 ≤ a) (haW : a < W) :
    shrCell W b a = (BitVec.ofInt W b >>> a.toNat).toInt := by
  rw [shrCell, if_pos ⟨h0, haW⟩, unsignedOf_eq hW hb, ← Int.natCast_ediv, ← Nat.shiftRight_eq_div_pow,
    ← BitVec.toNat_ushiftRight, wrap_toNat]

theorem shrCell_outside {W : Nat} {a : Int} (ha : a < 0 ∨ (W : Int) ≤ a) (b : Int) : shrCell W b a = 0 :=
  if_neg (by omega)

/-- Bit `i` of the shifted cell is bit `i + a` of the cell, and 0 where there is no such bit. -/
theorem testBit_shrCell {W : Nat} (hW : 1 ≤ W) {a b : Int} (hb : Fits W b) (h0 : 0 ≤ a) (haW : a < W) {i : Nat} (hi : i < W) :
    (shrCell W b a).testBit i = (decide (i + a.toNat < W) && b.testBit (i + a.toNat)) := by
  rw [shrCell_inside hW hb h0 haW, testBit_toInt hi, BitVec.getLsbD_ushiftRight, Nat.add_comm a.toNat i]
  by_cases hin : i + a.toNat < W
  · rw [getLsbD_ofInt hin, decide_eq_true hin, Bool.true_and]
  · rw [BitVec.getLsbD_of_ge _ _ (Nat.le_of_not_lt hin), decide_eq_false hin, Bool.false_and]

/-! #### The two shapes (R76, R86, R87) -/

theorem Build.one_le_cellBits {b : Build} (h : b.legal = true) : 1 ≤ b.cellBits := by
  obtain ⟨h32, -⟩ := (Build.legal_iff b).mp h
  omega

/-- The rule of a two-operand instruction that pushes `f W b a` for the cells `a` on top of `b`. -/
def ReplacesTopTwo (i : Instr) (f : Nat → Int → Int → Int) : Prop :=
  ∀ s : State,
    (∀ a b rest, s.dstack = a :: b :: rest → s.dstack.length ≤ s.build.dstackDepth → exec i s =
      .next { s with dstack := f s.build.cellBits b a :: rest, ip := s.ip + 1 }) ∧
    (s.dstack.length < 2 → exec i s =
      .next { s with halted := true, faultKind := .stackUnderflow, faultIp := s.ip })

/-- An instruction that is `binaryOp` of `f` obeys the rule: within capacity the two pops are the only tests that can fail. -/
theorem replacesTopTwo_of_binaryOp {i : Instr} {f : Nat → Int → Int → Int}
    (hi : ∀ s, exec i s = commit s (binaryOp (f s.build.cellBits) s)) : ReplacesTopTwo i f := by
  intro s
  rw [hi s]
  refine ⟨fun a b rest hs hcap => ?_, fun hshort => ?_⟩
  · rw [binaryOp_ok _ hs hcap]; rfl
  · rw [binaryOp_short _ hshort]; rfl

/-- The rule of a one-operand instruction that pushes `f W a` for the cell `a` on top. -/
def ReplacesTop (i : Instr) (f : Nat → Int → Int) : Prop :=
  ∀ s : State,
    (∀ a rest, s.dstack = a :: rest → s.dstack.length ≤ s.build.dstackDepth → exec i s =
      .next { s with dstack := f s.build.cellBits a :: rest, ip := s.ip + 1 }) ∧
    (s.dstack = [] → exec i s =
      .next { s with halted := true, faultKind := .stackUnderflow, faultIp := s.ip })

/-- An instruction that is `unaryOp` of `f` obeys the rule: within capacity the pop is the only test that can fail. -/
theorem replacesTop_of_unaryOp {i : Instr} {f : Nat → Int → Int}
    (hi : ∀ s, exec i s = commit s (unaryOp (f s.build.cellBits) s)) : ReplacesTop i f := by
  intro s
  rw [hi s]
  refine ⟨fun a rest hs hcap => ?_, fun hs => ?_⟩
  · rw [unaryOp_ok _ hs hcap]; rfl
  · rw [unaryOp_nil _ hs]; rfl

/-! #### ADD, SUB, MUL (R77 to R79) -/

/-- The rule ADD, SUB and MUL share: the cell pushed is the one congruent to the exact result `g b a`. -/
def PushesWrapped (i : Instr) (g : Int → Int → Int) : Prop :=
  ∀ s : State,
    (∀ a b rest, s.dstack = a :: b :: rest → s.dstack.length ≤ s.build.dstackDepth → s.build.legal = true → ∃ v k : Int,
      exec i s = .next { s with dstack := v :: rest, ip := s.ip + 1 } ∧
        Fits s.build.cellBits v ∧ g b a = v + k * 2 ^ s.build.cellBits) ∧
    (s.dstack.length < 2 → exec i s =
      .next { s with halted := true, faultKind := .stackUnderflow, faultIp := s.ip })

theorem ReplacesTopTwo.pushesWrapped {i : Instr} {g : Int → Int → Int}
    (h : ReplacesTopTwo i fun W b a => wrap W (g b a)) : PushesWrapped i g := by
  intro s
  obtain ⟨hpush, hshort⟩ := h s
  exact ⟨fun a b rest hs hcap hlegal => ⟨_, _, hpush a b rest hs hcap, wrap_fits (Build.one_le_cellBits hlegal) _,
    wrap_add_bdiv_mul _ _⟩, hshort⟩

/-- Settles O18: it holds; ADD is the two-operand shape with the wrapped sum. -/
theorem addPushesTheWrappedSum : Obligations.AddPushesTheWrappedSum := by
  have hshape : ReplacesTopTwo .add addCell := replacesTopTwo_of_binaryOp fun _ => rfl
  exact ⟨decode_opcode .add, rfl, hshape.pushesWrapped (g := (· + ·))⟩

/-- Settles O19: it holds; SUB is the two-operand shape with the wrapped difference, the top subtracted from the cell beneath. -/
theorem subPushesTheWrappedDifference : Obligations.SubPushesTheWrappedDifference := by
  have hshape : ReplacesTopTwo .sub subCell := replacesTopTwo_of_binaryOp fun _ => rfl
  exact ⟨decode_opcode .sub, rfl, hshape.pushesWrapped (g := (· - ·))⟩

/-- Settles O20: it holds; MUL is the two-operand shape with the wrapped product. -/
theorem mulPushesTheWrappedProduct : Obligations.MulPushesTheWrappedProduct := by
  have hshape : ReplacesTopTwo .mul mulCell := replacesTopTwo_of_binaryOp fun _ => rfl
  exact ⟨decode_opcode .mul, rfl, hshape.pushesWrapped (g := (· * ·))⟩

/-! #### DIVMOD (R80) -/

variable {s : State}

/-- DIVMOD past its two pops, its two pushes within capacity: the remainder beneath the quotient. -/
theorem exec_divmod {a b : Int} {rest : List Int} (hs : s.dstack = a :: b :: rest)
    (hcap : s.dstack.length ≤ s.build.dstackDepth) (ha : a ≠ 0) :
    exec .divmod s =
      .next { s with dstack := quotCell s.build.cellBits b a :: remCell b a :: rest, ip := s.ip + 1 } := by
  have hroom : (remCell b a :: rest).length < s.build.dstackDepth := by simpa [hs] using hcap
  have hroom' : rest.length < s.build.dstackDepth := (Nat.lt_succ_self _).trans hroom
  simp only [exec, execDivmod, popTwo_cons hs, ok_bind, if_neg ha, dPush_setDstack _ hroom', dPush_setDstack _ hroom,
    State.setDstack_build]
  rfl

theorem exec_divmod_zero {b : Int} {rest : List Int} (hs : s.dstack = 0 :: b :: rest) :
    exec .divmod s = .next (s.raise .divisionByZero) := by
  simp only [exec, execDivmod, popTwo_cons hs, ok_bind, if_true, commit_error]

/-- Settles O21: it holds. The two pops are tested first, then the divisor; the cells pushed obey the division law, except that
the quotient MIN / -1 wraps. -/
theorem divmodFollowsTheDivisionLaw : Obligations.DivmodFollowsTheDivisionLaw := by
  unfold Obligations.DivmodFollowsTheDivisionLaw
  refine ⟨decode_opcode .divmod, rfl, fun s => ⟨fun a b rest hs hcap hlegal _ hb ha => ?_, fun b rest hs => ?_,
    fun hshort => ?_⟩⟩
  · have hW := Build.one_le_cellBits hlegal
    refine ⟨_, _, exec_divmod hs hcap ha, ?_, quotCell_remCell_law hW hb ha⟩
    rintro rfl rfl
    exact ⟨quotCell_minCell_neg_one hW, remCell_neg_one _⟩
  · exact exec_divmod_zero hs
  · rw [exec, execDivmod, popTwo_short hshort]; rfl

/-! #### AND, OR, XOR (R81 to R83) -/

/-- Settles O22: it holds; each is the two-operand shape with its bitwise function. -/
theorem bitwiseOpsActBitByBit : Obligations.BitwiseOpsActBitByBit := by
  have hand : ReplacesTopTwo .and andCell := replacesTopTwo_of_binaryOp fun _ => rfl
  have hor : ReplacesTopTwo .or orCell := replacesTopTwo_of_binaryOp fun _ => rfl
  have hxor : ReplacesTopTwo .xor xorCell := replacesTopTwo_of_binaryOp fun _ => rfl
  unfold Obligations.BitwiseOpsActBitByBit
  refine ⟨⟨decode_opcode .and, rfl, decode_opcode .or, rfl, decode_opcode .xor, rfl⟩, fun s => ?_⟩
  obtain ⟨hand, hand_short⟩ := hand s
  obtain ⟨hor, hor_short⟩ := hor s
  obtain ⟨hxor, hxor_short⟩ := hxor s
  refine ⟨fun a b rest hs hcap => ⟨?_, ?_, ?_⟩, hand_short, hor_short, hxor_short⟩
  · exact ⟨_, hand a b rest hs hcap, andCell_fits b a, fun _ hi => testBit_andCell hi b a⟩
  · exact ⟨_, hor a b rest hs hcap, orCell_fits b a, fun _ hi => testBit_orCell hi b a⟩
  · exact ⟨_, hxor a b rest hs hcap, xorCell_fits b a, fun _ hi => testBit_xorCell hi b a⟩

/-! #### SHL and SHR (R84, R85) -/

/-- Settles O23: it holds; SHL is the two-operand shape, and its function wraps `b * 2^a` inside the range of amounts. -/
theorem shiftLeftDropsBitsAtTheTop : Obligations.ShiftLeftDropsBitsAtTheTop := by
  have hshape : ReplacesTopTwo .shl shlCell := replacesTopTwo_of_binaryOp fun _ => rfl
  unfold Obligations.ShiftLeftDropsBitsAtTheTop
  refine ⟨decode_opcode .shl, rfl, fun s => ?_⟩
  obtain ⟨hpush, hshort⟩ := hshape s
  refine ⟨fun a b rest hs hcap hlegal h0 haW => ?_, fun a b rest hs hcap hout => ?_, hshort⟩
  · have hshl := hpush a b rest hs hcap
    rw [shlCell_inside h0 haW] at hshl
    exact ⟨_, _, hshl, wrap_fits (Build.one_le_cellBits hlegal) _, wrap_add_bdiv_mul _ _⟩
  · rw [hpush a b rest hs hcap, shlCell_outside hout]

/-- Settles O24: it holds; SHR is the two-operand shape, and its function shifts the cell's bits inside the range of amounts. -/
theorem shiftRightIsLogical : Obligations.ShiftRightIsLogical := by
  have hshape : ReplacesTopTwo .shr shrCell := replacesTopTwo_of_binaryOp fun _ => rfl
  unfold Obligations.ShiftRightIsLogical
  refine ⟨decode_opcode .shr, rfl, fun s => ?_⟩
  obtain ⟨hpush, hshort⟩ := hshape s
  refine ⟨fun a b rest hs hcap hlegal hb h0 haW => ?_, fun a b rest hs hcap hout => ?_, hshort⟩
  · have hW := Build.one_le_cellBits hlegal
    exact ⟨_, hpush a b rest hs hcap, shrCell_fits hW b a, fun _ hi => testBit_shrCell hW hb h0 haW hi⟩
  · rw [hpush a b rest hs hcap, shrCell_outside hout]

/-! #### INC and DEC (R86, R87) -/

/-- Settles O25: it holds; both are the one-operand shape, and wrap at the one end where the exact result leaves the range. -/
theorem incAndDecWrapAtTheEnds : Obligations.IncAndDecWrapAtTheEnds := by
  have hinc : ReplacesTop .inc incCell := replacesTop_of_unaryOp fun _ => rfl
  have hdec : ReplacesTop .dec decCell := replacesTop_of_unaryOp fun _ => rfl
  unfold Obligations.IncAndDecWrapAtTheEnds
  refine ⟨⟨decode_opcode .inc, rfl, decode_opcode .dec, rfl⟩, fun s => ?_⟩
  obtain ⟨hinc, hinc_nil⟩ := hinc s
  obtain ⟨hdec, hdec_nil⟩ := hdec s
  refine ⟨fun a rest hs hcap hlegal ha => ?_, hinc_nil, hdec_nil⟩
  have hW := Build.one_le_cellBits hlegal
  rw [← incCell_of_fits hW ha, ← decCell_of_fits hW ha]
  exact ⟨hinc a rest hs hcap, hdec a rest hs hcap⟩

end Machine

end Sys2Proof

namespace Sys2Proof.Machine

/-! ### Port I/O instructions (44_port_io.md)

IN is the one instruction that waits. First the two invariants it takes part in, the mark of a pending IN and the order of the
bytes delivered; then its rule case by case, and its turns with host moves between them; last OUT and WAIT. -/

variable {s t : State}

/-! #### A pending IN (R90, 45_interfaces.md R101) -/

/-- The core runs and the cell at `ip` is an IN. -/
abbrev State.RunsInput (s : State) : Prop :=
  s.phase = .run ∧ s.halted = false ∧ memRead s s.ip = .ok Instr.input.opcode

/-- With no IN pending there is nothing to keep. -/
theorem pendingOk_of_not_pending (h : s.inPending = false) : s.PendingOk := by simp [State.PendingOk, h]

/-- In LOAD no IN is pending. -/
theorem State.PendingOk.not_pending_of_load (h : s.PendingOk) (hp : s.phase = .load) : s.inPending = false := by
  by_contra hn
  obtain ⟨hrun, -⟩ := h (eq_true_of_ne_false hn)
  exact absurd (hp.symm.trans hrun) (by decide)

/-- Only a waiting IN sets the mark, and it sets nothing else. -/
theorem completes_inPending {i : Instr} (h : Completes i s t) :
    t.inPending = s.inPending ∨ (i = .input ∧ t = s.setPending true) := by
  by_cases hi : i = .input
  · subst hi
    obtain ⟨-, -, rfl⟩ | ⟨-, -, rfl⟩ | ⟨-, -, rfl⟩ := h
    · exact .inl rfl
    · exact .inl rfl
    · exact .inr ⟨rfl, rfl⟩
  by_cases ho : i = .output
  · subst ho; obtain ⟨-, -, -, rfl⟩ := h; exact .inl rfl
  by_cases hw : i = .wait
  · subst hw; obtain rfl := h; exact .inl rfl
  exact .inl (by rw [completes_keeps h hi ho hw])

/-- An instruction executes with the mark clear; what sets it again is an IN, still at `ip` on a running core. -/
theorem exec_pendingOk {i : Instr} (hclear : s.inPending = false) (hin : i = .input → s.RunsInput)
    (he : exec i s = .next t) : t.PendingOk := by
  rcases exec_cases he with ⟨k, -, rfl⟩ | hc
  · exact pendingOk_of_not_pending hclear
  · rcases completes_inPending hc with hkept | ⟨hi, rfl⟩
    · exact pendingOk_of_not_pending (hkept.trans hclear)
    · exact fun _ => hin hi

theorem coreTurn_pendingOk (h : s.PendingOk) (hc : coreTurn s = .next t) : t.PendingOk := by
  rcases coreTurn_cases hc with ⟨-, rfl⟩ | ⟨-, -, rfl⟩ | ⟨-, -, hpend, he⟩ | ⟨-, -, hclear, -, rfl⟩ | ⟨hp, hh, hclear, -, hf⟩
  · exact h
  · exact h
  · exact exec_pendingOk (s := s.setPending false) rfl (fun _ => h hpend) he
  · exact pendingOk_of_not_pending hclear
  · rcases fetchExecute_cases hf with ⟨-, rfl⟩ | ⟨-, -, rfl⟩ | ⟨hin, i, hd, he⟩
    · exact pendingOk_of_not_pending hclear
    · exact pendingOk_of_not_pending hclear
    · refine exec_pendingOk hclear ?_ he
      rintro rfl
      exact ⟨hp, hh, by rw [memRead_eq, if_pos hin, opcode_of_decode hd]⟩

/-- Reset clears the mark, the loader acts in LOAD alone, and the other moves touch neither the Image nor `ip`. -/
theorem hostMove_pendingOk (m : HostMove) (s : State) (h : s.PendingOk) : (hostMove m s).PendingOk := by
  rcases hostMove_cases m s with
    ⟨-, e⟩ | e | ⟨v, -, hp, -, -, e⟩ | ⟨v, -, hp, -, -, e⟩ | ⟨-, hp, -, e⟩ | ⟨b, -, -, e⟩ | ⟨-, e⟩ <;> rw [e]
  · exact pendingOk_of_not_pending rfl
  · exact h
  · exact pendingOk_of_not_pending (h.not_pending_of_load hp)
  · exact pendingOk_of_not_pending (h.not_pending_of_load hp)
  · exact pendingOk_of_not_pending (h.not_pending_of_load hp)
  · exact h
  · exact h

/-- Settles O57: it holds; every turn keeps the invariant. -/
theorem stepKeepsPendingIn : Obligations.StepKeepsPendingIn := by
  unfold Obligations.StepKeepsPendingIn
  exact fun s t => step_keeps (fun _ _ h => h) hostMove_pendingOk fun _ _ _ => coreTurn_pendingOk

/-! #### The bytes delivered (R89, 45_interfaces.md R100) -/

theorem inputOk_of_full (hv : s.inValid = true) :
    s.InputOk ↔ s.inTaken + 1 = s.inSeq.length ∧ s.inSeq[s.inTaken]? = some s.inByte := by
  simp [State.InputOk, hv]

theorem inputOk_of_empty (hv : s.inValid = false) : s.InputOk ↔ s.inTaken = s.inSeq.length := by
  simp [State.InputOk, hv]

/-- IN alone moves the slot, from full to empty, and counts the byte in it as consumed. -/
theorem exec_inputOk {i : Instr} (h : s.InputOk) (he : exec i s = .next t) : t.InputOk := by
  obtain ⟨⟨-, -, -, hbyte, hseq, -, -⟩, -, -, -, hslot⟩ := instructionsKeepPortAndLoaderState i s t he
  obtain ⟨hvalid, htaken⟩ | ⟨-, hfull, hempty, htaken⟩ := hslot
  · simpa only [State.InputOk, hvalid, htaken, hbyte, hseq] using h
  · obtain ⟨hlength, -⟩ := (inputOk_of_full hfull).mp h
    rw [inputOk_of_empty hempty, htaken, hseq]
    exact hlength

theorem coreTurn_inputOk (h : s.InputOk) (hc : coreTurn s = .next t) : t.InputOk := by
  rcases coreTurn_cases hc with ⟨-, rfl⟩ | ⟨-, -, rfl⟩ | ⟨-, -, -, he⟩ | ⟨-, -, -, -, rfl⟩ | ⟨-, -, -, -, hf⟩
  · exact h
  · exact h
  · exact exec_inputOk (s := s.setPending false) h he
  · exact h
  · rcases fetchExecute_cases hf with ⟨-, rfl⟩ | ⟨-, -, rfl⟩ | ⟨-, i, -, he⟩
    · exact h
    · exact h
    · exact exec_inputOk h he

/-- A byte delivered into the empty slot joins IN_SEQ behind the bytes consumed. -/
theorem deliver_inputOk (h : s.InputOk) (hv : s.inValid = false) (b : Byte) :
    State.InputOk { s with inValid := true, inByte := b, inSeq := s.inSeq ++ [b] } := by
  rw [inputOk_of_empty hv] at h
  rw [inputOk_of_full rfl]
  simp [h]

/-- Reset empties IN_SEQ and the slot; of the other moves only Deliver touches them. -/
theorem hostMove_inputOk (m : HostMove) (s : State) (h : s.InputOk) : (hostMove m s).InputOk := by
  rcases hostMove_cases m s with
    ⟨-, e⟩ | e | ⟨v, -, -, -, -, e⟩ | ⟨v, -, -, -, -, e⟩ | ⟨-, -, -, e⟩ | ⟨b, -, hv, e⟩ | ⟨-, e⟩ <;> rw [e]
  · exact (inputOk_of_empty (s := s.hostReset) rfl).mpr rfl
  · exact h
  · exact h
  · exact h
  · exact h
  · exact deliver_inputOk h hv b
  · exact h

/-- Settles O59: it holds; every turn keeps the invariant. -/
theorem stepKeepsInputOrder : Obligations.StepKeepsInputOrder := by
  unfold Obligations.StepKeepsInputOrder
  exact fun s t => step_keeps (fun _ _ h => h) hostMove_inputOk fun _ _ _ => coreTurn_inputOk

/-! #### IN (R90) -/

theorem requestInput_byte (hv : s.inValid = true) : requestInput s = .byte s.inByte := by simp [requestInput, hv]

theorem requestInput_halt (hv : s.inValid = false) (hf : s.haltFlag = true) : requestInput s = .haltRequested := by
  simp [requestInput, hv, hf]

theorem requestInput_wait (hv : s.inValid = false) (hf : s.haltFlag = false) : requestInput s = .waiting := by
  simp [requestInput, hv, hf]

/-- With a byte in the slot and room for it. -/
theorem exec_input_takes (hv : s.inValid = true) (hroom : s.dstack.length ≠ s.build.dstackDepth) :
    exec .input s = .next ((s.setDstack (zext8 s.inByte :: s.dstack)).takeByte.advance 1) := by
  simp only [exec, execInput, requestInput_byte hv, dPush_ok hroom, ok_bind, commit_ok]

/-- With a byte in the slot and no room, the byte stays. -/
theorem exec_input_overflow (hv : s.inValid = true) (hfull : s.dstack.length = s.build.dstackDepth) :
    exec .input s = .next (s.raise .stackOverflow) := by
  simp only [exec, execInput, requestInput_byte hv, dPush_full hfull, error_bind, commit_error]

/-- With no byte and a halt requested. -/
theorem exec_input_halts (hv : s.inValid = false) (hf : s.haltFlag = true) : exec .input s = .next s.halt := by
  simp only [exec, execInput, requestInput_halt hv hf]

/-- With no byte and no halt requested. -/
theorem exec_input_waits (hv : s.inValid = false) (hf : s.haltFlag = false) :
    exec .input s = .next (s.setPending true) := by
  simp only [exec, execInput, requestInput_wait hv hf]

/-- Settles O26: it holds; the slot is looked at first, then the halt flag, and a byte found is pushed if there is room. -/
theorem inTakesWaitsOrHalts : Obligations.InTakesWaitsOrHalts := by
  unfold Obligations.InTakesWaitsOrHalts
  exact ⟨decode_opcode .input, rfl, fun s => ⟨exec_input_takes, exec_input_overflow, exec_input_halts, exec_input_waits⟩⟩

/-! #### An IN with host moves between its turns (R90, 45_interfaces.md R106, R108) -/

/-- A step whose turn is a host move. -/
theorem step_host {m : HostMove} {ts : List Turn} (hl : s.build.legal = true) (hts : s.turns = .host m :: ts) :
    step s = .next (hostMove m (s.setTurns ts)) := by
  unfold step
  rw [if_pos hl, hts]

/-- A step whose scheduled turn is the core's. -/
theorem step_core_turn {ts : List Turn} (hl : s.build.legal = true) (hts : s.turns = .core :: ts) :
    step s = coreTurn (s.setTurns ts) := by
  rw [step_core hl (by simp [State.CoreToMove, hts]), hts, List.tail_cons]

/-- The core comes to an IN and finds neither a byte nor a halt request: the IN is pending. -/
theorem step_input_waits {ts : List Turn} (hs : s.AtInstruction) (hin : s.InImage s.ip)
    (hread : s.img.read s.ip.toNat = Instr.input.opcode) (hv : s.inValid = false) (hts : s.turns = .core :: ts) :
    step s = .next ((s.setTurns ts).setPending true) := by
  obtain ⟨hlegal, hrun, hhalted, hpending, hflag⟩ := hs
  have hdecode : decode (s.img.read s.ip.toNat) = .ok .input := hread ▸ decode_opcode .input
  rw [step_core_turn hlegal hts, coreTurn_exec (s := s.setTurns ts) hrun hhalted hpending hflag hin hdecode]
  exact exec_input_waits hv hflag

/-- The core's turn at an IN that is pending, with a byte in the slot: the byte is taken without a halt check. -/
theorem step_pending_takes {ts : List Turn} (hl : s.build.legal = true) (hp : s.phase = .run) (hh : s.halted = false)
    (hq : s.inPending = true) (hts : s.turns = .core :: ts) (hv : s.inValid = true)
    (hroom : s.dstack.length ≠ s.build.dstackDepth) :
    step s = .next
      ((((s.setTurns ts).setPending false).setDstack (zext8 s.inByte :: s.dstack)).takeByte.advance 1) := by
  rw [step_core_turn hl hts, coreTurn_pending (s := s.setTurns ts) hp hh hq]
  exact exec_input_takes (s := (s.setTurns ts).setPending false) hv hroom

/-- The core's turn at an IN that is pending, with no byte and a halt requested. -/
theorem step_pending_halts {ts : List Turn} (hl : s.build.legal = true) (hp : s.phase = .run) (hh : s.halted = false)
    (hq : s.inPending = true) (hts : s.turns = .core :: ts) (hv : s.inValid = false) (hf : s.haltFlag = true) :
    step s = .next ((s.setTurns ts).setPending false).halt := by
  rw [step_core_turn hl hts, coreTurn_pending (s := s.setTurns ts) hp hh hq]
  exact exec_input_halts (s := (s.setTurns ts).setPending false) hv hf

/-- The core's turn between two instructions with a halt requested. -/
theorem step_boundary_halt {ts : List Turn} (hl : s.build.legal = true) (hp : s.phase = .run) (hh : s.halted = false)
    (hq : s.inPending = false) (hf : s.haltFlag = true) (hts : s.turns = .core :: ts) :
    step s = .next (s.setTurns ts).halt := by
  rw [step_core_turn hl hts]
  exact coreTurn_halt hp hh hq hf

/-- Deliver into the empty slot, as a step. -/
theorem step_deliver {b : Byte} {ts : List Turn} (hl : s.build.legal = true) (hv : s.inValid = false)
    (hts : s.turns = .host (.deliver b) :: ts) :
    step s = .next { s with inValid := true, inByte := b, inSeq := s.inSeq ++ [b], turns := ts } := by
  rw [step_host hl hts]
  exact congrArg _ (hostDeliver_empty (s := s.setTurns ts) hv b)

/-- Request halt, as a step. -/
theorem step_requestHalt {ts : List Turn} (hl : s.build.legal = true) (hts : s.turns = .host .requestHalt :: ts) :
    step s = .next { s with haltFlag := true, turns := ts } :=
  step_host hl hts

/-- A pending IN halts on a halt request alone (R90). -/
theorem run_wait_requestHalt_look {ts : List Turn} (hs : s.AtInstruction) (hin : s.InImage s.ip)
    (hread : s.img.read s.ip.toNat = Instr.input.opcode) (hv : s.inValid = false)
    (hts : s.turns = .core :: .host .requestHalt :: .core :: ts) :
    Host.Core.run Sys2Proof.core 3 s = .next { s with haltFlag := true, halted := true, turns := ts } := by
  have ⟨hlegal, hrun, hhalted, hpending, _⟩ := hs
  calc Host.Core.run Sys2Proof.core 3 s
    _ = Host.Core.run Sys2Proof.core 2 { s with inPending := true, turns := .host .requestHalt :: .core :: ts } :=
      run_step 2 (step_input_waits hs hin hread hv hts)
    _ = Host.Core.run Sys2Proof.core 1 { s with inPending := true, haltFlag := true, turns := .core :: ts } :=
      run_step 1 (step_requestHalt hlegal rfl)
    _ = .next { s with inPending := false, haltFlag := true, halted := true, turns := ts } :=
      (run_one _).trans (step_pending_halts hlegal hrun hhalted rfl rfl hv rfl)
    _ = _ := by rw [hpending]

/-- A pending IN takes the byte, and the halt request stops the core at the next instruction (R90, R108). -/
theorem run_wait_deliver_requestHalt_look {b : Byte} {ts : List Turn} (hs : s.AtInstruction) (hin : s.InImage s.ip)
    (hread : s.img.read s.ip.toNat = Instr.input.opcode) (hv : s.inValid = false)
    (hts : s.turns = .core :: .host (.deliver b) :: .host .requestHalt :: .core :: .core :: ts)
    (hroom : s.dstack.length ≠ s.build.dstackDepth) :
    Host.Core.run Sys2Proof.core 5 s = .next
      { s with dstack := (b.toNat : Int) :: s.dstack, ip := s.ip + 1, inByte := b, inSeq := s.inSeq ++ [b],
               inTaken := s.inTaken + 1, haltFlag := true, halted := true, turns := ts } := by
  have ⟨hlegal, hrun, hhalted, hpending, _⟩ := hs
  calc Host.Core.run Sys2Proof.core 5 s
    _ = Host.Core.run Sys2Proof.core 4
        { s with inPending := true, turns := .host (.deliver b) :: .host .requestHalt :: .core :: .core :: ts } :=
      run_step 4 (step_input_waits hs hin hread hv hts)
    _ = Host.Core.run Sys2Proof.core 3
        { s with inPending := true, inValid := true, inByte := b, inSeq := s.inSeq ++ [b],
                 turns := .host .requestHalt :: .core :: .core :: ts } :=
      run_step 3 (step_deliver hlegal hv rfl)
    _ = Host.Core.run Sys2Proof.core 2
        { s with inPending := true, inValid := true, inByte := b, inSeq := s.inSeq ++ [b], haltFlag := true,
                 turns := .core :: .core :: ts } :=
      run_step 2 (step_requestHalt hlegal rfl)
    _ = Host.Core.run Sys2Proof.core 1
        { s with dstack := (b.toNat : Int) :: s.dstack, ip := s.ip + 1, inPending := false, inValid := false,
                 inByte := b, inSeq := s.inSeq ++ [b], inTaken := s.inTaken + 1, haltFlag := true, turns := .core :: ts } :=
      run_step 1 (step_pending_takes hlegal hrun hhalted rfl rfl rfl hroom)
    _ = .next { s with dstack := (b.toNat : Int) :: s.dstack, ip := s.ip + 1, inPending := false, inValid := false,
                       inByte := b, inSeq := s.inSeq ++ [b], inTaken := s.inTaken + 1, haltFlag := true, halted := true,
                       turns := ts } :=
      (run_one _).trans (step_boundary_halt hlegal hrun hhalted rfl rfl rfl)
    _ = _ := by rw [hpending, hv]

/-- An IN the core has not come to is not executed: the halt check comes before the fetch (30_encoding.md R50). -/
theorem run_deliver_requestHalt_look {b : Byte} {ts : List Turn} (hs : s.AtInstruction) (hv : s.inValid = false)
    (hts : s.turns = .host (.deliver b) :: .host .requestHalt :: .core :: ts) :
    Host.Core.run Sys2Proof.core 3 s = .next
      { s with inValid := true, inByte := b, inSeq := s.inSeq ++ [b], haltFlag := true, halted := true, turns := ts } := by
  obtain ⟨hlegal, hrun, hhalted, hpending, -⟩ := hs
  calc Host.Core.run Sys2Proof.core 3 s
    _ = Host.Core.run Sys2Proof.core 2
        { s with inValid := true, inByte := b, inSeq := s.inSeq ++ [b], turns := .host .requestHalt :: .core :: ts } :=
      run_step 2 (step_deliver hlegal hv hts)
    _ = Host.Core.run Sys2Proof.core 1
        { s with inValid := true, inByte := b, inSeq := s.inSeq ++ [b], haltFlag := true, turns := .core :: ts } :=
      run_step 1 (step_requestHalt hlegal rfl)
    _ = .next { s with inValid := true, inByte := b, inSeq := s.inSeq ++ [b], haltFlag := true, halted := true,
                       turns := ts } :=
      (run_one _).trans (step_boundary_halt hlegal hrun hhalted hpending rfl rfl)

/-- Settles O53: it holds. A pending IN looks at the slot before the halt flag and skips the boundary check; an IN not yet
begun is behind that check. -/
theorem pendingInPrefersTheByte : Obligations.PendingInPrefersTheByte := by
  unfold Obligations.PendingInPrefersTheByte
  exact fun s b ts hs hin hread hv => ⟨run_wait_requestHalt_look hs hin hread hv,
    run_wait_deliver_requestHalt_look hs hin hread hv, run_deliver_requestHalt_look hs hv⟩

/-! #### OUT and WAIT (R92, R94) -/

/-- Settles O27: it holds; the pop is OUT's one test, and comes before the emission. -/
theorem outEmitsTheWholeCell : Obligations.OutEmitsTheWholeCell := by
  unfold Obligations.OutEmitsTheWholeCell
  refine ⟨decode_opcode .output, rfl, fun s => ⟨fun a rest hs => ?_, fun hs => ?_⟩⟩
  · rw [exec, execOutput, dPop_cons hs]; rfl
  · rw [exec, execOutput, dPop_nil hs]; rfl

/-- Settles O28: it holds; WAIT has no test. -/
theorem waitNotifiesAndGoesOn : Obligations.WaitNotifiesAndGoesOn := by
  unfold Obligations.WaitNotifiesAndGoesOn
  exact ⟨decode_opcode .wait, rfl, fun _ => rfl⟩

end Sys2Proof.Machine

namespace Sys2Proof.Machine

/-! ### Interfaces (45_interfaces.md)

The turns of the host at the two levels of R95 and R106, what a move can reach in RUN, a halt request that answers a WAIT,
and that no instruction looks at the schedule of the turns to come. -/

variable {s t : State}

/-! #### Turns of the host, and of the core in LOAD (R106, 70_reset_and_hazards.md R128) -/

/-- A step whose turn is a clock edge. -/
theorem step_edge {p : Pins} {ts : List Turn} (hl : s.build.legal = true) (hts : s.turns = .edge p :: ts) :
    step s = .next (clockEdge p (s.setTurns ts)) := by
  unfold step
  rw [if_pos hl, hts]

/-- A step of the core while the host still loads. -/
theorem step_load (hl : s.build.legal = true) (hc : s.CoreToMove) (hp : s.phase = .load) :
    step s = .next (s.setTurns s.turns.tail) := by
  rw [step_core hl hc]
  exact coreTurn_load hp

/-- Settles O35: it holds, by the three kinds of turn. -/
theorem hostTurnsMoveOnlyTheHost : Obligations.HostTurnsMoveOnlyTheHost := by
  unfold Obligations.HostTurnsMoveOnlyTheHost
  exact fun s hl => ⟨fun _ _ => step_host hl, fun _ _ => step_edge hl, step_load hl⟩

/-! #### A clock edge as host moves (R96, R98, R100, R102) -/

theorem hostMoves_append (ms ns : List HostMove) (s : State) : hostMoves (ms ++ ns) s = hostMoves ns (hostMoves ms s) :=
  List.foldl_append

theorem loaderEdge_eq_hostMoves (p : Pins) (s : State) :
    loaderEdge p s = hostMoves (if p.ldStart then [.start] else if p.ldValid then [.loadCell p.ldData] else []) s := by
  unfold loaderEdge
  split
  · rfl
  · split <;> rfl

theorem inputEdge_eq_hostMoves (p : Pins) (s : State) :
    inputEdge p s = hostMoves (if p.inValid then [.deliver p.inData] else []) s := by
  unfold inputEdge
  split <;> rfl

theorem haltEdge_eq_hostMoves (p : Pins) (s : State) :
    haltEdge p s = hostMoves (if p.haltReq then [.requestHalt] else []) s := by
  unfold haltEdge
  split <;> rfl

/-- Settles O49: it holds; each group of pins is its own moves. -/
theorem clockEdgesAreHostMoves : Obligations.ClockEdgesAreHostMoves := by
  unfold Obligations.ClockEdgesAreHostMoves
  intro p s hp
  rw [clockEdge_of_not_rst hp, hostMoves_append, hostMoves_append, haltEdge_eq_hostMoves, inputEdge_eq_hostMoves,
    loaderEdge_eq_hostMoves]

/-! #### What the host can reach (R106, R107) -/

/-- What the host may write, read off the later state. -/
theorem HostWritesOnly.eq (h : HostWritesOnly s t) :
    t = { s with haltFlag := t.haltFlag, inValid := t.inValid, inByte := t.inByte, inSeq := t.inSeq } := by
  obtain ⟨flag, valid, byte, seq, rfl⟩ := h
  rfl

/-- In RUN the loader is ignored (R98), so that of the moves other than Reset only Deliver and Request halt write at all. -/
theorem hostMove_writesOnly_of_run {m : HostMove} (hm : m ≠ .reset) (hp : s.phase = .run) :
    HostWritesOnly s (hostMove m s) := by
  rcases hostMove_cases m s with
    ⟨hr, -⟩ | e | ⟨-, -, hl, -⟩ | ⟨-, -, hl, -⟩ | ⟨-, hl, -⟩ | ⟨b, -, -, e⟩ | ⟨-, e⟩
  · exact absurd hr hm
  · rw [e]; exact .refl s
  · exact absurd (hp.symm.trans hl) (by decide)
  · exact absurd (hp.symm.trans hl) (by decide)
  · exact absurd (hp.symm.trans hl) (by decide)
  · rw [e]; exact ⟨_, _, _, _, rfl⟩
  · rw [e]; exact ⟨_, _, _, _, rfl⟩

/-- HALT_FLAG is sticky (R102). -/
theorem hostMove_keeps_haltFlag {m : HostMove} (hm : m ≠ .reset) (hf : s.haltFlag = true) :
    (hostMove m s).haltFlag = true := by
  rcases hostMove_cases m s with
    ⟨hr, -⟩ | e | ⟨v, -, -, -, -, e⟩ | ⟨v, -, -, -, -, e⟩ | ⟨-, -, -, e⟩ | ⟨b, -, -, e⟩ | ⟨-, e⟩
  · exact absurd hr hm
  · rw [e]; exact hf
  · rw [e]; exact hf
  · rw [e]; exact hf
  · rw [e]; exact hf
  · rw [e]; exact hf
  · rw [e]

/-- A byte offered to a full slot is not transferred (R100), and no other move but Reset touches the slot. -/
theorem hostMove_keeps_byte {m : HostMove} (hm : m ≠ .reset) (hv : s.inValid = true) :
    (hostMove m s).inValid = true ∧ (hostMove m s).inByte = s.inByte ∧ (hostMove m s).inSeq = s.inSeq := by
  rcases hostMove_cases m s with
    ⟨hr, -⟩ | e | ⟨v, -, -, -, -, e⟩ | ⟨v, -, -, -, -, e⟩ | ⟨-, -, -, e⟩ | ⟨b, -, hempty, -⟩ | ⟨-, e⟩
  · exact absurd hr hm
  · rw [e]; exact ⟨hv, rfl, rfl⟩
  · rw [e]; exact ⟨hv, rfl, rfl⟩
  · rw [e]; exact ⟨hv, rfl, rfl⟩
  · rw [e]; exact ⟨hv, rfl, rfl⟩
  · exact absurd (hv.symm.trans hempty) (by decide)
  · rw [e]; exact ⟨hv, rfl, rfl⟩

/-- Settles O50: it holds, in RUN because the loader is ignored, in every phase because no move but Reset clears the halt
flag or touches a full slot. -/
theorem hostCannotReachTheCore : Obligations.HostCannotReachTheCore := by
  unfold Obligations.HostCannotReachTheCore
  exact fun m s hm =>
    ⟨fun hp => (hostMove_writesOnly_of_run hm hp).eq, hostMove_keeps_haltFlag hm, hostMove_keeps_byte hm⟩

/-! #### A halt request that answers a WAIT (R103, 44_port_io.md R94(c)) -/

/-- The core's turn at a WAIT: it notifies and goes on. -/
theorem step_wait {ts : List Turn} (hs : s.AtInstruction) (hin : s.InImage s.ip)
    (hread : s.img.read s.ip.toNat = Instr.wait.opcode) (hts : s.turns = .core :: ts) :
    step s = .next ((s.setTurns ts).signalWait.advance 1) := by
  obtain ⟨hlegal, hrun, hhalted, hpending, hflag⟩ := hs
  have hdecode : decode (s.img.read s.ip.toNat) = .ok .wait := hread ▸ decode_opcode .wait
  rw [step_core_turn hlegal hts]
  exact coreTurn_exec (s := s.setTurns ts) hrun hhalted hpending hflag hin hdecode

/-- Settles O52: it holds. WAIT goes on at once, the request sets the flag, and the next instruction boundary halts the
core before the fetch, so that the cell at `ip + 1` is not even looked at. -/
theorem haltAnswersWait : Obligations.HaltAnswersWait := by
  unfold Obligations.HaltAnswersWait
  intro s ts hs hts hin hread
  have ⟨hlegal, hrun, hhalted, hpending, _⟩ := hs
  calc Host.Core.run Sys2Proof.core 3 s
    _ = Host.Core.run Sys2Proof.core 2
        { s with ip := s.ip + 1, waitCount := s.waitCount + 1, turns := .host .requestHalt :: .core :: ts } :=
      run_step 2 (step_wait hs hin hread hts)
    _ = Host.Core.run Sys2Proof.core 1
        { s with ip := s.ip + 1, waitCount := s.waitCount + 1, haltFlag := true, turns := .core :: ts } :=
      run_step 1 (step_requestHalt hlegal rfl)
    _ = .next { s with ip := s.ip + 1, waitCount := s.waitCount + 1, haltFlag := true, halted := true, turns := ts } :=
      (run_one _).trans (step_boundary_halt hlegal hrun hhalted hpending rfl rfl)

/-! #### The schedule of the turns to come (R107, 95_test_vectors.md section 4)

No rule's pseudocode reads the schedule or writes it: `setTurns` commutes with each operation of the model, hence with each
chain of operations, and so with each instruction. -/

section Schedule

variable (s : State) (ts : List Turn)

@[simp] theorem State.advance_setTurns (n : Int) : (s.setTurns ts).advance n = (s.advance n).setTurns ts := rfl
@[simp] theorem State.setIp_setTurns (v : Int) : (s.setTurns ts).setIp v = (s.setIp v).setTurns ts := rfl
@[simp] theorem State.emit_setTurns (v : Int) : (s.setTurns ts).emit v = (s.emit v).setTurns ts := rfl

@[simp] theorem memRead_setTurns (addr : Int) : memRead (s.setTurns ts) addr = memRead s addr := rfl
@[simp] theorem operandCell_setTurns : operandCell (s.setTurns ts) = operandCell s := rfl
@[simp] theorem dTop_setTurns : dTop (s.setTurns ts) = dTop s := rfl

@[simp] theorem memWrite_setTurns (addr v : Int) :
    memWrite (s.setTurns ts) addr v = (·.setTurns ts) <$> memWrite s addr v := by
  by_cases h : s.InImage addr
  · rw [memWrite_ok h.1 h.2]; exact memWrite_ok (s := s.setTurns ts) h.1 h.2
  · rw [memWrite_outside h]; exact memWrite_outside h

@[simp] theorem dPush_setTurns (v : Int) : dPush (s.setTurns ts) v = (·.setTurns ts) <$> dPush s v := by
  by_cases h : s.dstack.length = s.build.dstackDepth
  · rw [dPush_full h]; exact dPush_full h
  · rw [dPush_ok h]; exact dPush_ok h

@[simp] theorem aPush_setTurns (v : Int) : aPush (s.setTurns ts) v = (·.setTurns ts) <$> aPush s v := by
  by_cases h : s.astack.length = s.build.astackDepth
  · rw [aPush_full h]; exact aPush_full h
  · rw [aPush_ok h]; exact aPush_ok h

@[simp] theorem dPop_setTurns : dPop (s.setTurns ts) = Prod.map id (·.setTurns ts) <$> dPop s := by
  match h : s.dstack with
  | [] => rw [dPop_nil h]; exact dPop_nil h
  | a :: rest => rw [dPop_cons h]; exact dPop_cons h

@[simp] theorem aPop_setTurns : aPop (s.setTurns ts) = Prod.map id (·.setTurns ts) <$> aPop s := by
  match h : s.astack with
  | [] => rw [aPop_nil h]; exact aPop_nil h
  | a :: rest => rw [aPop_cons h]; exact aPop_cons h

@[simp] theorem popTwo_setTurns :
    popTwo (s.setTurns ts) = Prod.map id (Prod.map id (·.setTurns ts)) <$> popTwo s := by
  simp [popTwo, map_bind]

theorem binaryOp_setTurns (f : Int → Int → Int) :
    binaryOp f (s.setTurns ts) = (·.setTurns ts) <$> binaryOp f s := by
  simp [binaryOp, map_bind]

theorem unaryOp_setTurns (f : Int → Int) : unaryOp f (s.setTurns ts) = (·.setTurns ts) <$> unaryOp f s := by
  simp [unaryOp, map_bind]

theorem condJump_setTurns (p : Int → Int → Bool) :
    condJump p (s.setTurns ts) = (·.setTurns ts) <$> condJump p s := by
  simp [condJump, map_bind, apply_ite]

@[simp] theorem returnOp_setTurns : returnOp (s.setTurns ts) = (·.setTurns ts) <$> returnOp s := by
  simp [returnOp, map_bind]

end Schedule

/-- An instruction whose pseudocode commutes with `setTurns` ends the same, completed or faulted, in any schedule. -/
theorem commit_setTurns {ts : List Turn} {r r' : Except FaultKind State} (hr : r' = (·.setTurns ts) <$> r)
    (h : commit s r = .next t) : commit (s.setTurns ts) r' = .next (t.setTurns ts) := by
  subst hr
  rcases commit_next h with rfl | ⟨k, rfl, rfl⟩ <;> rfl

/-- IN looks at the slot and the halt flag as they are, and not at what the host will do next. -/
theorem exec_input_setTurns (ts : List Turn) (h : exec .input s = .next t) :
    exec .input (s.setTurns ts) = .next (t.setTurns ts) := by
  cases hv : s.inValid with
  | true =>
    by_cases hroom : s.dstack.length = s.build.dstackDepth
    · rw [exec_input_overflow hv hroom] at h; cases h; exact exec_input_overflow hv hroom
    · rw [exec_input_takes hv hroom] at h; cases h; exact exec_input_takes (s := s.setTurns ts) hv hroom
  | false =>
    cases hf : s.haltFlag with
    | true => rw [exec_input_halts hv hf] at h; cases h; exact exec_input_halts hv hf
    | false => rw [exec_input_waits hv hf] at h; cases h; exact exec_input_waits hv hf

/-- An instruction does the same in any schedule. -/
theorem exec_setTurns {i : Instr} (ts : List Turn) (h : exec i s = .next t) :
    exec i (s.setTurns ts) = .next (t.setTurns ts) := by
  cases i
  case nop | wait => cases h; rfl
  case add | sub | mul | and | or | xor | shl | shr => exact commit_setTurns (binaryOp_setTurns s ts _) h
  case inc | dec => exact commit_setTurns (unaryOp_setTurns s ts _) h
  case gtJump | ltJump | neJump | eqJump => exact commit_setTurns (condJump_setTurns s ts _) h
  case ret => exact commit_setTurns (returnOp_setTurns s ts) h
  case input => exact exec_input_setTurns ts h
  case lit | dup | drop | swap | push | pop | call | jump | fetch | store | output =>
    exact commit_setTurns (by simp [map_bind]) h
  case divmod | zeroExit => exact commit_setTurns (by simp [map_bind, apply_ite]) h

/-- Settles O44: it holds, since `setTurns` commutes with every instruction. -/
theorem instructionsIgnoreTheSchedule : Obligations.InstructionsIgnoreTheSchedule := by
  unfold Obligations.InstructionsIgnoreTheSchedule
  exact fun _ _ _ ts => exec_setTurns ts

end Sys2Proof.Machine

namespace Sys2Proof.Machine

/-! ### Exceptions (60_exceptions.md)

Every instruction, every turn and, in a legal build, every step answers a next state. What halts a core is said once at each
level: an instruction, the fetch, a turn of the core, a host move, a clock edge. -/

variable {s t : State}

/-! #### Every step answers (R109) -/

/-- IN answers in each case of R90. -/
theorem exec_input_total (s : State) : ∃ t, exec .input s = .next t := by
  cases hv : s.inValid with
  | true =>
    by_cases hroom : s.dstack.length = s.build.dstackDepth
    · exact ⟨_, exec_input_overflow hv hroom⟩
    · exact ⟨_, exec_input_takes hv hroom⟩
  | false =>
    cases hf : s.haltFlag with
    | true => exact ⟨_, exec_input_halts hv hf⟩
    | false => exact ⟨_, exec_input_waits hv hf⟩

/-- Every instruction but IN ends in `commit`, which always answers; NOP and WAIT cannot fail. -/
theorem exec_total (i : Instr) (s : State) : ∃ t, exec i s = .next t := by
  cases i
  case input => exact exec_input_total s
  case nop | wait => exact ⟨_, rfl⟩
  all_goals exact commit_total s _

theorem fetchExecute_total (s : State) : ∃ t, fetchExecute s = .next t := by
  unfold fetchExecute
  split
  · exact ⟨_, rfl⟩
  · split
    · exact ⟨_, rfl⟩
    · exact exec_total _ s

theorem coreTurn_total (s : State) : ∃ t, coreTurn s = .next t := by
  unfold coreTurn
  split
  · exact ⟨_, rfl⟩
  · split_ifs
    · exact ⟨_, rfl⟩
    · exact exec_total _ _
    · exact ⟨_, rfl⟩
    · exact fetchExecute_total s

theorem step_total (hl : s.build.legal = true) : ∃ t, step s = .next t := by
  unfold step
  rw [if_pos hl]
  split
  · exact coreTurn_total _
  · exact coreTurn_total _
  · exact ⟨_, rfl⟩
  · exact ⟨_, rfl⟩

theorem step_illegal (hl : s.build.legal = false) : step s = .fault .illegalBuild := by
  unfold step
  rw [if_neg (by simp [hl])]

theorem exec_build {i : Instr} (h : exec i s = .next t) : t.build = s.build := by
  obtain ⟨⟨-, -, -, -, -, hbuild, -⟩, -⟩ := instructionsKeepPortAndLoaderState i s t h
  exact hbuild

theorem coreTurn_build (h : coreTurn s = .next t) : t.build = s.build := by
  rcases coreTurn_cases h with ⟨-, rfl⟩ | ⟨-, -, rfl⟩ | ⟨-, -, -, he⟩ | ⟨-, -, -, -, rfl⟩ | ⟨-, -, -, -, hf⟩
  · rfl
  · rfl
  · exact exec_build (s := s.setPending false) he
  · rfl
  · rcases fetchExecute_cases hf with ⟨-, rfl⟩ | ⟨-, -, rfl⟩ | ⟨-, i, -, he⟩
    · rfl
    · rfl
    · exact exec_build he

/-- "Having the build that `s` has" is an invariant of every step. -/
theorem step_build (h : step s = .next t) : t.build = s.build :=
  step_keeps (P := fun u => u.build = s.build) (fun _ _ hu => hu) (fun m u hu => (hostMove_own m u).1.trans hu)
    (fun _ _ _ hu hc => (coreTurn_build hc).trans hu) rfl h

/-- Settles O36: it holds; each case of the main step answers, and no turn writes the build. -/
theorem everyStepAnswersANextState : Obligations.EveryStepAnswersANextState := by
  unfold Obligations.EveryStepAnswersANextState
  refine ⟨exec_total, fun s => ⟨fun hl => ?_, step_illegal⟩⟩
  obtain ⟨t, ht⟩ := step_total hl
  exact ⟨t, ht, step_build ht⟩

/-! #### What stops the core (R111, R112, decision D11) -/

/-- A step raises neither `None` nor ImageTooLarge (R110, R119). -/
theorem ne_of_mem_stepFaults {k : FaultKind} (hk : k ∈ stepFaults) : k ≠ .none ∧ k ≠ .imageTooLarge := by
  constructor <;> rintro rfl <;> exact absurd hk (by decide)

/-- No completed instruction touches HALTED but an IN that finds no byte and a halt requested (44_port_io.md R90). -/
theorem completes_halted {i : Instr} (h : Completes i s t) :
    t.halted = s.halted ∨ (i = .input ∧ s.inValid = false ∧ s.haltFlag = true ∧ t = s.halt) := by
  by_cases hi : i = .input
  · subst hi
    obtain ⟨-, -, rfl⟩ | ⟨hv, hf, rfl⟩ | ⟨-, -, rfl⟩ := h
    · exact .inl rfl
    · exact .inr ⟨rfl, hv, hf, rfl⟩
    · exact .inl rfl
  by_cases ho : i = .output
  · subst ho; obtain ⟨-, -, -, rfl⟩ := h; exact .inl rfl
  by_cases hw : i = .wait
  · subst hw; obtain rfl := h; exact .inl rfl
  exact .inl (by rw [completes_keeps h hi ho hw])

/-- How an instruction halts the core: an IN that answers a halt request, or a fault. -/
theorem exec_halts {i : Instr} (h : exec i s = .next t) (hs : s.halted = false) (ht : t.halted = true) :
    (i = .input ∧ s.inValid = false ∧ s.haltFlag = true ∧ t = s.halt) ∨ ∃ k ∈ stepFaults, t = s.raise k := by
  rcases exec_cases h with hfault | hc
  · exact .inr hfault
  · rcases completes_halted hc with hkept | hhalt
    · exact absurd (ht.symm.trans (hkept.trans hs)) (by decide)
    · exact .inl hhalt

/-- An instruction that leaves the core running has recorded no fault. -/
theorem exec_faultRecord {i : Instr} (h : exec i s = .next t) (ht : t.halted = false) :
    t.faultKind = s.faultKind ∧ t.faultIp = s.faultIp := by
  rcases exec_cases h with ⟨k, -, rfl⟩ | hc
  · exact absurd ht (by simp)
  · rw [completes_frame hc]
    exact ⟨rfl, rfl⟩

/-- Settles O40: it holds; a fault is taken from the state the instruction began in. -/
theorem faultsArePrecise : Obligations.FaultsArePrecise := by
  unfold Obligations.FaultsArePrecise
  refine fun i s t h hs => ⟨fun ht => ?_, exec_faultRecord h⟩
  rcases exec_halts h hs ht with hin | ⟨k, hk, rfl⟩
  · exact .inl hin
  · obtain ⟨hnone, himage⟩ := ne_of_mem_stepFaults hk
    exact .inr ⟨k, hnone, himage, rfl⟩

/-! #### The four ends of a run (R118) -/

/-- With no halt requested, what the fetch, the decode and the dispatch halt the core by is a fault. -/
theorem fetchExecute_halts (h : fetchExecute s = .next t) (hf : s.haltFlag = false) (hs : s.halted = false)
    (ht : t.halted = true) : ∃ k ∈ stepFaults, t = s.raise k := by
  rcases fetchExecute_cases h with ⟨-, rfl⟩ | ⟨-, -, rfl⟩ | ⟨-, i, -, he⟩
  · exact ⟨.outOfBounds, by decide, rfl⟩
  · exact ⟨.invalidOpcode, by decide, rfl⟩
  · rcases exec_halts he hs ht with ⟨-, -, hflag, -⟩ | hfault
    · exact absurd (hflag.symm.trans hf) (by decide)
    · exact hfault

/-- The ends (a) and (b): at an instruction boundary, or in a waiting IN, by the halt flag. -/
def EndsByRequest (s t : State) : Prop :=
  s.haltFlag = true ∧
    ((s.inPending = false ∧ t = s.halt) ∨ (s.inPending = true ∧ s.inValid = false ∧ t = (s.setPending false).halt))

/-- The end (c): one of the five faults of a step is recorded, at the `ip` of the step. -/
def EndsByFault (s t : State) : Prop := t.faultIp = s.ip ∧ t.faultKind ∈ stepFaults

/-- The end (d): the loader is offered a cell with LOAD_PTR = C, and the host writes no more than its own fields besides
(70_reset_and_hazards.md R131). -/
def EndsByLoad (s t : State) : Prop :=
  s.phase = .load ∧ s.build.imageCells ≤ s.loadPtr ∧ HostWritesOnly s.failLoad t

theorem coreTurn_halts (h : coreTurn s = .next t) (hs : s.halted = false) (ht : t.halted = true) :
    s.phase = .run ∧ (EndsByRequest s t ∨ EndsByFault s t) := by
  rcases coreTurn_cases h with ⟨-, rfl⟩ | ⟨-, hh, -⟩ | ⟨hp, -, hq, he⟩ | ⟨hp, -, hq, hf, rfl⟩ | ⟨hp, -, -, hf, he⟩
  · exact absurd (ht.symm.trans hs) (by decide)
  · exact absurd (hh.symm.trans hs) (by decide)
  · rcases exec_halts he hs ht with ⟨-, hv, hf, rfl⟩ | ⟨k, hk, rfl⟩
    · exact ⟨hp, .inl ⟨hf, .inr ⟨hq, hv, rfl⟩⟩⟩
    · exact ⟨hp, .inr ⟨rfl, hk⟩⟩
  · exact ⟨hp, .inl ⟨hf, .inl ⟨hq, rfl⟩⟩⟩
  · obtain ⟨k, hk, rfl⟩ := fetchExecute_halts he hf hs ht
    exact ⟨hp, .inr ⟨rfl, hk⟩⟩

/-- Of the host moves only Load cell can halt the core, and only by the failed load (45_interfaces.md R99). -/
theorem hostMove_halts {m : HostMove} (hs : s.halted = false) (ht : (hostMove m s).halted = true) :
    s.phase = .load ∧ s.build.imageCells ≤ s.loadPtr ∧ hostMove m s = s.failLoad := by
  rcases hostMove_cases m s with
    ⟨-, e⟩ | e | ⟨v, -, -, -, -, e⟩ | ⟨v, -, hp, -, hC, e⟩ | ⟨-, -, -, e⟩ | ⟨b, -, -, e⟩ | ⟨-, e⟩
  · rw [e] at ht; exact absurd ht (by simp [State.hostReset])
  · rw [e] at ht; exact absurd (ht.symm.trans hs) (by decide)
  · rw [e] at ht; exact absurd (ht.symm.trans hs) (by decide)
  · exact ⟨hp, hC, e⟩
  · rw [e] at ht; exact absurd (ht.symm.trans hs) (by decide)
  · rw [e] at ht; exact absurd (ht.symm.trans hs) (by decide)
  · rw [e] at ht; exact absurd (ht.symm.trans hs) (by decide)

/-- The input pins and the halt pin write the host's fields alone (45_interfaces.md R100, R102). -/
theorem haltEdge_inputEdge_writesOnly (p : Pins) (s : State) : HostWritesOnly s (haltEdge p (inputEdge p s)) := by
  unfold haltEdge inputEdge State.hostDeliver
  split_ifs <;> exact ⟨_, _, _, _, rfl⟩

/-- Only the loader pins of a clock edge can halt the core: an edge with rst high resets it. -/
theorem clockEdge_halts {p : Pins} (hs : s.halted = false) (ht : (clockEdge p s).halted = true) :
    EndsByLoad s (clockEdge p s) := by
  have hrst : p.rst = false := by
    by_contra hrst
    exact absurd ht (by simp [clockEdge, hrst, State.hostReset])
  have hport := haltEdge_inputEdge_writesOnly p (loaderEdge p s)
  obtain ⟨m, -, hload⟩ := loaderEdge_eq_hostMove p s
  rw [← clockEdge_of_not_rst hrst, hload] at hport
  have hm : (hostMove m s).halted = true := by rw [hport.eq] at ht; exact ht
  obtain ⟨hp, hC, hfail⟩ := hostMove_halts hs hm
  exact ⟨hp, hC, hfail ▸ hport⟩

/-- What a step halts the core by, told by whose turn it was. -/
theorem step_halts (h : step s = .next t) (hs : s.halted = false) (ht : t.halted = true) :
    (s.CoreToMove ∧ s.phase = .run ∧ (EndsByRequest (s.setTurns s.turns.tail) t ∨ EndsByFault s t)) ∨
      (¬ s.CoreToMove ∧ EndsByLoad (s.setTurns s.turns.tail) t) := by
  obtain ⟨-, ⟨hcore, hc⟩ | ⟨m, ts, hts, rfl⟩ | ⟨p, ts, hts, rfl⟩⟩ := step_cases h
  · exact .inl ⟨hcore, coreTurn_halts (s := s.setTurns s.turns.tail) hc hs ht⟩
  · refine .inr ⟨by simp [State.CoreToMove, hts], ?_⟩
    obtain ⟨hp, hC, hfail⟩ := hostMove_halts (s := s.setTurns ts) hs ht
    rw [hts, hfail]
    exact ⟨hp, hC, .refl _⟩
  · refine .inr ⟨by simp [State.CoreToMove, hts], ?_⟩
    rw [hts]
    exact clockEdge_halts (s := s.setTurns ts) hs ht

/-- Settles O45: it holds, by the ends of a core turn and of a host turn. -/
theorem runsEndInFourWays : Obligations.RunsEndInFourWays := by
  unfold Obligations.RunsEndInFourWays
  intro s t h hs ht
  rcases step_halts h hs ht with ⟨hcore, hp, ⟨hf, hrequest⟩ | hfault⟩ | ⟨hcore, hp, hC, _, _, _, _, rfl⟩
  · exact .inl ⟨hcore, hp, hf, hrequest⟩
  · exact .inr (.inl ⟨hcore, hp, hfault⟩)
  · exact .inr (.inr ⟨hcore, hp, hC, rfl, rfl⟩)

end Sys2Proof.Machine

namespace Sys2Proof.Machine

/-! ### Reset, loading and hazards (70_reset_and_hazards.md)

The reset state and what it meets, a payload loaded turn by turn against `boot`, and a CALL whose target is a RETURN. -/

variable {s : State}

/-! #### The reset state (R127) -/

/-- rst has priority over every other pin (45_interfaces.md R96). -/
theorem clockEdge_of_rst {p : Pins} (hp : p.rst = true) (s : State) : clockEdge p s = hostMove .reset s :=
  if_pos hp

/-- Settles O47: it holds; Reset writes every field of the core, whatever it held. -/
theorem resetLeavesTheResetState : Obligations.ResetLeavesTheResetState := by
  unfold Obligations.ResetLeavesTheResetState
  exact ⟨fun _ => rfl, fun s _ hp => clockEdge_of_rst hp s, rfl, rfl, rfl⟩

/-- Settles O60: it holds. The cells are those of `State.CellInv`, the loader and the fault record those of `State.RecordInv`;
both stand above, proved of what Reset leaves. -/
theorem resetMeetsTheInvariants : Obligations.ResetMeetsTheInvariants := by
  unfold Obligations.ResetMeetsTheInvariants
  refine ⟨by decide, fun b hb => ?_⟩
  obtain ⟨-, hmem, hcells⟩ := (State.cellInv_iff _).mp (State.CellInv.resetFor hb)
  have hrecord : (State.resetFor b).RecordInv := State.RecordInv.hostReset (State.resetFor b)
  have hbounded : (State.resetFor b).StacksBounded := ⟨Nat.zero_le _, Nat.zero_le _⟩
  exact ⟨hmem, hcells, hbounded, pendingOk_of_not_pending rfl, hrecord.loader, hrecord.record,
    (inputOk_of_empty rfl).mpr rfl⟩

/-! #### Loading a payload (R128 to R131, 45_interfaces.md R98, R99) -/

/-- A host move at the head of the schedule does what it does with nothing scheduled. -/
theorem step_scheduled_host (hl : s.build.legal = true) (m : HostMove) (ts : List Turn) :
    step (s.setTurns (.host m :: ts)) = .next ((hostMove m s).setTurns ts) := by
  rw [step_host (s := s.setTurns (.host m :: ts)) hl rfl, ← hostMove_setTurns]
  rfl

/-- A run through scheduled host moves makes these moves, one a step. -/
theorem run_hostMoves (hl : s.build.legal = true) (ms : List HostMove) (ts : List Turn) :
    Host.Core.run Sys2Proof.core ms.length (s.setTurns (ms.map .host ++ ts)) = .next ((hostMoves ms s).setTurns ts) := by
  induction ms generalizing s with
  | nil => rfl
  | cons m ms ih =>
    obtain ⟨hbuild, -⟩ := hostMove_own m s
    exact (run_step ms.length (step_scheduled_host hl m _)).trans (ih (hbuild ▸ hl))

/-- The core of build `b` in LOAD with the cells of `P` loaded after reset and nothing else done. -/
def State.loadedFor (b : Build) (P : List Int) : State :=
  { State.resetFor b with img := Memory.ofCells 0 P, loadPtr := P.length }

/-- `boot` of a payload that fits is the loaded core, started (R130). -/
theorem boot_of_fits {b : Build} {P : List Int} (h : P.length ≤ b.imageCells) :
    boot b P = { State.loadedFor b P with phase := .run } :=
  if_neg (Nat.not_lt.mpr h)

/-- `boot` of a payload that does not fit is the core with the Image loaded full, failed (R131). -/
theorem boot_of_tooLong {b : Build} {P : List Int} (h : b.imageCells < P.length) :
    boot b P = (State.loadedFor b (P.take b.imageCells)).failLoad := by
  have hfull : (P.take b.imageCells).length = b.imageCells := List.length_take_of_le h.le
  rw [boot, if_pos h, State.loadedFor, hfull]
  rfl

/-- One more cell while there is room (R98). -/
theorem hostLoadCell_loadedFor {b : Build} {P : List Int} {v : Int} (hW : 1 ≤ b.cellBits) (hP : P.length < b.imageCells)
    (hv : Fits b.cellBits v) : (State.loadedFor b P).hostLoadCell v = State.loadedFor b (P ++ [v]) := by
  have hcell : (Memory.ofCells 0 P).write P.length (wrap b.cellBits v) = Memory.ofCells 0 (P ++ [v]) := by
    rw [wrap_of_fits hW hv, Memory.write_ofCells]
  rw [hostLoadCell_below (s := State.loadedFor b P) rfl hP v, State.loadedFor, State.loadedFor, List.length_append]
  simp only [← hcell]
  rfl

/-- The cells of a payload that fits, one after another. -/
theorem hostMoves_loadCells {b : Build} {P : List Int} (hW : 1 ≤ b.cellBits) (hP : P.length ≤ b.imageCells)
    (hv : ∀ v ∈ P, Fits b.cellBits v) : hostMoves (P.map .loadCell) (State.resetFor b) = State.loadedFor b P := by
  induction P using List.reverseRecOn with
  | nil => rfl
  | append_singleton P v ih =>
    rw [List.length_append, List.length_singleton] at hP
    obtain ⟨hold, hlast⟩ := List.forall_mem_append.mp hv
    rw [List.map_append, hostMoves_append, ih (by omega) hold]
    exact hostLoadCell_loadedFor hW hP (hlast v List.mem_cons_self)

/-- A loader that does not act, in RUN or after a failed load, ignores every cell that comes (R98). -/
theorem hostMoves_loadCells_ignored (hl : s.loading = false) (vs : List Int) :
    hostMoves (vs.map .loadCell) s = s := by
  induction vs with
  | nil => rfl
  | cons v vs ih =>
    have hfirst : hostMove (.loadCell v) s = s := hostLoadCell_ignored hl v
    rw [List.map_cons, hostMoves, List.foldl_cons, hfirst]
    exact ih

/-- The cells of a payload that does not fit: the cell after the first C fails the load, the rest is ignored (R99). -/
theorem hostMoves_loadCells_tooLong {b : Build} {P : List Int} (hW : 1 ≤ b.cellBits) (hP : b.imageCells < P.length)
    (hv : ∀ v ∈ P, Fits b.cellBits v) :
    hostMoves (P.map .loadCell) (State.resetFor b) = (State.loadedFor b (P.take b.imageCells)).failLoad := by
  have hfull : (P.take b.imageCells).length = b.imageCells := List.length_take_of_le hP.le
  have hload := hostMoves_loadCells hW hfull.le fun v h => hv v (List.mem_of_mem_take h)
  obtain ⟨v, rest, hrest⟩ := List.exists_cons_of_ne_nil (List.drop_eq_nil_iff.not.mpr (Nat.not_le.mpr hP))
  have hfail : hostMove (.loadCell v) (State.loadedFor b (P.take b.imageCells))
      = (State.loadedFor b (P.take b.imageCells)).failLoad :=
    hostLoadCell_full (s := State.loadedFor b (P.take b.imageCells)) rfl hfull.ge v
  calc hostMoves (P.map .loadCell) (State.resetFor b)
    _ = hostMoves ((v :: rest).map .loadCell) (State.loadedFor b (P.take b.imageCells)) := by
      rw [← hload, ← hostMoves_append, ← List.map_append, ← hrest, List.take_append_drop]
    _ = hostMoves (rest.map .loadCell) (State.loadedFor b (P.take b.imageCells)).failLoad := by
      rw [← hfail]; rfl
    _ = _ := hostMoves_loadCells_ignored (State.not_loading_of_halted rfl) rest

/-- The host's moves that load a payload and start leave `boot` of it: Start leaves LOAD, unless the load has failed. -/
theorem hostMoves_load_start {b : Build} {P : List Int} (hW : 1 ≤ b.cellBits) (hv : ∀ v ∈ P, Fits b.cellBits v) :
    hostMoves (P.map .loadCell ++ [.start]) (State.resetFor b) = boot b P := by
  rw [hostMoves_append]
  by_cases hP : P.length ≤ b.imageCells
  · rw [hostMoves_loadCells hW hP hv, boot_of_fits hP]
    exact hostStart_loading (s := State.loadedFor b P) rfl
  · have hlong : b.imageCells < P.length := Nat.lt_of_not_le hP
    rw [hostMoves_loadCells_tooLong hW hlong hv, boot_of_tooLong hlong]
    exact hostStart_ignored (s := (State.loadedFor b _).failLoad) (State.not_loading_of_halted rfl)

theorem boot_turns (b : Build) (P : List Int) : (boot b P).turns = [] := by
  unfold boot
  split <;> rfl

/-- The Image after Boot has the payload at its low addresses and zeros above (R130). -/
theorem boot_img_read {b : Build} {P : List Int} (h : P.length ≤ b.imageCells) (i : Nat) :
    (boot b P).img.read i = P.getD i 0 := by
  have hread := Memory.read_ofCells 0 P i
  rw [Nat.zero_add] at hread
  rw [boot_of_fits h]
  exact hread

/-- Settles O48: it holds. The run makes the host's moves one a step; loading lays the payload out cell by cell, up to the cell
that finds the Image full. -/
theorem loadingIsBoot : Obligations.LoadingIsBoot := by
  unfold Obligations.LoadingIsBoot
  intro b P hb hv
  refine ⟨?_, fun hP => ⟨boot_img_read hP, ?_⟩, fun hP => ?_⟩
  · have hrun := run_hostMoves (s := State.resetFor b) hb (P.map .loadCell ++ [.start]) []
    rw [hostMoves_load_start (Build.one_le_cellBits hb) hv] at hrun
    have hboot : (boot b P).setTurns [] = boot b P := by rw [← boot_turns b P]; rfl
    simpa [Function.comp_def, hboot] using hrun
  · rw [boot_of_fits hP]; exact ⟨rfl, rfl, rfl⟩
  · rw [boot_of_tooLong hP]; exact ⟨rfl, rfl, rfl, rfl⟩

/-! #### A CALL to a RETURN (R134) -/

/-- The step of a core at a CALL with room on the address stack and its operand cell inside the Image. -/
theorem step_call (hs : s.AtInstruction) (hts : s.turns = []) (hin : s.InImage s.ip)
    (hread : s.img.read s.ip.toNat = Instr.call.opcode) (hroom : s.astack.length ≠ s.build.astackDepth)
    (hoperand : s.InImage (s.ip + 1)) :
    step s = .next { s with astack := (s.ip + 1) :: s.astack, ip := s.img.read (s.ip + 1).toNat } := by
  obtain ⟨-, -, hexec⟩ := callSavesItsOperandAddress
  obtain ⟨hcalls, -, -⟩ := hexec s
  exact (step_exec hs hts hin hread).trans (hcalls hroom hoperand)

/-- The step of a core at a RETURN with a cell on the address stack. -/
theorem step_ret {r : Int} {rest : List Int} (hs : s.AtInstruction) (hts : s.turns = []) (hin : s.InImage s.ip)
    (hread : s.img.read s.ip.toNat = Instr.ret.opcode) (hstack : s.astack = r :: rest) :
    step s = .next { s with astack := rest, ip := r } := by
  obtain ⟨-, -, hexec⟩ := returnSetsIpToThePoppedCell
  obtain ⟨hreturns, -⟩ := hexec s
  exact (step_exec hs hts hin hread).trans (hreturns r rest hstack)

/-- Settles O51: it holds. CALL saves the address of its own operand cell, and RETURN adds nothing to the cell it pops. -/
theorem plainReturnLandsOnTheOperand : Obligations.PlainReturnLandsOnTheOperand := by
  unfold Obligations.PlainReturnLandsOnTheOperand
  intro s hs hts hin hoperand hcall htarget hret hroom
  rw [run_step 1 (step_call hs hts hin hcall hroom hoperand), run_one]
  exact step_ret hs hts htarget hret rfl

end Sys2Proof.Machine
